-- ==== Sys2Proof/Word.lean ====
section
/-! DEFINITION. The plain word types of EPDSEQ (spec/00_scope.md R11): bit 0 is the least significant bit
and every value is unsigned. -/

namespace Sys2Proof

/-- A host command word or a host-readable register (R24, R70). -/
abbrev Word := BitVec 32

/-- One byte of the wire or of the packed view (R10, R52). -/
abbrev Byte := BitVec 8

/-- One pin level, one BUSY sample or one canvas pixel (R13, R28). -/
abbrev Bit := BitVec 1

end Sys2Proof
end

