-- ==== Sys2Proof/Config.lean ====
section
/-! DEFINITION. What is fixed at elaboration: the panel configuration `cfg` of spec/00_scope.md R7 to R9,
the test configurations of spec/95_test_vectors.md, and the free draws of the environment
(spec/60_exceptions.md R232 to R234), which no proof can see. -/

namespace Sys2Proof

/-- One command-table entry: an opcode and the data bytes that follow it (R7). -/
structure Entry where
  op : Byte
  data : List Byte
  deriving DecidableEq, Repr

/-- The single step names S for which `cfg.ent[S]` exists (R8). -/
inductive StepName where
  | powerSetting | boosterSoftStart | partialRefreshDisable | powerOn | panelSetting | pllControl
  | vcomDcSetting | startTransmission | displayRefresh | powerOff | deepSleep
  deriving DecidableEq, Repr

/-- The panel configuration and the timing parameters (R7). A duration is a number of ticks of the
delay timer. `tCsHigh` is a lower bound that a model of event order does not see (R126). -/
structure Panel where
  width : Nat
  height : Nat
  powerSetting : Entry
  boosterSoftStart : Entry
  partialRefreshDisable : Entry
  powerOn : Entry
  panelSetting : Entry
  pllControl : Entry
  vcomDcSetting : Entry
  startTransmission : Entry
  displayRefresh : Entry
  powerOff : Entry
  deepSleep : Entry
  powopt : List Entry
  lut : List Entry
  busyIdleLevel : Bit
  busyTimeoutPolls : Option Nat
  tRstHigh : Nat
  tRstLow : Nat
  tRefreshSettle : Nat
  tPoll : Nat
  tCsHigh : Nat
  deriving DecidableEq, Repr

/-- `cfg.ent[S]` (R7, R8). -/
def Panel.ent (p : Panel) : StepName → Entry
  | .powerSetting => p.powerSetting
  | .boosterSoftStart => p.boosterSoftStart
  | .partialRefreshDisable => p.partialRefreshDisable
  | .powerOn => p.powerOn
  | .panelSetting => p.panelSetting
  | .pllControl => p.pllControl
  | .vcomDcSetting => p.vcomDcSetting
  | .startTransmission => p.startTransmission
  | .displayRefresh => p.displayRefresh
  | .powerOff => p.powerOff
  | .deepSleep => p.deepSleep

/-- `LW = ceil(W / 8)`, computed as `(W + 7) div 8` (R7, R190). -/
def Panel.lineWidth (p : Panel) : Nat := (p.width + 7) / 8

/-- `NBYTES = LW * H` (R7, R190). -/
def Panel.nbytes (p : Panel) : Nat := p.lineWidth * p.height

/-- TCFG, the synthetic test configuration of spec/95_test_vectors.md section 0. The spec gives its
timing parameters no value. -/
def tcfg : Panel where
  width := 16
  height := 2
  powerSetting := ⟨0xA1#8, [0x11#8, 0x12#8]⟩
  boosterSoftStart := ⟨0xA2#8, [0x21#8]⟩
  partialRefreshDisable := ⟨0xA4#8, [0x00#8]⟩
  powerOn := ⟨0xA5#8, []⟩
  panelSetting := ⟨0xA6#8, [0x61#8]⟩
  pllControl := ⟨0xA7#8, [0x71#8]⟩
  vcomDcSetting := ⟨0xA8#8, [0x81#8]⟩
  startTransmission := ⟨0xA9#8, []⟩
  displayRefresh := ⟨0xAA#8, []⟩
  powerOff := ⟨0xAB#8, []⟩
  deepSleep := ⟨0xAC#8, [0xDD#8]⟩
  powopt := [⟨0xA3#8, [0x31#8]⟩, ⟨0xA3#8, [0x32#8]⟩]
  lut := [⟨0xB0#8, [0xC0#8]⟩, ⟨0xB1#8, [0xC1#8]⟩, ⟨0xB2#8, [0xC2#8]⟩, ⟨0xB3#8, [0xC3#8]⟩,
    ⟨0xB4#8, [0xC4#8]⟩]
  busyIdleLevel := 1#1
  busyTimeoutPolls := none
  tRstHigh := 0
  tRstLow := 0
  tRefreshSettle := 0
  tPoll := 0
  tCsHigh := 0

/-- TCFG2: TCFG with `W = 10`. -/
def tcfg2 : Panel := { tcfg with width := 10 }

/-- TCFG-T3: TCFG with `BUSY_TIMEOUT_POLLS = 3`. -/
def tcfgT3 : Panel := { tcfg with busyTimeoutPolls := some 3 }

/-- Free draw: does the transport answer ok (R233). -/
opaque Config.freeOk : Nat → Bool

/-- Free draw: the byte the transport receives in an exchange, discarded by EPDSEQ (R127). -/
opaque Config.freeRx : Nat → Byte

/-- Free draw: how many steps the transport takes to answer, finite (R233). -/
opaque Config.freeWait : Nat → Nat

/-- Free draw: the BUSY level at a sample (R232). -/
opaque Config.freeLevel : Nat → Bit

/-- Free draw: how many ticks after its duration a delay ends, finite (R123, R234). -/
opaque Config.freeLate : Nat → Nat

end Sys2Proof
end

