-- ==== Sys2Proof/Syntax.lean ====
section
/-! DEFINITION. The host operations of EPDSEQ (spec/30_encoding.md R72, spec/opcode_table.json), one
constructor per row, and the assembler's lines (R79, R80). -/

namespace Sys2Proof

/-- A decoded host operation. The operands have exactly the widths of the encoding (R71, R73, R74), so
every term is well formed. -/
inductive Instr where
  | nop
  | reset
  | init
  | clear
  | display
  | sleep
  | cclr
  | pset (x y : BitVec 12) (v : Bit)
  | pkrd (a : BitVec 24)
  deriving DecidableEq, Repr

/-- One line of assembly (R79), with the pseudo-instructions PBLACK and PWHITE of R80 and `.word n`.
Numbers are as written, so a line may be ill formed: `AsmLine.wf` refuses it. -/
inductive AsmLine where
  | nop
  | reset
  | init
  | clear
  | display
  | sleep
  | cclr
  | pset (x y v : Nat)
  | pkrd (a : Nat)
  | pblack (x y : Nat)
  | pwhite (x y : Nat)
  | word (n : Nat)
  deriving DecidableEq, Repr

end Sys2Proof
end

