-- ==== Sys2Proof/WellFormed.lean ====
section
/-! DEFINITION. What is well formed: a panel configuration (spec/00_scope.md R9) and an assembly line
(spec/30_encoding.md R79). A decoded `Instr` is well formed by its type. -/

namespace Sys2Proof

/-- The length bound of R9 on a data list, so that a byte index fits ERRBYTE. -/
def Entry.wf (e : Entry) : Bool := e.data.length < 2 ^ 32

/-- All single step names, in the order of R8. -/
def StepName.all : List StepName :=
  [.powerSetting, .boosterSoftStart, .partialRefreshDisable, .powerOn, .panelSetting, .pllControl,
    .vcomDcSetting, .startTransmission, .displayRefresh, .powerOff, .deepSleep]

/-- `BUSY_TIMEOUT_POLLS` is NONE or in `1 .. 2^32-1` (R9). -/
def timeoutWf : Option Nat → Bool
  | none => true
  | some n => 1 ≤ n && n < 2 ^ 32

/-- A well-formed configuration (R9). Opcodes and data bytes are in `0..255` by their type. -/
def Panel.wf (p : Panel) : Bool :=
  (1 ≤ p.width && p.width ≤ 4096)
    && (1 ≤ p.height && p.height ≤ 4096)
    && p.powerOn.data.isEmpty
    && p.deepSleep.data.length == 1
    && p.startTransmission.data.isEmpty
    && p.lut.length == 5
    && p.powopt.length ≤ 256
    && StepName.all.all (fun n => (p.ent n).wf)
    && p.powopt.all Entry.wf
    && p.lut.all Entry.wf
    && timeoutWf p.busyTimeoutPolls

/-- A configuration that R9 lets a model take: the subtype of the well-formed ones. There is no block for
any other (R9, R238). -/
abbrev WfPanel := { p : Panel // p.wf = true }

/-- The assembler refuses `x` or `y` above 4095, `a` above `2^24-1`, and `v` other than 0 or 1 (R79);
`.word n` takes a 32-bit word. -/
def AsmLine.wf : AsmLine → Bool
  | .nop => true
  | .reset => true
  | .init => true
  | .clear => true
  | .display => true
  | .sleep => true
  | .cclr => true
  | .pset x y v => x ≤ 4095 && y ≤ 4095 && v ≤ 1
  | .pkrd a => a ≤ 2 ^ 24 - 1
  | .pblack x y => x ≤ 4095 && y ≤ 4095
  | .pwhite x y => x ≤ 4095 && y ≤ 4095
  | .word n => n < 2 ^ 32

end Sys2Proof
end

