-- ==== Sys2Proof/Decode.lean ====
section
/-! DEFINITION. The decoder of spec/30_encoding.md R78, total on all words, the encoder and the
assembler's words (R71, R79, R80), and the opcode table as match and mask rows (R72). -/

namespace Sys2Proof

/-- Why a word is ILLEGAL: a reserved opcode (R76) or a reserved bit that is 1 (R75). -/
inductive DecodeError where
  | reservedOpcode
  | reservedBits
  deriving DecidableEq, Repr

/-- The OP field `w[3:0]` (R71). -/
def opField (w : Word) : BitVec 4 := w.extractLsb' 0 4

/-- Format N: `w[31:4]` must be 0 (R71, R75). -/
def decodeN (i : Instr) (w : Word) : Except DecodeError Instr :=
  if w.extractLsb' 4 28 = 0#28 then .ok i else .error .reservedBits

/-- Format P (PSET): `w[7:5]` must be 0 (R71, R73, R75). -/
def decodeP (w : Word) : Except DecodeError Instr :=
  if w.extractLsb' 5 3 = 0#3 then
    .ok (.pset (w.extractLsb' 8 12) (w.extractLsb' 20 12) (w.extractLsb' 4 1))
  else .error .reservedBits

/-- Format R (PKRD): `w[7:4]` must be 0 (R71, R74, R75). -/
def decodeR (w : Word) : Except DecodeError Instr :=
  if w.extractLsb' 4 4 = 0#4 then .ok (.pkrd (w.extractLsb' 8 24)) else .error .reservedBits

/-- `Decode(w)` (R78). -/
def decode (w : Word) : Except DecodeError Instr :=
  if opField w = 0x0#4 then decodeN .nop w
  else if opField w = 0x1#4 then decodeN .reset w
  else if opField w = 0x2#4 then decodeN .init w
  else if opField w = 0x3#4 then decodeN .clear w
  else if opField w = 0x4#4 then decodeN .display w
  else if opField w = 0x5#4 then decodeN .sleep w
  else if opField w = 0x6#4 then decodeN .cclr w
  else if opField w = 0x7#4 then decodeP w
  else if opField w = 0x8#4 then decodeR w
  else .error .reservedOpcode

/-- The OP code of an operation (R72). -/
def Instr.opcode : Instr → BitVec 4
  | .nop => 0x0#4
  | .reset => 0x1#4
  | .init => 0x2#4
  | .clear => 0x3#4
  | .display => 0x4#4
  | .sleep => 0x5#4
  | .cclr => 0x6#4
  | .pset _ _ _ => 0x7#4
  | .pkrd _ => 0x8#4

/-- The command word of an operation, laid out as R71's formats N, P and R say. -/
def encode : Instr → Word
  | .nop => 0#28 ++ 0x0#4
  | .reset => 0#28 ++ 0x1#4
  | .init => 0#28 ++ 0x2#4
  | .clear => 0#28 ++ 0x3#4
  | .display => 0#28 ++ 0x4#4
  | .sleep => 0#28 ++ 0x5#4
  | .cclr => 0#28 ++ 0x6#4
  | .pset x y v => y ++ x ++ 0#3 ++ v ++ 0x7#4
  | .pkrd a => a ++ 0#4 ++ 0x8#4

/-- The word an assembly line emits, by R79's shift-and-or formulas; `none` where the assembler
refuses the line. PBLACK and PWHITE are PSET with `v` 0 and 1 (R80). -/
def assembleLine (l : AsmLine) : Option Word :=
  if l.wf then
    some (BitVec.ofNat 32 (match l with
      | .nop => 0x0
      | .reset => 0x1
      | .init => 0x2
      | .clear => 0x3
      | .display => 0x4
      | .sleep => 0x5
      | .cclr => 0x6
      | .pset x y v => y <<< 20 ||| x <<< 8 ||| v <<< 4 ||| 0x7
      | .pkrd a => a <<< 8 ||| 0x8
      | .pblack x y => y <<< 20 ||| x <<< 8 ||| 0 <<< 4 ||| 0x7
      | .pwhite x y => y <<< 20 ||| x <<< 8 ||| 1 <<< 4 ||| 0x7
      | .word n => n))
  else none

/-- A row of the opcode table: a word belongs to it when its bits under `mask` are those of `value`. -/
structure OpcodeRow where
  opcode : BitVec 4
  value : Word
  mask : Word
  deriving DecidableEq, Repr

/-- spec/opcode_table.json's nine rows: NOP, RESET, INIT, CLEAR, DISPLAY, SLEEP, CCLR, PSET, PKRD. -/
def opcodeTable : List OpcodeRow :=
  [⟨0x0#4, 0x00000000#32, 0xFFFFFFFF#32⟩, ⟨0x1#4, 0x00000001#32, 0xFFFFFFFF#32⟩,
    ⟨0x2#4, 0x00000002#32, 0xFFFFFFFF#32⟩, ⟨0x3#4, 0x00000003#32, 0xFFFFFFFF#32⟩,
    ⟨0x4#4, 0x00000004#32, 0xFFFFFFFF#32⟩, ⟨0x5#4, 0x00000005#32, 0xFFFFFFFF#32⟩,
    ⟨0x6#4, 0x00000006#32, 0xFFFFFFFF#32⟩, ⟨0x7#4, 0x00000007#32, 0x000000EF#32⟩,
    ⟨0x8#4, 0x00000008#32, 0x000000FF#32⟩]

/-- The word belongs to the row. -/
def OpcodeRow.matchesWord (r : OpcodeRow) (w : Word) : Bool := w &&& r.mask == r.value

/-- The instruction the decoder reads from a word whose `nbits` low bits are those of `w`. A command
word arrives whole on the command port (R36, R70), so there is no byte order to choose. -/
def decodeTableWord (nbits w : Nat) : Option Instr :=
  match decode (BitVec.ofNat 32 (w % 2 ^ nbits)) with
  | .ok i => some i
  | .error _ => none

end Sys2Proof
end

