-- ==== Sys2Proof/Machine/State.lean ====
section
/-! DEFINITION. The state of EPDSEQ as plain data (spec/10_state.md), the reasons a step can stop, and the
state after block reset (spec/70_reset_and_hazards.md R250). -/

namespace Sys2Proof.Machine

/-- PSTATE, the source's ProtocolState; its 2-bit code is `PState.code` and 3 does not exist (R22). -/
inductive PState where
  | uninitialized | ready | sleeping
  deriving DecidableEq, Repr

/-- The result codes of STATUS.ERR (R220); the 4-bit code is `ErrCode.code`. -/
inductive ErrCode where
  | ok | illegal | state | transport | unresponsive | range
  deriving DecidableEq, Repr

/-- The step ids of R26; the 8-bit id is `StepId.code`. `noStep` is the id NONE. -/
inductive StepId where
  | noStep | resetPulse | powerSetting | boosterSoftStart | powerOptimization
  | partialRefreshDisable | powerOn | waitPowerOn | panelSetting | pllControl | vcomDcSetting
  | lut | startTransmission | displayRefresh | refreshSettle | waitRefresh | powerOff
  | waitPowerOff | deepSleep
  deriving DecidableEq, Repr

/-- `pc.phase` (R21). -/
inductive Phase where
  | cmd | data | delay | wait | pin
  deriving DecidableEq, Repr

/-- The output pins (R27). -/
inductive Pin where
  | dc | csN | rstN
  deriving DecidableEq, Repr

/-- The duration parameters a delay can use (R123). -/
inductive DelayName where
  | rstHigh | rstLow | refreshSettle | poll
  deriving DecidableEq, Repr

/-- One event of the wire trace (R56). `xfer b ok` is `Xfer(b, r)` with `r = ok` when `ok` is true. -/
inductive Event where
  | pin (p : Pin) (v : Bit)
  | xfer (b : Byte) (ok : Bool)
  | delay (n : DelayName) (t : Nat)
  | sample (l : Bit)
  deriving DecidableEq, Repr

/-- The operations that occupy the sequencer for more than one primitive. Their 4-bit OP field, `pc.op`
of R21, is `RunOp.code`. -/
inductive RunOp where
  | reset | init | clear | display | sleep
  deriving DecidableEq, Repr

/-- The primitive the sequencer performs next inside the current step: the part of the position that the
tuple of R21 does not tell apart (R33, "the remainder of `pc`"). The pseudocode is that of R120, R122,
R124 and R125. `csHigh ok` holds the transport's answer while CS_N is raised. -/
inductive Prim where
  | rstHigh | rstHighSettle | rstLow | rstLowSettle | rstHighAgain
  | setDc | csLow | xfer | csHigh (ok : Bool)
  | refreshSettle
  | sample | pollDelay
  deriving DecidableEq, Repr

/-- One step of an operation's sequence: its id and its index within a repeated step (R26). -/
structure Stage where
  step : StepId
  sub : Byte
  deriving DecidableEq, Repr

/-- The sequencer position while BUSY = 1: the tuple of R21, the next primitive, and the steps that follow
the current one in the operation's sequence. -/
structure Pos where
  op : RunOp
  step : StepId
  sub : Byte
  phase : Phase
  idx : Word
  polls : Word
  next : Prim
  rest : List Stage
  deriving DecidableEq, Repr

/-- `pc` (R21): IDLE, or a position. -/
inductive Pc where
  | idle
  | run (p : Pos)
  deriving DecidableEq, Repr

/-- The running delay (R33): which one, the ticks since its start, and how many ticks after its duration
the timer agent will end it. -/
structure RunningDelay where
  name : DelayName
  elapsed : Nat
  late : Nat
  deriving DecidableEq, Repr

/-- A transfer awaiting the transport's answer (R33): the byte, the steps still to wait, the answer, and
the byte received, which is discarded (R127). -/
structure Flight where
  byte : Byte
  wait : Nat
  ok : Bool
  rx : Byte
  deriving DecidableEq, Repr

/-- One coming answer of the transport (R233). -/
structure Answer where
  ok : Bool
  rx : Byte
  wait : Nat
  deriving DecidableEq, Repr

/-- The environment's coming draws (R232 to R234): the transport's answers, the BUSY levels, and the
lateness of each delay, first one first. After the last listed draw of a kind the draws are the
free values of Config, applied to the counter `draws`. -/
structure Env where
  answers : List Answer
  levels : List Bit
  lates : List Nat
  draws : Nat
  deriving DecidableEq, Repr

/-- The frame canvas (R28) as a list of (pixel address, value) pairs, addresses strictly rising, holding
only the black pixels; an unlisted pixel is white. The address of pixel (x, y) is `y * W + x`. -/
abbrev Memory := List (Nat × Bit)

/-- The state. Fields `config`, `wire`, `cmdQueue`, `rstIn` and `env` are not state of the block (R34,
R36, R56, R232): they are the fixed configuration, the record of what the block has done on the
wire, and what the outside world will do. -/
structure State where
  /-- The elaboration-time configuration (R7), well formed by its type (R9); no step changes it (R65). -/
  config : WfPanel
  /-- PSTATE (R22). -/
  pstate : PState
  /-- BUSY (R23); `cmd_ready` is its negation (R36). -/
  busy : Bool
  /-- STATUS.ERR (R25, R220). -/
  err : ErrCode
  /-- STATUS.LAST_OP (R32). -/
  lastOp : BitVec 4
  /-- RESULT (R29). -/
  result : Word
  /-- ERRSTEP (R30). -/
  errStep : Word
  /-- ERRBYTE (R31). -/
  errByte : Word
  /-- The DC output (R27). -/
  dc : Bit
  /-- The CS_N output (R27). -/
  csN : Bit
  /-- The RST_N output (R27). -/
  rstN : Bit
  /-- The frame canvas (R28). -/
  canvas : Memory
  /-- The sequencer position (R21). -/
  pc : Pc
  /-- The delay timer's running delay (R33, R234). -/
  delay : Option RunningDelay
  /-- The transfer in flight (R33). -/
  inFlight : Option Flight
  /-- The `done` output (R36): asserted by the step that completes or aborts an operation. -/
  done : Bool
  /-- The wire trace so far, oldest event first (R56). -/
  wire : List Event
  /-- The command port at each coming step that finds it ready, and low `cmd_valid` after the last
  (R36): `some w` presents the word `w`, held until it is accepted; `none` presents nothing. -/
  cmdQueue : List (Option Word)
  /-- The level of the `rst` input at each coming step; low after the last one (R250, R251). -/
  rstIn : List Bool
  /-- The coming draws of the transport, the panel and the delay timer. -/
  env : Env
  deriving DecidableEq, Repr

/-- The configuration `cfg` of R7, as the rules read it. -/
def State.cfg (s : State) : Panel := s.config.val

/-- Why a step stops with a fault. -/
inductive Fault where
  /-- Raised by `step` alone, in a state where BUSY and `pc` disagree (BUSY = 1 with `pc` = IDLE, or
  BUSY = 0 with a position), which R21 excludes and no run reaches. Safe: the machine stops. -/
  | busyAgainstPc
  deriving DecidableEq, Repr

/-- Why a step is refused. -/
inductive Refusal where
  /-- Raised by an arm of `exec` that has no meaning yet. Safe: the machine stops. No arm raises it. -/
  | notModelled (mnemonic : String)
  deriving DecidableEq, Repr

/-- No listed draw: every draw is free. -/
def Env.free : Env := { answers := [], levels := [], lates := [], draws := 0 }

/-- The state after block reset, for the well-formed configuration `c` (R9, R250); the host presents no
word. -/
def State.resetWith (c : WfPanel) : State where
  config := c
  pstate := .uninitialized
  busy := false
  err := .ok
  lastOp := 0#4
  result := 0#32
  errStep := 0#32
  errByte := 0#32
  dc := 0#1
  csN := 0#1
  rstN := 0#1
  canvas := []
  pc := .idle
  delay := none
  inFlight := none
  done := false
  wire := []
  cmdQueue := []
  rstIn := []
  env := Env.free

/-- Block reset of the EPDSEQ built for TCFG (spec/95_test_vectors.md). The configuration is a model
argument (R7): every statement is about every configuration, none about this one. -/
def State.reset : State := State.resetWith ⟨tcfg, by decide⟩

end Sys2Proof.Machine
end

