-- ==== Sys2Proof/Machine/Flags.lean ====
section
/-! DEFINITION. The numeric codes of the status fields and the layout of the four host-readable registers
(spec/10_state.md R22 to R32, spec/60_exceptions.md R220), and the poll counter (spec/41_wire_primitives.md
R124). -/

namespace Sys2Proof.Machine

/-- The 2-bit code of PSTATE (R22). -/
def PState.code : PState → BitVec 2
  | .uninitialized => 0#2
  | .ready => 1#2
  | .sleeping => 2#2

/-- The 4-bit result code (R220). -/
def ErrCode.code : ErrCode → BitVec 4
  | .ok => 0#4
  | .illegal => 1#4
  | .state => 2#4
  | .transport => 3#4
  | .unresponsive => 4#4
  | .range => 5#4

/-- The OP field of the operation being run (R21, R72). -/
def RunOp.code : RunOp → BitVec 4
  | .reset => 0x1#4
  | .init => 0x2#4
  | .clear => 0x3#4
  | .display => 0x4#4
  | .sleep => 0x5#4

/-- The 8-bit step id (R26). -/
def StepId.code : StepId → Byte
  | .noStep => 0x00#8
  | .resetPulse => 0x01#8
  | .powerSetting => 0x02#8
  | .boosterSoftStart => 0x03#8
  | .powerOptimization => 0x04#8
  | .partialRefreshDisable => 0x05#8
  | .powerOn => 0x06#8
  | .waitPowerOn => 0x07#8
  | .panelSetting => 0x08#8
  | .pllControl => 0x09#8
  | .vcomDcSetting => 0x0A#8
  | .lut => 0x0B#8
  | .startTransmission => 0x0C#8
  | .displayRefresh => 0x0D#8
  | .refreshSettle => 0x0E#8
  | .waitRefresh => 0x0F#8
  | .powerOff => 0x10#8
  | .waitPowerOff => 0x11#8
  | .deepSleep => 0x12#8

/-- A flag as one bit. -/
def flagBit (b : Bool) : Bit := if b then 1#1 else 0#1

/-- STATUS (R25): bits 31:12 and 3 read 0, LAST_OP 11:8, ERR 7:4, BUSY 2, PSTATE 1:0. -/
def statusWord (s : State) : Word :=
  0#20 ++ s.lastOp ++ s.err.code ++ 0#1 ++ flagBit s.busy ++ s.pstate.code

/-- The ERRSTEP word `{15'b0, phase[0], sub[7:0], step[7:0]}` (R30, R226). -/
def errStepWord (phase : Bit) (sub step : Byte) : Word := 0#15 ++ phase ++ sub ++ step

/-- The register read port: `reg_data` for `reg_sel` (R24, R82). Reading changes nothing (R60). -/
def readReg (sel : BitVec 2) (s : State) : Word :=
  if sel = 0#2 then statusWord s
  else if sel = 1#2 then s.result
  else if sel = 2#2 then s.errStep
  else s.errByte

/-- The `cmd_ready` output (R23, R36). -/
def cmdReady (s : State) : Bool := !s.busy

/-- One more BUSY sample, saturating at `2^32 - 1` (R124, R234). -/
def countPoll (polls : Word) : Word := if polls = BitVec.allOnes 32 then polls else polls + 1#32

/-- `BUSY_TIMEOUT_POLLS` is a number and `polls` has reached it (R124, R224). -/
def timedOut (p : Panel) (polls : Word) : Bool :=
  match p.busyTimeoutPolls with
  | none => false
  | some n => n ≤ polls.toNat

/-- The power conditions of the panel that EPDSEQ tracks (R236). -/
inductive PanelCondition where
  | heldInReset | operating | deepSleep
  deriving DecidableEq, Repr

/-- The panel's power condition as EPDSEQ tracks it (R236, R256), read from RST_N and PSTATE; `none` while
the panel is out of reset and not initialised. R236 does not say what it is while a RESET or INIT
begun from Ready or Sleeping runs: here it is `heldInReset` while that pulse drives RST_N low, and
`operating` or `deepSleep` before and after the pulse, until the operation ends and PSTATE changes
(DESIGN CHOICE, notes/assumptions/18.md). -/
def panelCondition (s : State) : Option PanelCondition :=
  if s.rstN = 0#1 then some .heldInReset
  else match s.pstate with
    | .uninitialized => none
    | .ready => some .operating
    | .sleeping => some .deepSleep

end Sys2Proof.Machine
end

