-- ==== Sys2Proof/Machine/Memory.lean ====
section
/-! DEFINITION. The frame canvas as memory: one pixel read or written at a time, in one canonical form
(spec/10_state.md R28, spec/20_memory.md R51). -/

namespace Sys2Proof.Machine

/-- What an unlisted pixel reads as: white, the canvas's reset value (R28). -/
def whitePixel : Bit := 1#1

/-- Reading one pixel cell. -/
def Memory.read : Memory → Nat → Bit
  | [], _ => whitePixel
  | (k, v) :: m, a => if k = a then v else Memory.read m a

/-- Writing one pixel cell; writing white removes the entry. -/
def Memory.write : Memory → Nat → Bit → Memory
  | [], a, v => if v = whitePixel then [] else [(a, v)]
  | (k, u) :: m, a, v =>
    if a < k then (if v = whitePixel then (k, u) :: m else (a, v) :: (k, u) :: m)
    else if a = k then (if v = whitePixel then m else (a, v) :: m)
    else (k, u) :: Memory.write m a v

/-- Addresses rise strictly, starting above `lo` where there is a `lo`, and no entry is white. -/
def Memory.wfFrom : Option Nat → Memory → Bool
  | _, [] => true
  | lo, (k, v) :: m =>
    (match lo with | none => true | some l => decide (l < k)) && v != whitePixel
      && Memory.wfFrom (some k) m

/-- The canonical form. -/
def Memory.wf (m : Memory) : Bool := Memory.wfFrom none m

/-- Every listed pixel lies on the canvas: its address is below `W * H`. -/
def Memory.within (n : Nat) (m : Memory) : Bool := m.all fun c => decide (c.1 < n)

/-- The cell of pixel `(x, y)`, row by row (R51). -/
def pixelAddr (p : Panel) (x y : Nat) : Nat := y * p.width + x

/-- `CanvasRead(x, y)` (R13). -/
def canvasRead (p : Panel) (m : Memory) (x y : Nat) : Bit := m.read (pixelAddr p x y)

/-- `CanvasWrite(x, y, v)` (R13). -/
def canvasWrite (p : Panel) (m : Memory) (x y : Nat) (v : Bit) : Memory :=
  m.write (pixelAddr p x y) v

/-- The pixel `(x, y)` is on the canvas (R51). -/
def onCanvas (p : Panel) (x y : Nat) : Bool := decide (x < p.width) && decide (y < p.height)

end Sys2Proof.Machine
end

