-- ==== Sys2Proof/Machine/Ops.lean ====
section
/-! DEFINITION. The shared operations over State: wire events and pins, the environment's draws, the
sequencer position, completion and abort (spec/00_scope.md R13, spec/60_exceptions.md R225, R226),
acceptance (spec/42_protocol_ops.md R150), block reset (spec/70_reset_and_hazards.md R250, R251) and
instantiation (spec/00_scope.md R9, spec/60_exceptions.md R238). -/

namespace Sys2Proof.Machine

/-- Adds one event to the wire trace (R56). -/
def emit (e : Event) (s : State) : State := { s with wire := s.wire ++ [e] }

/-- `SetPin(p, v)`: an event even when the level does not change (R13, R56). -/
def setPin (p : Pin) (v : Bit) (s : State) : State :=
  match p with
  | .dc => emit (.pin .dc v) { s with dc := v }
  | .csN => emit (.pin .csN v) { s with csN := v }
  | .rstN => emit (.pin .rstN v) { s with rstN := v }

/-- `pc <- target` (R12). -/
def goTo (p : Pos) (s : State) : State := { s with pc := .run p }

/-- The transport's next answer (R233). -/
def Env.drawAnswer (e : Env) : Answer × Env :=
  match e.answers with
  | a :: as => (a, { e with answers := as })
  | [] => (⟨Config.freeOk e.draws, Config.freeRx e.draws, Config.freeWait e.draws⟩,
      { e with draws := e.draws + 1 })

/-- The BUSY level at the next sample (R232). -/
def Env.drawLevel (e : Env) : Bit × Env :=
  match e.levels with
  | l :: ls => (l, { e with levels := ls })
  | [] => (Config.freeLevel e.draws, { e with draws := e.draws + 1 })

/-- How many ticks after its duration the next delay ends (R234). -/
def Env.drawLate (e : Env) : Nat × Env :=
  match e.lates with
  | n :: ns => (n, { e with lates := ns })
  | [] => (Config.freeLate e.draws, { e with draws := e.draws + 1 })

/-- `complete(code)` (R225) for an operation whose word has the OP field `op`. -/
def complete (code : ErrCode) (op : BitVec 4) (s : State) : State :=
  { s with
    err := code
    lastOp := op
    errStep := 0#32
    errByte := 0#32
    pc := .idle
    busy := false
    done := true }

/-- `raise Error(code, step, sub, phase, idx)`, the abort (R226): the context is recorded, PSTATE becomes
Uninitialized, and no pin, canvas pixel or RESULT bit is written. -/
def raiseError (code : ErrCode) (step : StepId) (sub : Byte) (phase : Bit) (idx : Word)
    (op : BitVec 4) (s : State) : State :=
  { s with
    err := code
    lastOp := op
    errStep := errStepWord phase sub step.code
    errByte := idx
    pstate := .uninitialized
    pc := .idle
    busy := false
    done := true }

/-- The phase in which a step begins (R21, R120 to R125). -/
def StepId.firstPhase : StepId → Phase
  | .resetPulse => .pin
  | .refreshSettle => .delay
  | .waitPowerOn | .waitRefresh | .waitPowerOff => .wait
  | .noStep | .powerSetting | .boosterSoftStart | .powerOptimization | .partialRefreshDisable
  | .powerOn | .panelSetting | .pllControl | .vcomDcSetting | .lut | .startTransmission
  | .displayRefresh | .powerOff | .deepSleep => .cmd

/-- The first primitive of a step (R120 to R125). -/
def StepId.firstPrim : StepId → Prim
  | .resetPulse => .rstHigh
  | .refreshSettle => .refreshSettle
  | .waitPowerOn | .waitRefresh | .waitPowerOff => .sample
  | .noStep | .powerSetting | .boosterSoftStart | .powerOptimization | .partialRefreshDisable
  | .powerOn | .panelSetting | .pllControl | .vcomDcSetting | .lut | .startTransmission
  | .displayRefresh | .powerOff | .deepSleep => .setDc

/-- The position at the start of a step, with the steps that follow it. R124 zeroes `polls` where a wait
begins; outside a wait R21 gives it no value, and that it is 0 there too is the model's choice
(DESIGN CHOICE, notes/assumptions/14.md). -/
def enterStage (op : RunOp) (st : Stage) (rest : List Stage) : Pos where
  op := op
  step := st.step
  sub := st.sub
  phase := st.step.firstPhase
  idx := 0#32
  polls := 0#32
  next := st.step.firstPrim
  rest := rest

/-- Begins an operation whose sequence is `first` and then `rest`: BUSY = 1 and `pc` at the first step
(R21, R23, R150). -/
def startOp (op : RunOp) (first : Stage) (rest : List Stage) (s : State) : State :=
  { s with busy := true, pc := .run (enterStage op first rest) }

/-- The level of the `rst` input at this step. -/
def rstAsserted (s : State) : Bool := s.rstIn.headD false

/-- The inputs move on by one step and `done`, a pulse, falls (R36). -/
def nextInputs (s : State) : State := { s with rstIn := s.rstIn.tail, done := false }

/-- Block reset while the machine may be running (R250, R251): every field of the block takes its reset
value, an operation in progress is abandoned without completion; the configuration, the record of
the wire and the outside world stay as they are. -/
def blockReset (s : State) : State :=
  { State.resetWith s.config with
    wire := s.wire
    cmdQueue := s.cmdQueue
    rstIn := s.rstIn
    env := s.env }

/-- Why there is no block for a configuration: it is ill formed (R9, R238). -/
inductive ConfigError where
  | illFormed
  deriving DecidableEq, Repr

/-- Instantiation (R9, R253): a well-formed configuration gives the block, in its state after block reset;
an ill-formed one is refused, and no block exists for it (R238). -/
def instantiate (p : Panel) : Except ConfigError State :=
  if h : p.wf = true then .ok (State.resetWith ⟨p, h⟩) else .error .illFormed

/-- The command word at the port is accepted: it leaves the queue and BUSY becomes 1 (R36, R150). -/
def acceptWord (s : State) : State := { s with cmdQueue := s.cmdQueue.tail, busy := true }

/-- `OnAccept` for a word that does not decode (R150, R221). -/
def completeIllegal (w : Word) (s : State) : State := complete .illegal (opField w) s

end Sys2Proof.Machine
end

