-- ==== Sys2Proof/Machine/Canvas.lean ====
section
/-! DEFINITION. The canvas operations CCLR and PSET (spec/40_canvas.md R100 to R102). -/

namespace Sys2Proof.Machine

/-- CCLR's loop over one row, columns `0 .. n-1` (R101). -/
def clearRow (p : Panel) (y : Nat) : Nat → Memory → Memory
  | 0, m => m
  | n + 1, m => canvasWrite p (clearRow p y n m) n y whitePixel

/-- CCLR's loop over rows `0 .. n-1` (R101). -/
def clearRows (p : Panel) : Nat → Memory → Memory
  | 0, m => m
  | n + 1, m => clearRow p n p.width (clearRows p n m)

/-- The canvas with every pixel white: no pixel is listed. `clearRows` gives the same canvas. -/
def whiteCanvas : Memory := []

/-- The meaning of CCLR (R101). -/
def execCclr (s : State) : Host.Outcome State Fault Refusal :=
  .next (complete .ok 0x6#4 { s with canvas := whiteCanvas })

/-- PSET's canvas: the pixel written where it is on the canvas, clipped elsewhere (R102). -/
def psetCanvas (p : Panel) (m : Memory) (x y : Nat) (v : Bit) : Memory :=
  if onCanvas p x y then canvasWrite p m x y v else m

/-- The meaning of PSET (R73, R102). -/
def execPset (x y : BitVec 12) (v : Bit) (s : State) : Host.Outcome State Fault Refusal :=
  .next (complete .ok 0x7#4 { s with canvas := psetCanvas s.cfg s.canvas x.toNat y.toNat v })

end Sys2Proof.Machine
end

