-- ==== Sys2Proof/Machine/Bitpacker.lean ====
section
/-! DEFINITION. The bitpacker and PKRD (spec/43_bitpacker.md R190 to R198). -/

namespace Sys2Proof.Machine

/-- A byte from its bits in scan order: the first one is bit 7 (R193). -/
def byteOfBits (f : Nat → Bit) : Byte :=
  f 0 ++ f 1 ++ f 2 ++ f 3 ++ f 4 ++ f 5 ++ f 6 ++ f 7

/-- The bit of column `x` of row `r`: the pixel itself on the canvas, white padding beyond `W`
(R191, R192, R194). -/
def rowBit (p : Panel) (m : Memory) (r x : Nat) : Bit :=
  if x < p.width then canvasRead p m x r else 1#1

/-- `PackedByte(a)` (R192). -/
def packedByte (p : Panel) (m : Memory) (a : Nat) : Byte :=
  byteOfBits fun k => rowBit p m (a / p.lineWidth) (8 * (a % p.lineWidth) + k)

/-- `Pack(canvas)` (R192, R197). -/
def pack (p : Panel) (m : Memory) : List Byte := (List.range p.nbytes).map (packedByte p m)

/-- The accumulator of R198 after the first `x` pixels of row `r`. -/
def rowAcc (p : Panel) (m : Memory) (r : Nat) : Nat → Byte
  | 0 => 0xFF#8
  | x + 1 => (rowAcc p m r x <<< 1) ||| (canvasRead p m x r).setWidth 8

/-- The complete bytes R198's loop writes for row `r` in its first `x` pixels. -/
def rowFullBytes (p : Panel) (m : Memory) (r : Nat) : Nat → List Byte
  | 0 => []
  | x + 1 =>
    if x % 8 = 7 then rowFullBytes p m r x ++ [rowAcc p m r (x + 1)] else rowFullBytes p m r x

/-- `PackRow(r)`, the accumulator form of R198: the complete bytes, then the flushed partial byte. -/
def packRowAcc (p : Panel) (m : Memory) (r : Nat) : List Byte :=
  if p.width % 8 = 0 then rowFullBytes p m r p.width
  else rowFullBytes p m r p.width
    ++ [(rowAcc p m r p.width <<< (8 - p.width % 8)) ||| (0xFF#8 >>> (p.width % 8))]

/-- PKRD (R196, R227): the packed byte to RESULT, or ERR_RANGE with RESULT unchanged. -/
def pkrd (a : Nat) (s : State) : State :=
  if a < s.cfg.nbytes then
    complete .ok 0x8#4 { s with result := (packedByte s.cfg s.canvas a).setWidth 32 }
  else complete .range 0x8#4 s

/-- The meaning of PKRD (R74, R196). -/
def execPkrd (a : BitVec 24) (s : State) : Host.Outcome State Fault Refusal :=
  .next (pkrd a.toNat s)

end Sys2Proof.Machine
end

