-- ==== Sys2Proof/Machine/Operands.lean ====
section
/-! DEFINITION. Where the sequencer's operands come from: the configuration entry of a step, the byte to
send at a position, how many data bytes a step has, the DC level of a phase and the length of a
delay (spec/00_scope.md R8, spec/10_state.md R26, spec/30_encoding.md R81, spec/42_protocol_ops.md
R155, R156). -/

namespace Sys2Proof.Machine

/-- The entry of a step that has none, or of a sub-index with no entry. No position of an operation's
sequence asks for it, since the configuration is well formed (R9, `plan_entry`). -/
def missingEntry : Entry := ⟨0#8, []⟩

/-- The configuration entry of a step (R26). -/
def entryOf (p : Panel) (step : StepId) (sub : Byte) : Entry :=
  match step with
  | .powerSetting => p.ent .powerSetting
  | .boosterSoftStart => p.ent .boosterSoftStart
  | .powerOptimization => (p.powopt[sub.toNat]?).getD missingEntry
  | .partialRefreshDisable => p.ent .partialRefreshDisable
  | .powerOn => p.ent .powerOn
  | .panelSetting => p.ent .panelSetting
  | .pllControl => p.ent .pllControl
  | .vcomDcSetting => p.ent .vcomDcSetting
  | .lut => (p.lut[sub.toNat]?).getD missingEntry
  | .startTransmission => p.ent .startTransmission
  | .displayRefresh => p.ent .displayRefresh
  | .powerOff => p.ent .powerOff
  | .deepSleep => p.ent .deepSleep
  | .noStep | .resetPulse | .waitPowerOn | .refreshSettle | .waitRefresh | .waitPowerOff =>
    missingEntry

/-- How many data bytes a step sends: the whole frame for START_TRANSMISSION (R155, R156), else the
entry's data list (R121). -/
def dataLen (p : Panel) (step : StepId) (sub : Byte) : Nat :=
  if step = .startTransmission then p.nbytes else (entryOf p step sub).data.length

/-- Byte `a` of the frame: the white fill byte for CLEAR (R155), the packed canvas for DISPLAY (R156).
No other operation has a frame. -/
def frameByte (p : Panel) (m : Memory) (op : RunOp) (a : Nat) : Byte :=
  match op with
  | .display => packedByte p m a
  | .reset | .init | .clear | .sleep => 0xFF#8

/-- The byte to send at a position: the command byte in phase CMD, else data byte `idx` (R81, R121). -/
def byteAt (p : Panel) (m : Memory) (pos : Pos) : Byte :=
  if pos.phase = .cmd then (entryOf p pos.step pos.sub).op
  else if pos.step = .startTransmission then frameByte p m pos.op pos.idx.toNat
  else ((entryOf p pos.step pos.sub).data[pos.idx.toNat]?).getD 0#8

/-- The DC level of a framed byte: 0 for a command byte, 1 for a data byte (R27, R120). -/
def Phase.dcLevel (ph : Phase) : Bit := if ph = .cmd then 0#1 else 1#1

/-- The duration parameter behind a delay's name (R7, R123). -/
def delayTicks (p : Panel) : DelayName → Nat
  | .rstHigh => p.tRstHigh
  | .rstLow => p.tRstLow
  | .refreshSettle => p.tRefreshSettle
  | .poll => p.tPoll

end Sys2Proof.Machine
end

