-- ==== Sys2Proof/Machine/Protocol.lean ====
section
/-! DEFINITION. The protocol operations NOP, RESET, INIT, CLEAR, DISPLAY and SLEEP (spec/42_protocol_ops.md
R150 to R158): for each, the sequence of steps it begins, the state check, and what it writes when
its last step is done. -/

namespace Sys2Proof.Machine

/-- A step that is not repeated. -/
def single (step : StepId) : Stage := ⟨step, 0#8⟩

/-- The steps of a repeated step, sub-index `0 .. n-1`. -/
def repeated (step : StepId) (n : Nat) : List Stage :=
  (List.range n).map fun k => ⟨step, BitVec.ofNat 8 k⟩

/-- The steps that follow INIT's reset pulse (R153). -/
def initRest (p : Panel) : List Stage :=
  [single .powerSetting, single .boosterSoftStart]
    ++ repeated .powerOptimization p.powopt.length
    ++ [single .partialRefreshDisable, single .powerOn, single .waitPowerOn, single .panelSetting,
      single .pllControl, single .vcomDcSetting]
    ++ repeated .lut 5

/-- TurnOnDisplay (R125). -/
def turnOnDisplay : List Stage :=
  [single .displayRefresh, single .refreshSettle, single .waitRefresh]

/-- The steps that follow CLEAR's data load (R155). -/
def clearRest : List Stage := turnOnDisplay

/-- The steps that follow DISPLAY's data load (R156). -/
def displayRest : List Stage := turnOnDisplay

/-- The steps that follow SLEEP's power-off (R157). -/
def sleepRest : List Stage := [single .waitPowerOff, single .deepSleep]

/-- The whole sequence of an operation, in order (R21, R152 to R157). -/
def plan (p : Panel) : RunOp → List Stage
  | .reset => [single .resetPulse]
  | .init => single .resetPulse :: initRest p
  | .clear => single .startTransmission :: clearRest
  | .display => single .startTransmission :: displayRest
  | .sleep => single .powerOff :: sleepRest

/-- The meaning of NOP (R151). -/
def execNop (s : State) : Host.Outcome State Fault Refusal := .next (complete .ok 0x0#4 s)

/-- The meaning of RESET (R152): it begins the reset pulse, in every PSTATE. -/
def execReset (s : State) : Host.Outcome State Fault Refusal :=
  .next (startOp .reset (single .resetPulse) [] s)

/-- The meaning of INIT (R153): it begins its sequence, in every PSTATE. -/
def execInit (s : State) : Host.Outcome State Fault Refusal :=
  .next (startOp .init (single .resetPulse) (initRest s.cfg) s)

/-- The meaning of CLEAR (R155, R158): ERR_STATE with no wire event unless Ready. -/
def execClear (s : State) : Host.Outcome State Fault Refusal :=
  .next (if s.pstate = .ready then startOp .clear (single .startTransmission) clearRest s
    else complete .state 0x3#4 s)

/-- The meaning of DISPLAY (R156, R158): ERR_STATE with no wire event unless Ready. -/
def execDisplay (s : State) : Host.Outcome State Fault Refusal :=
  .next (if s.pstate = .ready then startOp .display (single .startTransmission) displayRest s
    else complete .state 0x4#4 s)

/-- The meaning of SLEEP (R157, R158): ERR_STATE with no wire event unless Ready. -/
def execSleep (s : State) : Host.Outcome State Fault Refusal :=
  .next (if s.pstate = .ready then startOp .sleep (single .powerOff) sleepRest s
    else complete .state 0x5#4 s)

/-- RESET's end (R152): PSTATE becomes Uninitialized. -/
def finishReset (s : State) : State := complete .ok 0x1#4 { s with pstate := .uninitialized }

/-- INIT's end (R153): PSTATE becomes Ready. -/
def finishInit (s : State) : State := complete .ok 0x2#4 { s with pstate := .ready }

/-- CLEAR's end (R155): PSTATE and the canvas stay. -/
def finishClear (s : State) : State := complete .ok 0x3#4 s

/-- DISPLAY's end (R156): PSTATE and the canvas stay. -/
def finishDisplay (s : State) : State := complete .ok 0x4#4 s

/-- SLEEP's end (R157): PSTATE becomes Sleeping. -/
def finishSleep (s : State) : State := complete .ok 0x5#4 { s with pstate := .sleeping }

/-- The end of an operation whose last step is done. -/
def finishOp (op : RunOp) (s : State) : State :=
  match op with
  | .reset => finishReset s
  | .init => finishInit s
  | .clear => finishClear s
  | .display => finishDisplay s
  | .sleep => finishSleep s

end Sys2Proof.Machine
end

