-- ==== Sys2Proof/Machine/Sequencer.lean ====
section
/-! DEFINITION. The wire primitives, one primitive a step (spec/41_wire_primitives.md R120 to R128,
spec/10_state.md R21): the byte frame, the reset pulse, delays and wait-until-idle. -/

namespace Sys2Proof.Machine

/-- The current step is done: the next one of the sequence, or the operation's end (R21). -/
def nextStage (p : Pos) (s : State) : State :=
  match p.rest with
  | [] => finishOp p.op s
  | st :: rest => goTo (enterStage p.op st rest) s

/-- Delay (R123): it starts with its trace event; each later step is one tick; it ends, never before its
duration, and then `after` follows. Pins keep their levels. That the event stands at the delay's
start, so that a delay which block reset abandons has left one, is the model's choice: R56, R123 and
R251 do not say (DESIGN CHOICE, notes/assumptions/5.md). -/
def delayStep (n : DelayName) (after : State → State) (s : State) : State :=
  match s.delay with
  | none =>
    emit (.delay n (delayTicks s.cfg n))
      { s with env := s.env.drawLate.2, delay := some ⟨n, 0, s.env.drawLate.1⟩ }
  | some d =>
    if d.elapsed < delayTicks s.cfg n + d.late then
      { s with delay := some { d with elapsed := d.elapsed + 1 } }
    else after { s with delay := none }

/-- ResetPulse's pin writes and the two delays between them (R122). -/
def pulsePin (v : Bit) (phase : Phase) (next : Prim) (p : Pos) (s : State) : State :=
  goTo { p with phase := phase, next := next } (setPin .rstN v s)

/-- After a reset-pulse delay, back to the PIN phase (R122). -/
def afterPulseDelay (next : Prim) (p : Pos) (s : State) : State :=
  goTo { p with phase := .pin, next := next } s

/-- SendByte's `SetPin(DC, dc)` (R120). -/
def sendDc (p : Pos) (s : State) : State :=
  goTo { p with next := .csLow } (setPin .dc p.phase.dcLevel s)

/-- SendByte's `SetPin(CS_N, 0)` (R120). -/
def sendCsLow (p : Pos) (s : State) : State := goTo { p with next := .xfer } (setPin .csN 0#1 s)

/-- SendByte's `Xfer(b)` (R13, R120): the byte is handed over, then the transport answers; the received
byte is discarded (R127). -/
def sendXfer (p : Pos) (s : State) : State :=
  match s.inFlight with
  | none =>
    { s with
      env := s.env.drawAnswer.2
      inFlight := some ⟨byteAt s.cfg s.canvas p, s.env.drawAnswer.1.wait, s.env.drawAnswer.1.ok,
        s.env.drawAnswer.1.rx⟩ }
  | some f =>
    if f.wait = 0 then
      goTo { p with next := .csHigh f.ok } (emit (.xfer f.byte f.ok) { s with inFlight := none })
    else { s with inFlight := some { f with wait := f.wait - 1 } }

/-- After a framed byte that went through: the step's next data byte, or the next step (R121, R155,
R156). -/
def nextByte (p : Pos) (s : State) : State :=
  if p.phase = .cmd then
    if 0 < dataLen s.cfg p.step p.sub then
      goTo { p with phase := .data, idx := 0#32, next := .setDc } s
    else nextStage p s
  else if p.idx.toNat + 1 < dataLen s.cfg p.step p.sub then
    goTo { p with idx := p.idx + 1#32, next := .setDc } s
  else nextStage p s

/-- SendByte's `SetPin(CS_N, 1)` and its error check: CS_N is raised before the error is taken (R120,
R223). -/
def sendCsHigh (ok : Bool) (p : Pos) (s : State) : State :=
  if ok then nextByte p (setPin .csN 1#1 s)
  else raiseError .transport p.step p.sub p.phase.dcLevel p.idx p.op.code (setPin .csN 1#1 s)

/-- One round of WaitUntilIdle's loop up to its delay (R124). -/
def pollBusy (p : Pos) (s : State) : State :=
  let s' := emit (.sample s.env.drawLevel.1) { s with env := s.env.drawLevel.2 }
  if s.env.drawLevel.1 = s.cfg.busyIdleLevel then
    nextStage { p with polls := countPoll p.polls } s'
  else if timedOut s.cfg (countPoll p.polls) then
    raiseError .unresponsive p.step 0#8 0#1 (countPoll p.polls) p.op.code s'
  else goTo { p with polls := countPoll p.polls, next := .pollDelay } s'

/-- One primitive of the operation in progress (R14, R21). -/
def seqStep (p : Pos) (s : State) : State :=
  match p.next with
  | .rstHigh => pulsePin 1#1 .delay .rstHighSettle p s
  | .rstHighSettle => delayStep .rstHigh (afterPulseDelay .rstLow p) s
  | .rstLow => pulsePin 0#1 .delay .rstLowSettle p s
  | .rstLowSettle => delayStep .rstLow (afterPulseDelay .rstHighAgain p) s
  | .rstHighAgain => nextStage p (setPin .rstN 1#1 s)
  | .setDc => sendDc p s
  | .csLow => sendCsLow p s
  | .xfer => sendXfer p s
  | .csHigh ok => sendCsHigh ok p s
  | .refreshSettle => delayStep .refreshSettle (nextStage p) s
  | .sample => pollBusy p s
  | .pollDelay => delayStep .poll (goTo { p with next := .sample }) s

end Sys2Proof.Machine
end

