-- ==== Sys2Proof/Machine/Dispatch.lean ====
section
/-! DEFINITION. Which meaning each operation has (spec/30_encoding.md R72). -/

namespace Sys2Proof.Machine

def exec (i : Instr) (s : State) : Host.Outcome State Fault Refusal :=
  match i with
  | .nop => Sys2Proof.Machine.execNop s
  | .reset => Sys2Proof.Machine.execReset s
  | .init => Sys2Proof.Machine.execInit s
  | .clear => Sys2Proof.Machine.execClear s
  | .display => Sys2Proof.Machine.execDisplay s
  | .sleep => Sys2Proof.Machine.execSleep s
  | .cclr => Sys2Proof.Machine.execCclr s
  | .pset x y v => Sys2Proof.Machine.execPset x y v s
  | .pkrd a => Sys2Proof.Machine.execPkrd a s

end Sys2Proof.Machine
end

