-- ==== Sys2Proof/Machine/Step.lean ====
section
/-! DEFINITION. One step of EPDSEQ: block reset, one primitive of the operation in progress, or the
acceptance of a command word (spec/10_state.md R21, R36, spec/42_protocol_ops.md R150,
spec/70_reset_and_hazards.md R251). -/

namespace Sys2Proof.Machine

/-- `OnAccept(w)` (R150); the state check of CLEAR, DISPLAY and SLEEP stands in their meanings. -/
def onAccept (w : Word) (s : State) : Host.Outcome State Fault Refusal :=
  match decode w with
  | .error _ => .next (completeIllegal w (acceptWord s))
  | .ok i => exec i (acceptWord s)

/-- The block out of reset, its inputs already moved on: idle, it accepts the word at the port or waits
for one (R36, R252); busy, it performs one primitive (R21). -/
def runStep (s : State) : Host.Outcome State Fault Refusal :=
  match s.busy, s.pc with
  | true, .run p => .next (seqStep p s)
  | false, .idle =>
    match s.cmdQueue with
    | [] => .next s
    | none :: q => .next { s with cmdQueue := q }
    | some w :: _ => onAccept w s
  | true, .idle => .fault .busyAgainstPc
  | false, .run _ => .fault .busyAgainstPc

/-- One step: `rst`, when asserted, wins at any point (R251). -/
def step (s : State) : Host.Outcome State Fault Refusal :=
  if rstAsserted s then .next (blockReset (nextInputs s)) else runStep (nextInputs s)

/-- The state in which the very next step accepts the word with the low `nbits` bits of `w`: it is the
word at the command port, the block is idle and `rst` is low at that step. -/
def State.withFetchWord (s : State) (nbits w : Nat) : State :=
  { s with
    cmdQueue := some (BitVec.ofNat 32 (w % 2 ^ nbits)) :: s.cmdQueue
    busy := false
    pc := .idle
    delay := none
    inFlight := none
    rstIn := if rstAsserted s then false :: s.rstIn.tail else s.rstIn }

end Sys2Proof.Machine
end

