-- ==== Sys2Proof/Machine/Trace.lean ====
section
/-! DEFINITION. The operations as the spec's pseudocode writes them: each runs from its first primitive to
its end in one go, over the environment's draws (spec/41_wire_primitives.md R120 to R125,
spec/42_protocol_ops.md R152 to R157). The machine takes the same primitives one step at a time; this
file shares with it the packer, the configuration and the poll counter, not the sequencer. -/

namespace Sys2Proof.Machine

/-- What a run of primitives has left of the draws, and the wire events it has performed. -/
structure Script where
  oks : List Bool
  levels : List Bit
  trace : List Event
  deriving DecidableEq, Repr

/-- Why a run of primitives does not go on: the listed draws are used up (nothing is claimed then), or
`raise Error(code, step, sub, phase, idx)` (R226). -/
inductive Halt where
  | noMoreDraws
  | error (code : ErrCode) (step : StepId) (sub : Byte) (phase : Bit) (idx : Word)
  deriving DecidableEq, Repr

/-- A piece of pseudocode. -/
abbrev Piece := Script → Script × Option Halt

/-- Nothing. -/
def Piece.skip : Piece := fun r => (r, none)

/-- One piece and then, unless it halts, the other (R14). -/
def Piece.andThen (a b : Piece) : Piece := fun r =>
  match a r with
  | (r', none) => b r'
  | (r', some h) => (r', some h)

/-- Pieces in order (R14). -/
def Piece.inOrder : List Piece → Piece
  | [] => Piece.skip
  | a :: as => a.andThen (Piece.inOrder as)

/-- Events that draw nothing. -/
def Piece.events (es : List Event) : Piece := fun r => ({ r with trace := r.trace ++ es }, none)

/-- `SendByte(dc, b, step, sub, idx)` (R120). -/
def Piece.sendByte (dc : Bit) (b : Byte) (step : StepId) (sub : Byte) (idx : Word) : Piece := fun r =>
  match r.oks with
  | [] => (r, some .noMoreDraws)
  | ok :: oks =>
    ({ r with
        oks := oks
        trace := r.trace ++ [.pin .dc dc, .pin .csN 0#1, .xfer b ok, .pin .csN 1#1] },
      if ok then none else some (.error .transport step sub dc idx))

/-- Data bytes in order, the first with index `i` (R121, R155, R156). -/
def Piece.sendData (step : StepId) (sub : Byte) : Nat → List Byte → Piece
  | _, [] => Piece.skip
  | i, b :: bs =>
    (Piece.sendByte 1#1 b step sub (BitVec.ofNat 32 i)).andThen (Piece.sendData step sub (i + 1) bs)

/-- `SendEntry(e, step, sub)` (R121). -/
def Piece.sendEntry (e : Entry) (step : StepId) (sub : Byte) : Piece :=
  (Piece.sendByte 0#1 e.op step sub 0#32).andThen (Piece.sendData step sub 0 e.data)

/-- SendEntry for each entry of a list, sub-index rising from `k` (R153). -/
def Piece.sendEntries (step : StepId) : Nat → List Entry → Piece
  | _, [] => Piece.skip
  | k, e :: es =>
    (Piece.sendEntry e step (BitVec.ofNat 8 k)).andThen (Piece.sendEntries step (k + 1) es)

/-- `ResetPulse()` (R122). -/
def Piece.resetPulse (cfg : Panel) : Piece :=
  Piece.events [.pin .rstN 1#1, .delay .rstHigh cfg.tRstHigh, .pin .rstN 0#1,
    .delay .rstLow cfg.tRstLow, .pin .rstN 1#1]

/-- WaitUntilIdle's loop (R124) over the coming BUSY levels, `polls` samples already taken: what is left
of the levels, the events, and how it ends. -/
def pollLoop (cfg : Panel) (step : StepId) : Word → List Bit → List Bit × List Event × Option Halt
  | _, [] => ([], [], some .noMoreDraws)
  | polls, l :: ls =>
    if l = cfg.busyIdleLevel then (ls, [.sample l], none)
    else if timedOut cfg (countPoll polls) then
      (ls, [.sample l], some (.error .unresponsive step 0#8 0#1 (countPoll polls)))
    else
      let rest := pollLoop cfg step (countPoll polls) ls
      (rest.1, .sample l :: .delay .poll cfg.tPoll :: rest.2.1, rest.2.2)

/-- `WaitUntilIdle(step)` (R124). -/
def Piece.waitUntilIdle (cfg : Panel) (step : StepId) : Piece := fun r =>
  let w := pollLoop cfg step 0#32 r.levels
  ({ r with levels := w.1, trace := r.trace ++ w.2.1 }, w.2.2)

/-- `TurnOnDisplay()` (R125). -/
def Piece.turnOnDisplay (cfg : Panel) : Piece :=
  Piece.inOrder
    [Piece.sendEntry (cfg.ent .displayRefresh) .displayRefresh 0#8,
      Piece.events [.delay .refreshSettle cfg.tRefreshSettle],
      Piece.waitUntilIdle cfg .waitRefresh]

/-- `INIT()` (R153). -/
def Piece.init (cfg : Panel) : Piece :=
  Piece.inOrder
    [Piece.resetPulse cfg,
      Piece.sendEntry (cfg.ent .powerSetting) .powerSetting 0#8,
      Piece.sendEntry (cfg.ent .boosterSoftStart) .boosterSoftStart 0#8,
      Piece.sendEntries .powerOptimization 0 cfg.powopt,
      Piece.sendEntry (cfg.ent .partialRefreshDisable) .partialRefreshDisable 0#8,
      Piece.sendEntry (cfg.ent .powerOn) .powerOn 0#8,
      Piece.waitUntilIdle cfg .waitPowerOn,
      Piece.sendEntry (cfg.ent .panelSetting) .panelSetting 0#8,
      Piece.sendEntry (cfg.ent .pllControl) .pllControl 0#8,
      Piece.sendEntry (cfg.ent .vcomDcSetting) .vcomDcSetting 0#8,
      Piece.sendEntries .lut 0 cfg.lut]

/-- The data load of CLEAR and DISPLAY: the start-transmission command and the frame (R155, R156). -/
def Piece.dataLoad (cfg : Panel) (frame : List Byte) : Piece :=
  (Piece.sendByte 0#1 (cfg.ent .startTransmission).op .startTransmission 0#8 0#32).andThen
    (Piece.sendData .startTransmission 0#8 0 frame)

/-- `CLEAR()` (R155). -/
def Piece.clear (cfg : Panel) : Piece :=
  Piece.inOrder [Piece.dataLoad cfg (List.replicate cfg.nbytes 0xFF#8), Piece.turnOnDisplay cfg]

/-- `DISPLAY()` (R156). -/
def Piece.display (cfg : Panel) (canvas : Memory) : Piece :=
  Piece.inOrder [Piece.dataLoad cfg (pack cfg canvas), Piece.turnOnDisplay cfg]

/-- `SLEEP()` (R157). -/
def Piece.sleep (cfg : Panel) : Piece :=
  Piece.inOrder
    [Piece.sendEntry (cfg.ent .powerOff) .powerOff 0#8,
      Piece.waitUntilIdle cfg .waitPowerOff,
      Piece.sendEntry (cfg.ent .deepSleep) .deepSleep 0#8]

/-- The pseudocode of an operation that the sequencer runs. -/
def pseudocode (cfg : Panel) (canvas : Memory) : RunOp → Piece
  | .reset => Piece.resetPulse cfg
  | .init => Piece.init cfg
  | .clear => Piece.clear cfg
  | .display => Piece.display cfg canvas
  | .sleep => Piece.sleep cfg

/-- PSTATE after an operation that succeeds from PSTATE `was` (R158). -/
def pstateAfter (was : PState) : RunOp → PState
  | .reset => .uninitialized
  | .init => .ready
  | .clear => was
  | .display => was
  | .sleep => .sleeping

/-- The operation as an instruction. -/
def RunOp.instr : RunOp → Instr
  | .reset => .reset
  | .init => .init
  | .clear => .clear
  | .display => .display
  | .sleep => .sleep

/-- The level of a pin after some events, from the level before them. -/
def pinAfter (p : Pin) (level : Bit) (es : List Event) : Bit :=
  es.foldl (fun l e => match e with
    | .pin q v => if q = p then v else l
    | .xfer _ _ => l
    | .delay _ _ => l
    | .sample _ => l) level

/-- `C(b)` of spec/95_test_vectors.md section 0: a command byte that went through. -/
def cmdFrame (b : Byte) : List Event :=
  [.pin .dc 0#1, .pin .csN 0#1, .xfer b true, .pin .csN 1#1]

/-- `D(b)`: a data byte that went through. -/
def dataFrame (b : Byte) : List Event :=
  [.pin .dc 1#1, .pin .csN 0#1, .xfer b true, .pin .csN 1#1]

/-- The events of an entry that went through (R121). -/
def entryFrames (e : Entry) : List Event := cmdFrame e.op ++ e.data.flatMap dataFrame

/-- `RP`: the reset pulse (R122). -/
def resetPulseEvents (cfg : Panel) : List Event :=
  [.pin .rstN 1#1, .delay .rstHigh cfg.tRstHigh, .pin .rstN 0#1, .delay .rstLow cfg.tRstLow,
    .pin .rstN 1#1]

/-- A wait that reads `k` busy levels and then the idle level (R124). -/
def waitEvents (cfg : Panel) (k : Nat) : List Event :=
  (List.replicate k [Event.sample (~~~cfg.busyIdleLevel), Event.delay .poll cfg.tPoll]).flatten
    ++ [.sample cfg.busyIdleLevel]

/-- The trace of an INIT that goes through, its wait reading `k` busy levels (R153). -/
def initEvents (cfg : Panel) (k : Nat) : List Event :=
  resetPulseEvents cfg
    ++ entryFrames cfg.powerSetting ++ entryFrames cfg.boosterSoftStart
    ++ cfg.powopt.flatMap entryFrames
    ++ entryFrames cfg.partialRefreshDisable ++ cmdFrame cfg.powerOn.op
    ++ waitEvents cfg k
    ++ entryFrames cfg.panelSetting ++ entryFrames cfg.pllControl ++ entryFrames cfg.vcomDcSetting
    ++ cfg.lut.flatMap entryFrames

/-- The trace of a CLEAR or DISPLAY that goes through (R155, R156). -/
def frameEvents (cfg : Panel) (frame : List Byte) (k : Nat) : List Event :=
  cmdFrame cfg.startTransmission.op ++ frame.flatMap dataFrame
    ++ entryFrames cfg.displayRefresh ++ [.delay .refreshSettle cfg.tRefreshSettle]
    ++ waitEvents cfg k

/-- The trace of a SLEEP that goes through (R157). -/
def sleepEvents (cfg : Panel) (k : Nat) : List Event :=
  entryFrames cfg.powerOff ++ waitEvents cfg k ++ entryFrames cfg.deepSleep

/-- How many bytes a trace hands to the transport. -/
def countXfers (es : List Event) : Nat :=
  (es.filter fun e => match e with
    | .xfer _ _ => true
    | .pin _ _ => false
    | .delay _ _ => false
    | .sample _ => false).length

end Sys2Proof.Machine
end

