-- ==== Sys2Proof/Safety.lean ====
section
/-! DEFINITION. The terms in which claims are stated: reaching a state, a position that belongs to the
operation's sequence, the coherent states, and the machine after block reset. -/

namespace Sys2Proof.Machine

/-- The machine gets from `s` to `t` in some number of steps. -/
def Reaches (s t : State) : Prop := ∃ n, Host.Core.run Sys2Proof.core n s = .next t

/-- The four kinds of step (R26): the reset pulse, a table entry or frame, the settle delay, a wait. -/
inductive StepKind where
  | pulse | entry | settle | wait
  deriving DecidableEq, Repr

/-- The kind of a step (R26); NONE is no step. -/
def StepId.kind : StepId → Option StepKind
  | .noStep => none
  | .resetPulse => some .pulse
  | .refreshSettle => some .settle
  | .waitPowerOn | .waitRefresh | .waitPowerOff => some .wait
  | .powerSetting | .boosterSoftStart | .powerOptimization | .partialRefreshDisable | .powerOn
  | .panelSetting | .pllControl | .vcomDcSetting | .lut | .startTransmission | .displayRefresh
  | .powerOff | .deepSleep => some .entry

/-- Phase and next primitive belong together inside the reset pulse (R122). -/
def pulseLegal (ph : Phase) : Prim → Bool
  | .rstHigh | .rstLow | .rstHighAgain => ph == .pin
  | .rstHighSettle | .rstLowSettle => ph == .delay
  | .setDc | .csLow | .xfer | .csHigh _ | .refreshSettle | .sample | .pollDelay => false

/-- The primitive is one of SendByte's (R120). -/
def Prim.ofByte : Prim → Bool
  | .setDc | .csLow | .xfer | .csHigh _ => true
  | .rstHigh | .rstHighSettle | .rstLow | .rstLowSettle | .rstHighAgain | .refreshSettle
  | .sample | .pollDelay => false

/-- A position at which an operation can be: the current step and those that follow are the end of the
operation's sequence, and phase, index, poll count and primitive fit the step (R21). -/
def Pos.legal (cfg : Panel) (p : Pos) : Bool :=
  decide ((⟨p.step, p.sub⟩ :: p.rest) <:+ plan cfg p.op)
    && match p.step.kind with
      | none => false
      | some .pulse => p.idx == 0#32 && pulseLegal p.phase p.next
      | some .entry =>
        p.next.ofByte
          && ((p.phase == .cmd && p.idx == 0#32)
            || (p.phase == .data && decide (p.idx.toNat < dataLen cfg p.step p.sub)))
      | some .settle => p.idx == 0#32 && p.phase == .delay && p.next == .refreshSettle
      | some .wait =>
        p.idx == 0#32 && p.phase == .wait && (p.next == .sample || p.next == .pollDelay)
          && !timedOut cfg p.polls

/-- The name of the delay that a primitive runs. -/
def Prim.delayName : Prim → Option DelayName
  | .rstHighSettle => some .rstHigh
  | .rstLowSettle => some .rstLow
  | .refreshSettle => some .refreshSettle
  | .pollDelay => some .poll
  | .rstHigh | .rstLow | .rstHighAgain | .setDc | .csLow | .xfer | .csHigh _ | .sample => none

/-- The delay timer and the transfer in flight belong to the primitive being performed (R33). -/
def waitingLegal (s : State) : Bool :=
  match s.pc with
  | .idle => s.delay.isNone && s.inFlight.isNone
  | .run p =>
    (match s.delay with
      | none => true
      | some d => p.next.delayName == some d.name
          && decide (d.elapsed ≤ delayTicks s.cfg d.name + d.late))
      && (s.inFlight.isNone || p.next == .xfer)

/-- The pins at a position: DC holds its value from before CS_N falls until after it rises, CS_N is 0
exactly while a byte is exchanged, and CS_N is 1 in the settle delay and in every wait (R120, R126,
R226); RST_N is 1 outside the reset pulse (R122, R226). -/
def pinsLegal (s : State) : Bool :=
  match s.pc with
  | .idle => s.pstate == .uninitialized || (s.rstN == 1#1 && s.csN == 1#1)
  | .run p =>
    (match p.next with
      | .csLow => s.dc == p.phase.dcLevel
      | .xfer => s.dc == p.phase.dcLevel && s.csN == 0#1
      | .csHigh _ => s.dc == p.phase.dcLevel && s.csN == 0#1
      | .refreshSettle | .sample | .pollDelay => s.csN == 1#1
      | .rstHigh | .rstHighSettle | .rstLow | .rstLowSettle | .rstHighAgain | .setDc => true)
      && (p.step == .resetPulse || s.rstN == 1#1)

/-- CLEAR, DISPLAY and SLEEP run only in Ready (R158). -/
def pstateLegal (s : State) : Bool :=
  match s.pc with
  | .idle => true
  | .run p => match p.op with
    | .reset | .init => true
    | .clear | .display | .sleep => s.pstate == .ready

/-- ERRSTEP and ERRBYTE are 0 unless the last result is TRANSPORT or UNRESPONSIVE (R30, R31). -/
def contextLegal (s : State) : Bool :=
  s.err == .transport || s.err == .unresponsive || (s.errStep == 0#32 && s.errByte == 0#32)

/-- `pc` is a position. -/
def Pc.isRun : Pc → Bool
  | .idle => false
  | .run _ => true

/-- The position, if there is one, is legal. -/
def Pc.legal (cfg : Panel) : Pc → Bool
  | .idle => true
  | .run p => p.legal cfg

/-- The coherent states: those in which the machine's fields agree with one another. Block reset is
coherent and every step keeps it, so every state a run reaches is coherent. -/
structure Coherent (s : State) : Prop where
  /-- BUSY = 1 exactly when `pc` is not IDLE (R21). -/
  busy_pc : s.busy = s.pc.isRun
  /-- `pc` is a place of the operation's sequence (R21). -/
  pc_legal : s.pc.legal s.cfg = true
  /-- The canvas is in canonical form. -/
  canvas_wf : s.canvas.wf = true
  /-- The canvas has `W * H` cells and no more (R28). -/
  canvas_within : s.canvas.within (s.cfg.width * s.cfg.height) = true
  /-- RESULT[31:8] read 0 (R29). -/
  result_reserved : s.result.extractLsb' 8 24 = 0#24
  /-- ERRSTEP[31:17] read 0 (R30). -/
  errStep_reserved : s.errStep.extractLsb' 17 15 = 0#15
  /-- The error context is 0 when there is none (R30, R31). -/
  context : contextLegal s = true
  /-- A delay or a transfer is under way only at its own primitive (R33). -/
  waiting : waitingLegal s = true
  /-- The pin levels at each place (R120, R122, R126). -/
  pins : pinsLegal s = true
  /-- The state discipline (R158). -/
  ready : pstateLegal s = true

/-- The result registers and PSTATE, which change together (R35). -/
def resultRegs (s : State) : PState × ErrCode × BitVec 4 × Word × Word × Word :=
  (s.pstate, s.err, s.lastOp, s.result, s.errStep, s.errByte)

/-- The block is out of reset, idle, and nothing is under way: the next word can be accepted (R36). -/
def idleQuiet (s : State) : Bool :=
  !s.busy && s.pc == .idle && s.delay.isNone && s.inFlight.isNone && s.rstIn.isEmpty

end Sys2Proof.Machine
end

