-- ==== Sys2Proof/Certificates/Slice0/Obligations.lean ====
section
/-! DEFINITION. The statements for the provers. Each formalises a rule of spec/ or rests on the rules its
docstring names; OBLIGATIONS.json lists them. -/

namespace Sys2Proof.Machine

/-- A word of format N: the encoding of `i` is OP alone, and any other word with this OP is illegal
(R71, R75). -/
def formatNOnly (op : BitVec 4) (i : Instr) : Prop :=
  encode i = 0#28 ++ op ∧ decode (encode i) = .ok i ∧
  ∀ w : Word, opField w = op → w.extractLsb' 4 28 ≠ 0#28 → ∃ e, decode w = .error e

/-- The illegal words in the words of R75 and R76. -/
def illegalWord (w : Word) : Bool :=
  if opField w ≤ 0x6#4 then w.extractLsb' 4 28 != 0#28
  else if opField w = 0x7#4 then w.extractLsb' 5 3 != 0#3
  else if opField w = 0x8#4 then w.extractLsb' 4 4 != 0#4
  else true

/-- The environment lets an operation through: its next `bytes` transfers are answered ok, its wait reads
`busy` busy levels and then the idle level, and no timeout comes first (R224, R232, R233). -/
def goesThrough (s : State) (bytes busy : Nat) : Prop :=
  bytes ≤ s.env.answers.length ∧ (∀ a ∈ s.env.answers.take bytes, a.ok = true) ∧
  (∀ l ∈ s.env.levels.take busy, l ≠ s.cfg.busyIdleLevel) ∧
  s.env.levels[busy]? = some s.cfg.busyIdleLevel ∧
  (∀ n, s.cfg.busyTimeoutPolls = some n → busy < n)

/-- `s` after an operation that has ended: the completion fields (R225, R226), PSTATE, the pins and the
wire are as given; every other field of the block is as in `s`. -/
def endState (s : State) (ps : PState) (err : ErrCode) (op : BitVec 4) (errStep errByte : Word)
    (dc csN rstN : Bit) (es : List Event) (env : Env) : State :=
  { s with
    pstate := ps
    busy := false
    err := err
    lastOp := op
    errStep := errStep
    errByte := errByte
    dc := dc
    csN := csN
    rstN := rstN
    pc := .idle
    delay := none
    inFlight := none
    done := true
    wire := s.wire ++ es
    env := env }

/-- `s` after the operation `op` has performed the events `es` and then completed or aborted (R225,
R226); the pins hold their last levels. -/
def haltState (s : State) (op : RunOp) (es : List Event) (env : Env) : Option Halt → State
  | none => endState s (pstateAfter s.pstate op) .ok op.code 0#32 0#32 (pinAfter .dc s.dc es)
      (pinAfter .csN s.csN es) (pinAfter .rstN s.rstN es) es env
  | some (.error c st sub ph idx) => endState s .uninitialized c op.code
      (errStepWord ph sub st.code) idx (pinAfter .dc s.dc es) (pinAfter .csN s.csN es)
      (pinAfter .rstN s.rstN es) es env
  | some .noMoreDraws => s

/-- The operation needs Ready (R158). -/
def RunOp.needsReady : RunOp → Bool
  | .reset | .init => false
  | .clear | .display | .sleep => true

/-- The DC level after an entry has been sent: 1 when it has data bytes, else 0 (R153, R155). -/
def dcAfterEntry (e : Entry) : Bit := if e.data.isEmpty then 0#1 else 1#1

/-- The framed bytes of INIT: `1 + length(data)` for the seven single entries, the power-optimization
entries and the LUT entries (R153). -/
def initBytes (cfg : Panel) : Nat :=
  (([cfg.powerSetting, cfg.boosterSoftStart, cfg.partialRefreshDisable, cfg.powerOn,
    cfg.panelSetting, cfg.pllControl, cfg.vcomDcSetting] ++ cfg.powopt ++ cfg.lut).map
      fun e => 1 + e.data.length).sum

/-- The framed bytes of CLEAR and DISPLAY (R155, R156). -/
def frameBytes (cfg : Panel) : Nat := 1 + cfg.nbytes + (1 + cfg.displayRefresh.data.length)

/-- The framed bytes of SLEEP (R157). -/
def sleepBytes (cfg : Panel) : Nat := (1 + cfg.powerOff.data.length) + (1 + cfg.deepSleep.data.length)

/-- Only samples of the busy level and poll delays (R124). -/
def onlyBusyPolls (cfg : Panel) (es : List Event) : Prop :=
  ∀ e ∈ es, e = .sample (~~~cfg.busyIdleLevel) ∨ e = .delay .poll cfg.tPoll

/-- The bytes a trace hands to the transport, with their answers (R161). -/
def xfersOf (es : List Event) : List (Byte × Bool) :=
  es.filterMap fun e => match e with
    | .xfer b ok => some (b, ok)
    | .pin _ _ => none
    | .delay _ _ => none
    | .sample _ => none

/-- The clauses of R9. That opcodes and data bytes are in `0..255` is their type. -/
def configRules (p : Panel) : Prop :=
  (1 ≤ p.width ∧ p.width ≤ 4096) ∧ (1 ≤ p.height ∧ p.height ≤ 4096) ∧
  p.powerOn.data = [] ∧ p.deepSleep.data.length = 1 ∧ p.startTransmission.data = [] ∧
  p.lut.length = 5 ∧ p.powopt.length ≤ 256 ∧
  (∀ n, (p.ent n).data.length < 2 ^ 32) ∧ (∀ e ∈ p.powopt ++ p.lut, e.data.length < 2 ^ 32) ∧
  (∀ n, p.busyTimeoutPolls = some n → 1 ≤ n ∧ n ≤ 2 ^ 32 - 1)

/-- `s` with every received byte replaced by 0 (R127). -/
def eraseReceived (s : State) : State :=
  { s with
    inFlight := s.inFlight.map fun f => { f with rx := 0#8 }
    env := { s.env with answers := s.env.answers.map fun a => { a with rx := 0#8 } } }

end Sys2Proof.Machine

open Sys2Proof Sys2Proof.Machine

/-! ### Encoding -/

/-- R78's vectors of spec/95_test_vectors.md section 2.1, written out from R71. -/
def Obligations.DecodeWrittenWords : Prop :=
  decode 0x00000000#32 = .ok .nop ∧ decode 0x00000001#32 = .ok .reset ∧
  decode 0x00000002#32 = .ok .init ∧ decode 0x00000003#32 = .ok .clear ∧
  decode 0x00000004#32 = .ok .display ∧ decode 0x00000005#32 = .ok .sleep ∧
  decode 0x00000006#32 = .ok .cclr ∧ decode 0x00100307#32 = .ok (.pset 3 1 0) ∧
  decode 0xFFFFFF17#32 = .ok (.pset 4095 4095 1) ∧ decode 0x00000108#32 = .ok (.pkrd 1) ∧
  decode 0xFFFFFF08#32 = .ok (.pkrd 0xFFFFFF) ∧
  decode 0x00000010#32 = .error .reservedBits ∧ decode 0x80000003#32 = .error .reservedBits ∧
  decode 0x00000009#32 = .error .reservedOpcode ∧ decode 0xFFFFFFFF#32 = .error .reservedOpcode ∧
  decode 0x00000027#32 = .error .reservedBits ∧ decode 0x00000118#32 = .error .reservedBits

/-- Decoding an encoded operation gives it back, for every operand (R71, R73, R74, R78). -/
def Obligations.DecodeOfEncode : Prop := ∀ i : Instr, decode (encode i) = .ok i

/-- A word that decodes is the encoding of what it decodes to: no legal word has a second meaning or an
ignored bit (R75, R78). -/
def Obligations.EncodeOfDecode : Prop := ∀ (w : Word) (i : Instr), decode w = .ok i → encode i = w

/-- The decoder refuses exactly the words R75 and R76 call illegal. -/
def Obligations.DecodeRefusesExactlyIllegalWords : Prop :=
  ∀ w : Word, (∃ e, decode w = .error e) ↔ illegalWord w = true

/-- R77: every word is exactly one of the nine operations, or illegal; by the opcode table's rows, a
decoded word matches one row, that of its operation, and an illegal word none. -/
def Obligations.EveryWordIsOneOperationOrIllegal : Prop :=
  ∀ w : Word,
    (∃ i r, decode w = .ok i ∧ opcodeTable.filter (fun r => r.matchesWord w) = [r] ∧
      r.opcode = i.opcode) ∨
    ((∃ e, decode w = .error e) ∧ opcodeTable.filter (fun r => r.matchesWord w) = [])

/-- R79, R80: the assembler emits the encoding of what a line says, and refuses `x` or `y` above 4095,
`a` above `2^24-1` and `v` other than 0 or 1. -/
def Obligations.AssemblerEmitsEncodings : Prop :=
  (∀ x y v, x ≤ 4095 → y ≤ 4095 → v ≤ 1 →
    assembleLine (.pset x y v)
      = some (encode (.pset (BitVec.ofNat 12 x) (BitVec.ofNat 12 y) (BitVec.ofNat 1 v)))) ∧
  (∀ x y, x ≤ 4095 → y ≤ 4095 →
    assembleLine (.pblack x y) = assembleLine (.pset x y 0) ∧
    assembleLine (.pwhite x y) = assembleLine (.pset x y 1)) ∧
  (∀ a, a ≤ 2 ^ 24 - 1 → assembleLine (.pkrd a) = some (encode (.pkrd (BitVec.ofNat 24 a)))) ∧
  (∀ x y v, x > 4095 ∨ y > 4095 ∨ v > 1 → assembleLine (.pset x y v) = none) ∧
  (∀ x y, x > 4095 ∨ y > 4095 → assembleLine (.pblack x y) = none ∧ assembleLine (.pwhite x y) = none) ∧
  (∀ a, a > 2 ^ 24 - 1 → assembleLine (.pkrd a) = none) ∧
  assembleLine .nop = some (encode .nop) ∧ assembleLine .reset = some (encode .reset) ∧
  assembleLine .init = some (encode .init) ∧ assembleLine .clear = some (encode .clear) ∧
  assembleLine .display = some (encode .display) ∧ assembleLine .sleep = some (encode .sleep) ∧
  assembleLine .cclr = some (encode .cclr) ∧
  (∀ w : Word, assembleLine (.word w.toNat) = some w)

/-! ### Reset, acceptance, and the step -/

/-- R250, R251: a step with `rst` asserted, whatever is in progress, gives every field of the block its
reset value, and performs no transfer, no delay and no sample. What it leaves alone is the model's
choice: the wire record gains no event, neither for the pin levels (notes/assumptions/9.md) nor for
an abandoned transfer (4.md) or delay, whose event stood at its start (5.md); the host's words, the
environment and the configuration stay (8.md). -/
def Obligations.BlockResetAtAnyPoint : Prop :=
  ∀ s : State, rstAsserted s = true →
    ∃ t, step s = .next t ∧ t.pstate = .uninitialized ∧ t.busy = false ∧ cmdReady t = true ∧
      t.pc = .idle ∧ (∀ sel, readReg sel t = 0#32) ∧ t.dc = 0#1 ∧ t.csN = 0#1 ∧ t.rstN = 0#1 ∧
      (∀ x y, canvasRead t.cfg t.canvas x y = 1#1) ∧ t.delay = none ∧ t.inFlight = none ∧
      t.done = false ∧ t.wire = s.wire ∧ t.env = s.env ∧ t.cfg = s.cfg ∧ t.cmdQueue = s.cmdQueue

/-- The state after block reset of every well-formed configuration is coherent (R9, R250), and the
machine's reset state is one of these. A `WfPanel` is a configuration that meets R9. -/
def Obligations.ResetStateIsCoherent : Prop :=
  (∀ c : WfPanel, Coherent (State.resetWith c)) ∧ Coherent State.reset

/-- A step runs the decoded operation: idle and out of reset, with the word `w` at the port, the step is
`exec` of what `w` decodes to, the word taken from the port, BUSY = 1 and `done` low (R36, R150). -/
def Obligations.StepRunsTheDecodedOperation : Prop :=
  ∀ (s : State) (w : Word) (q : List (Option Word)) (i : Instr),
    rstAsserted s = false → s.busy = false → s.pc = .idle → s.cmdQueue = some w :: q →
    decode w = .ok i →
    step s = exec i { s with cmdQueue := q, rstIn := s.rstIn.tail, busy := true, done := false }

/-- R221: an illegal word is accepted and completes with ERR_ILLEGAL; LAST_OP records `w[3:0]`; nothing
else of the block changes. That acceptance and completion take one step is the model's choice
(notes/assumptions/6.md). -/
def Obligations.IllegalWordCompletesWithErrIllegal : Prop :=
  ∀ (s : State) (w : Word) (q : List (Option Word)),
    rstAsserted s = false → s.busy = false → s.pc = .idle → s.cmdQueue = some w :: q →
    illegalWord w = true →
    step s = .next { s with
      cmdQueue := q
      rstIn := s.rstIn.tail
      err := .illegal
      lastOp := w.extractLsb' 0 4
      errStep := 0#32
      errByte := 0#32
      done := true }

/-- R36, R252: out of reset and idle, with `cmd_valid` low, the block waits: a step changes nothing of it
(`done` falls, the model's choice of notes/assumptions/6.md). -/
def Obligations.IdleBlockWaitsForAWord : Prop :=
  ∀ s : State, rstAsserted s = false → s.busy = false → s.pc = .idle →
    (s.cmdQueue = [] → step s = .next { s with rstIn := s.rstIn.tail, done := false }) ∧
    (∀ q, s.cmdQueue = none :: q →
      step s = .next { s with cmdQueue := q, rstIn := s.rstIn.tail, done := false })

/-- R36: a word presented while the block is busy is neither accepted nor lost. -/
def Obligations.BusyBlockHoldsTheHostWord : Prop :=
  ∀ s t : State, s.busy = true → step s = .next t → t.cmdQueue = s.cmdQueue

/-- R36: `done` is asserted exactly by the step in which an operation ends: BUSY falls, or a word is
accepted and completes in that step. That `done` lasts one step is the model's choice
(notes/assumptions/6.md). -/
def Obligations.DoneMarksTheEndOfAnOperation : Prop :=
  ∀ s t : State, rstAsserted s = false → step s = .next t →
    (t.done = true ↔
      t.busy = false ∧ (s.busy = true ∨ ∃ w q, s.cmdQueue = some w :: q))

/-- R230: after a completion or an abort the port is ready and nothing is in progress. -/
def Obligations.PortReadyAfterEveryEnd : Prop :=
  ∀ s t : State, Coherent s → step s = .next t → t.done = true →
    cmdReady t = true ∧ t.pc = .idle ∧ t.delay = none ∧ t.inFlight = none

/-! ### Registers -/

/-- R25: the fields of STATUS at their places, the reserved bits reading 0, PSTATE never 3 and ERR never
above 5. -/
def Obligations.StatusFieldsAtTheirPlaces : Prop :=
  ∀ s : State,
    (readReg 0#2 s).extractLsb' 0 2 = s.pstate.code ∧
    (readReg 0#2 s).extractLsb' 2 1 = flagBit s.busy ∧
    (readReg 0#2 s).extractLsb' 3 1 = 0#1 ∧
    (readReg 0#2 s).extractLsb' 4 4 = s.err.code ∧
    (readReg 0#2 s).extractLsb' 8 4 = s.lastOp ∧
    (readReg 0#2 s).extractLsb' 12 20 = 0#20 ∧
    s.pstate.code ≠ 3#2 ∧ s.err.code ≤ 5#4 ∧
    (flagBit s.busy = 1#1 ↔ s.busy = true)

/-- R24, R82: the register map; every selector value is defined. -/
def Obligations.RegisterMap : Prop :=
  ∀ s : State, readReg 0#2 s = statusWord s ∧ readReg 1#2 s = s.result ∧
    readReg 2#2 s = s.errStep ∧ readReg 3#2 s = s.errByte ∧
    ∀ sel : BitVec 2, sel = 0#2 ∨ sel = 1#2 ∨ sel = 2#2 ∨ sel = 3#2

/-- R35: PSTATE, ERR, LAST_OP, RESULT, ERRSTEP and ERRBYTE change only in the step that completes or
aborts an operation (or in block reset); while BUSY = 1 a read returns what the previous completion
left, with BUSY = 1. -/
def Obligations.RegistersChangeOnlyAtAnEnd : Prop :=
  ∀ s t : State, rstAsserted s = false → step s = .next t → t.done = false →
    resultRegs t = resultRegs s ∧
    (t.busy = true → ∀ sel, readReg sel t = readReg sel { s with busy := true })

/-- R22: PSTATE is written only where RESET, INIT, CLEAR, DISPLAY or SLEEP completes or aborts (or by
block reset), to the state R158 and R226 give. -/
def Obligations.PstateChangesOnlyAtAProtocolEnd : Prop :=
  ∀ s t : State, rstAsserted s = false → step s = .next t → t.pstate ≠ s.pstate →
    ∃ p, s.pc = .run p ∧ t.done = true ∧
      (t.err = .ok → t.pstate = pstateAfter s.pstate p.op) ∧
      (t.err ≠ .ok → t.pstate = .uninitialized)

/-- R160: only an INIT that completes makes the block Ready. -/
def Obligations.OnlyInitMakesReady : Prop :=
  ∀ s t : State, step s = .next t → s.pstate ≠ .ready → t.pstate = .ready →
    ∃ p, s.pc = .run p ∧ p.op = .init ∧ t.done = true ∧ t.err = .ok ∧ t.lastOp = 0x2#4

/-- R234: the poll counter counts one more sample and saturates at `2^32 - 1`. -/
def Obligations.PollCounterSaturates : Prop :=
  ∀ n : Word, (countPoll n).toNat = min (n.toNat + 1) (2 ^ 32 - 1)

/-- R236, R256: the panel's power conditions as EPDSEQ tracks them: held in reset after block reset,
operating when idle in Ready, in deep sleep when idle in Sleeping. -/
def Obligations.PanelConditionTracksPstate : Prop :=
  (∀ c : WfPanel, panelCondition (State.resetWith c) = some .heldInReset) ∧
  (∀ s : State, Coherent s → s.busy = false → s.pstate = .ready →
    panelCondition s = some .operating) ∧
  (∀ s : State, Coherent s → s.busy = false → s.pstate = .sleeping →
    panelCondition s = some .deepSleep)

/-! ### The operations that complete at once -/

/-- R151: NOP completes OK in every state and changes nothing but the completion fields. -/
def Obligations.NopCompletes : Prop :=
  formatNOnly 0x0#4 .nop ∧
  ∀ s : State, exec .nop s = .next { s with
    err := .ok
    lastOp := 0x0#4
    errStep := 0#32
    errByte := 0#32
    pc := .idle
    busy := false
    done := true }

/-- R101: CCLR makes every pixel white, in every state, and changes nothing else but the completion
fields. -/
def Obligations.CclrWhitensTheCanvas : Prop :=
  formatNOnly 0x6#4 .cclr ∧
  ∀ s : State, ∃ c : Memory, (∀ a, c.read a = 1#1) ∧ c.wf = true ∧
    exec .cclr s = .next { s with
      canvas := c
      err := .ok
      lastOp := 0x6#4
      errStep := 0#32
      errByte := 0#32
      pc := .idle
      busy := false
      done := true }

/-- R101's loop: writing white to every pixel, row by row, of a canvas of `W × H` cells gives the canvas
that CCLR leaves. -/
def Obligations.CclrIsThePixelLoop : Prop :=
  ∀ (s t : State), s.canvas.wf = true → s.canvas.within (s.cfg.width * s.cfg.height) = true →
    exec .cclr s = .next t → t.canvas = clearRows s.cfg s.cfg.height s.canvas

/-- R102: PSET writes the one pixel it addresses when it is on the canvas, and no pixel otherwise; every
other pixel, and every other field but the completion fields, is as before. -/
def Obligations.PsetWritesOnePixel : Prop :=
  ∀ (s : State) (x y : BitVec 12) (v : Bit), s.canvas.wf = true →
    ∃ c : Memory,
      (∀ a, c.read a = if x.toNat < s.cfg.width ∧ y.toNat < s.cfg.height ∧
          a = pixelAddr s.cfg x.toNat y.toNat then v else s.canvas.read a) ∧
      (∀ x' y', x' < s.cfg.width → canvasRead s.cfg c x' y' =
        if x' = x.toNat ∧ y' = y.toNat ∧ y.toNat < s.cfg.height then v
        else canvasRead s.cfg s.canvas x' y') ∧
      exec (.pset x y v) s = .next { s with
        canvas := c
        err := .ok
        lastOp := 0x7#4
        errStep := 0#32
        errByte := 0#32
        pc := .idle
        busy := false
        done := true }

/-- R196, R227: PKRD of an address below NBYTES puts the packed byte in RESULT[7:0] and 0 in
RESULT[31:8]; of any other it completes with ERR_RANGE and RESULT keeps its value. -/
def Obligations.PkrdReadsOnePackedByte : Prop :=
  ∀ (s : State) (a : BitVec 24),
    (a.toNat < s.cfg.nbytes → exec (.pkrd a) s = .next { s with
      result := 0#24 ++ packedByte s.cfg s.canvas a.toNat
      err := .ok
      lastOp := 0x8#4
      errStep := 0#32
      errByte := 0#32
      pc := .idle
      busy := false
      done := true }) ∧
    (s.cfg.nbytes ≤ a.toNat → exec (.pkrd a) s = .next { s with
      err := .range
      lastOp := 0x8#4
      errStep := 0#32
      errByte := 0#32
      pc := .idle
      busy := false
      done := true })

/-- R222: CLEAR, DISPLAY and SLEEP outside Ready complete with ERR_STATE, with no wire event, and PSTATE,
canvas, pins and RESULT stay. -/
def Obligations.NotReadyCompletesWithErrState : Prop :=
  ∀ (s : State) (op : RunOp), op.needsReady = true → s.pstate ≠ .ready →
    exec op.instr s = .next { s with
      err := .state
      lastOp := op.code
      errStep := 0#32
      errByte := 0#32
      pc := .idle
      busy := false
      done := true }

/-- R21, R150, R158: RESET and INIT in every PSTATE, and CLEAR, DISPLAY and SLEEP in Ready, begin at the
first step of their sequence; BUSY and `pc` alone change. That `polls` is 0 outside a wait is the
model's choice (notes/assumptions/14.md). -/
def Obligations.OperationsBeginAtTheirFirstStep : Prop :=
  ∀ (s : State) (op : RunOp), (op.needsReady = true → s.pstate = .ready) →
    ∃ st rest p, plan s.cfg op = st :: rest ∧ p.op = op ∧ p.step = st.step ∧ p.sub = st.sub ∧
      p.rest = rest ∧ p.idx = 0#32 ∧ p.polls = 0#32 ∧
      (st.step = .resetPulse → p.phase = .pin ∧ p.next = .rstHigh) ∧
      (st.step ≠ .resetPulse → p.phase = .cmd ∧ p.next = .setDc) ∧
      exec op.instr s = .next { s with busy := true, pc := .run p }

/-! ### The packer -/

/-- R190: LW is `ceil(W / 8)` and the packed buffer has `LW * H` bytes; for a well-formed configuration
LW is in `1 .. 512` and NBYTES at most `2^21`. -/
def Obligations.LineWidthAndBufferLength : Prop :=
  ∀ (p : Panel) (m : Memory),
    p.width ≤ 8 * p.lineWidth ∧ 8 * p.lineWidth < p.width + 8 ∧
    (pack p m).length = p.lineWidth * p.height ∧
    (p.wf = true → 1 ≤ p.lineWidth ∧ p.lineWidth ≤ 512 ∧ p.nbytes ≤ 2097152)

/-- R192, R193: bit `7 - k` of packed byte `a` is the pixel of column `8*b + k` of row `r`, and 1 beyond
the row's end. -/
def Obligations.PackedByteBits : Prop :=
  ∀ (p : Panel) (m : Memory) (a k : Nat), a < p.nbytes → k < 8 →
    (packedByte p m a).extractLsb' (7 - k) 1 =
      if 8 * (a % p.lineWidth) + k < p.width then
        canvasRead p m (8 * (a % p.lineWidth) + k) (a / p.lineWidth)
      else 1#1

/-- R194: when `W mod 8 = n` is not 0, the last byte of a row has its low `8 - n` bits at 1, and every
byte has at least one pixel. -/
def Obligations.PaddingIsWhite : Prop :=
  ∀ (p : Panel) (m : Memory) (r j : Nat), r < p.height → p.width % 8 ≠ 0 → j < 8 - p.width % 8 →
    (packedByte p m (r * p.lineWidth + (p.lineWidth - 1))).extractLsb' j 1 = 1#1 ∧
    8 * (p.lineWidth - 1) < p.width

/-- R195: a packed byte does not depend on the pixels of another row. -/
def Obligations.RowsPackIndependently : Prop :=
  ∀ (p : Panel) (m m' : Memory) (a : Nat),
    (∀ x, x < p.width → canvasRead p m x (a / p.lineWidth) = canvasRead p m' x (a / p.lineWidth)) →
    packedByte p m a = packedByte p m' a

/-- R198: the accumulator form gives the same bytes as R192, row by row, for every canvas. -/
def Obligations.AccumulatorPacksTheSameBytes : Prop :=
  ∀ (p : Panel) (m : Memory), 1 ≤ p.width →
    ((List.range p.height).map (packRowAcc p m)).flatten = pack p m

/-! ### The sequencer -/

/-- Every step from a coherent state that answers a next state leaves a coherent state (R21, R28 to R31,
R33, R120, R122, R158). -/
def Obligations.EveryStepKeepsCoherence : Prop :=
  ∀ s t : State, Coherent s → step s = .next t → Coherent t

/-- No coherent state is stuck: every step answers a next state, and so does every run (R77, R159). -/
def Obligations.CoherentStatesNeverStop : Prop :=
  ∀ s : State, Coherent s → ∀ n, ∃ t, Host.Core.run Sys2Proof.core n s = .next t

/-- R65: no step, and so no run, changes the configuration. -/
def Obligations.ConfigurationNeverChanges : Prop := ∀ s t : State, Reaches s t → t.cfg = s.cfg

/-- R28: only CCLR, PSET and block reset write the canvas. -/
def Obligations.OnlyCanvasOperationsWriteTheCanvas : Prop :=
  ∀ s t : State, step s = .next t → t.canvas ≠ s.canvas →
    rstAsserted s = true ∨ ∃ w q i, s.cmdQueue = some w :: q ∧ s.busy = false ∧ decode w = .ok i ∧
      (i = .cclr ∨ ∃ x y v, i = .pset x y v)

/-- R27, R56: a step performs at most one wire event, it is performed by an operation in progress, and
each pin is where the event puts it; without an event no pin moves (but by block reset). One
primitive a step is R21's; how many steps a wait takes is the model's (notes/assumptions/4.md, 5.md). -/
def Obligations.PinsFollowTheWireTrace : Prop :=
  ∀ s t : State, rstAsserted s = false → step s = .next t →
    ∃ es : List Event, t.wire = s.wire ++ es ∧ es.length ≤ 1 ∧ (es ≠ [] → s.busy = true) ∧
      t.dc = pinAfter .dc s.dc es ∧ t.csN = pinAfter .csN s.csN es ∧
      t.rstN = pinAfter .rstN s.rstN es

/-- R128: BUSY is sampled only inside wait-until-idle, at the three wait steps. -/
def Obligations.BusySampledOnlyInWaits : Prop :=
  ∀ (s t : State) (l : Bit), Coherent s → step s = .next t → t.wire = s.wire ++ [.sample l] →
    ∃ p, s.pc = .run p ∧
      (p.step = .waitPowerOn ∨ p.step = .waitRefresh ∨ p.step = .waitPowerOff)

/-- R127: the byte received in an exchange is discarded: states that differ only in received bytes take
steps to states that differ only in received bytes. -/
def Obligations.ReceivedBytesAreDiscarded : Prop :=
  ∀ s s' t : State, eraseReceived s = eraseReceived s' → step s = .next t →
    ∃ t', step s' = .next t' ∧ eraseReceived t = eraseReceived t'

/-- R120: SendByte performs `Pin(DC, dc), Pin(CS_N, 0), Xfer(b, r), Pin(CS_N, 1)` in this order, also when
the transport answers err; then it aborts with ERR_TRANSPORT and the byte's context when `r` is err,
and goes on without an error when it is ok. -/
def Obligations.SendByteFramesOneByte : Prop :=
  ∀ (s : State) (p : Pos) (a : Answer) (as : List Answer),
    Coherent s → s.pc = .run p → p.next = .setDc → s.rstIn = [] → s.env.answers = a :: as →
    ∃ t, Reaches s t ∧
      t.wire = s.wire ++ [.pin .dc p.phase.dcLevel, .pin .csN 0#1,
        .xfer (byteAt s.cfg s.canvas p) a.ok, .pin .csN 1#1] ∧
      t.dc = p.phase.dcLevel ∧ t.csN = 1#1 ∧ t.rstN = s.rstN ∧ t.env.answers = as ∧
      t.canvas = s.canvas ∧ t.result = s.result ∧
      (a.ok = false → t.err = .transport ∧ t.lastOp = p.op.code ∧
        t.errStep = errStepWord p.phase.dcLevel p.sub p.step.code ∧ t.errByte = p.idx ∧
        t.pstate = .uninitialized ∧ t.busy = false ∧ t.pc = .idle ∧ t.done = true) ∧
      (a.ok = true → (t.busy = true ∧ t.err = s.err ∧ t.pstate = s.pstate) ∨
        (t.busy = false ∧ t.err = .ok ∧ t.done = true))

/-- R123: a delay is one trace event; for at least its duration the sequencer does nothing and the pins
keep their levels; then it ends and the sequencer goes on. That a tick of the
delay timer is one step and that the event stands at the delay's start are the model's choices
(notes/assumptions/5.md). -/
def Obligations.DelayLastsAtLeastItsDuration : Prop :=
  ∀ (s : State) (p : Pos) (n : DelayName),
    Coherent s → s.pc = .run p → p.next.delayName = some n → s.delay = none → s.rstIn = [] →
    ∃ late : Nat,
      (∀ k, k ≤ delayTicks s.cfg n + late →
        ∃ u, Host.Core.run Sys2Proof.core (k + 1) s = .next u ∧ u.pc = .run p ∧ u.busy = true ∧
          u.wire = s.wire ++ [.delay n (delayTicks s.cfg n)] ∧ u.dc = s.dc ∧ u.csN = s.csN ∧
          u.rstN = s.rstN) ∧
      ∃ u, Host.Core.run Sys2Proof.core (delayTicks s.cfg n + late + 2) s = .next u ∧
        u.pc ≠ .run p ∧ u.wire = s.wire ++ [.delay n (delayTicks s.cfg n)] ∧ u.delay = none

/-- R124: a wait that reads `k` busy levels and then the idle level, no timeout coming first, performs
`k` times `Sample(busy) Delay(T_POLL)` and then `Sample(idle)`, writes no pin, and goes on. That `polls`
is 0 again at the next step, which is no wait, is the model's choice (notes/assumptions/14.md). -/
def Obligations.WaitEndsAtTheFirstIdleSample : Prop :=
  ∀ (s : State) (p : Pos) (k : Nat),
    Coherent s → s.pc = .run p → p.next = .sample → p.polls = 0#32 → s.rstIn = [] →
    goesThrough s 0 k →
    ∃ t, Reaches s t ∧ t.wire = s.wire ++ waitEvents s.cfg k ∧ t.dc = s.dc ∧ t.csN = s.csN ∧
      t.rstN = s.rstN ∧ t.env.levels = s.env.levels.drop (k + 1) ∧ t.canvas = s.canvas ∧
      (p.rest = [] → t.pc = .idle ∧ t.busy = false ∧ t.err = .ok ∧ t.done = true) ∧
      (∀ st rest, p.rest = st :: rest → t.pc = .run (enterStage p.op st rest) ∧ t.busy = true ∧
        resultRegs t = resultRegs s)

/-- R224: with `BUSY_TIMEOUT_POLLS = N`, a wait whose first `N` samples all read busy aborts with
ERR_UNRESPONSIVE after the last of them, with no delay after it; the context is the wait's step id and
`N`. -/
def Obligations.WaitTimesOutAfterNBusySamples : Prop :=
  ∀ (s : State) (p : Pos) (n : Nat),
    Coherent s → s.pc = .run p → p.next = .sample → p.polls = 0#32 → s.rstIn = [] →
    s.cfg.busyTimeoutPolls = some n → n ≤ s.env.levels.length →
    (∀ l ∈ s.env.levels.take n, l ≠ s.cfg.busyIdleLevel) →
    ∃ t, Reaches s t ∧ t.err = .unresponsive ∧ t.lastOp = p.op.code ∧
      t.errStep = errStepWord 0#1 0#8 p.step.code ∧ t.errByte = BitVec.ofNat 32 n ∧
      t.pstate = .uninitialized ∧ t.busy = false ∧ t.pc = .idle ∧ t.done = true ∧
      t.dc = s.dc ∧ t.csN = s.csN ∧ t.rstN = s.rstN ∧ t.result = s.result ∧ t.canvas = s.canvas ∧
      t.wire = s.wire
        ++ (List.replicate (n - 1)
            [Event.sample (~~~s.cfg.busyIdleLevel), Event.delay .poll s.cfg.tPoll]).flatten
        ++ [.sample (~~~s.cfg.busyIdleLevel)]

/-- R235: with `BUSY_TIMEOUT_POLLS = NONE`, however many busy levels a wait reads it is still waiting: the
operation has not ended, `done` has not come and the port has accepted nothing. -/
def Obligations.StuckBusyLineNeverEndsTheWait : Prop :=
  ∀ (s : State) (p : Pos) (k : Nat),
    Coherent s → s.pc = .run p → p.next = .sample → s.rstIn = [] →
    s.cfg.busyTimeoutPolls = none → k ≤ s.env.levels.length →
    (∀ l ∈ s.env.levels.take k, l ≠ s.cfg.busyIdleLevel) →
    ∃ m u, k ≤ m ∧ Host.Core.run Sys2Proof.core m s = .next u ∧
      u.env.levels = s.env.levels.drop k ∧
      ∀ j, j ≤ m → ∃ v q, Host.Core.run Sys2Proof.core j s = .next v ∧ v.busy = true ∧
        v.pc = .run q ∧ q.op = p.op ∧ q.step = p.step ∧ v.cmdQueue = s.cmdQueue ∧
        (1 ≤ j → v.done = false)

/-- R226: an abort records the failing primitive's context, makes PSTATE Uninitialized and ends the
operation; the canvas and RESULT are unchanged; CS_N and RST_N are 1; the last wire event is the CS_N
rise after the failed transfer, or the last busy sample. -/
def Obligations.AbortIsPrecise : Prop :=
  ∀ (s t : State) (p : Pos), Coherent s → rstAsserted s = false → s.pc = .run p →
    step s = .next t → t.done = true → t.err ≠ .ok →
    t.lastOp = p.op.code ∧ t.pstate = .uninitialized ∧ t.pc = .idle ∧ t.busy = false ∧
    t.canvas = s.canvas ∧ t.result = s.result ∧ t.csN = 1#1 ∧ t.rstN = 1#1 ∧ t.dc = s.dc ∧
    ((t.err = .transport ∧ p.next = .csHigh false ∧ t.wire = s.wire ++ [.pin .csN 1#1] ∧
        t.errStep = errStepWord p.phase.dcLevel p.sub p.step.code ∧ t.errByte = p.idx) ∨
      (t.err = .unresponsive ∧ p.next = .sample ∧
        t.wire = s.wire ++ [.sample (~~~s.cfg.busyIdleLevel)] ∧
        t.errStep = errStepWord 0#1 0#8 p.step.code ∧ t.errByte = countPoll p.polls))

/-- R28, R29, R36, R59: while an operation is in progress a step leaves the canvas, RESULT, the host's
words and the configuration alone, and PSTATE, ERR, LAST_OP, ERRSTEP and ERRBYTE too unless the
operation ends. -/
def Obligations.OperationInProgressFrame : Prop :=
  ∀ (s t : State) (p : Pos), rstAsserted s = false → s.busy = true → s.pc = .run p →
    step s = .next t →
    t.canvas = s.canvas ∧ t.result = s.result ∧ t.cmdQueue = s.cmdQueue ∧ t.cfg = s.cfg ∧
    (∀ a, t.canvas.read a = s.canvas.read a) ∧
    (t.done = false → resultRegs t = resultRegs s ∧ t.busy = true) ∧
    (t.done = true → t.lastOp = p.op.code)

/-! ### Whole operations -/

/-- The machine's run of each operation that occupies the sequencer, RESET, INIT, CLEAR, DISPLAY and SLEEP,
is the spec's pseudocode (R120 to R125, R152 to R157): from any idle
state, over any listed draws that bring the operation to an end, `exec` begins it and the machine
reaches exactly the state in which the pseudocode's events have been performed in order and the
operation has completed (R225) or aborted (R226). -/
def Obligations.MachineRunsThePseudocode : Prop :=
  ∀ (s : State) (op : RunOp) (r : Script) (h : Option Halt),
    idleQuiet s = true → (op.needsReady = true → s.pstate = .ready) →
    pseudocode s.cfg s.canvas op ⟨s.env.answers.map (fun a => a.ok), s.env.levels, []⟩ = (r, h) →
    h ≠ some .noMoreDraws →
    ∃ u env, exec op.instr s = .next u ∧ env.answers.map (fun a => a.ok) = r.oks ∧
      env.levels = r.levels ∧ Reaches u (haltState s op r.trace env h)

/-- R152: RESET from every PSTATE pulses RST_N with its two delays and completes with PSTATE = 0; DC and
CS_N are as before, RST_N is 1. -/
def Obligations.ResetCompletes : Prop :=
  formatNOnly 0x1#4 .reset ∧
  ∀ s : State, idleQuiet s = true →
    ∃ u env, exec .reset s = .next u ∧ env.answers = s.env.answers ∧ env.levels = s.env.levels ∧
      Reaches u (endState s .uninitialized .ok 0x1#4 0#32 0#32 s.dc s.csN 1#1
        (resetPulseEvents s.cfg) env)

/-- R153: INIT from every PSTATE, when every transfer is answered ok and the panel reads idle, performs
its whole sequence and completes with PSTATE = 1; RST_N and CS_N are 1 and DC is 1 when `lut[4]` has
data bytes. -/
def Obligations.InitCompletes : Prop :=
  formatNOnly 0x2#4 .init ∧
  ∀ (s : State) (k : Nat), idleQuiet s = true →
    goesThrough s (initBytes s.cfg) k →
    ∃ u env e, exec .init s = .next u ∧ s.cfg.lut[4]? = some e ∧
      env.answers = s.env.answers.drop (initBytes s.cfg) ∧
      env.levels = s.env.levels.drop (k + 1) ∧
      Reaches u (endState s .ready .ok 0x2#4 0#32 0#32 (dcAfterEntry e) 1#1 1#1
        (initEvents s.cfg k) env)

/-- R155: CLEAR from Ready, when every transfer is answered ok and the panel reads idle, sends the
start-transmission command and `NBYTES` bytes `0xFF`, refreshes and completes; PSTATE stays 1 and the
canvas is not changed. -/
def Obligations.ClearCompletes : Prop :=
  formatNOnly 0x3#4 .clear ∧
  ∀ (s : State) (k : Nat), idleQuiet s = true → s.pstate = .ready →
    goesThrough s (frameBytes s.cfg) k →
    ∃ u env, exec .clear s = .next u ∧
      env.answers = s.env.answers.drop (frameBytes s.cfg) ∧
      env.levels = s.env.levels.drop (k + 1) ∧
      Reaches u (endState s .ready .ok 0x3#4 0#32 0#32 (dcAfterEntry s.cfg.displayRefresh) 1#1
        s.rstN (frameEvents s.cfg (List.replicate s.cfg.nbytes 0xFF#8) k) env)

/-- R156: DISPLAY from Ready likewise sends the whole packed canvas in ascending address order. -/
def Obligations.DisplayCompletes : Prop :=
  formatNOnly 0x4#4 .display ∧
  ∀ (s : State) (k : Nat), idleQuiet s = true → s.pstate = .ready →
    goesThrough s (frameBytes s.cfg) k →
    ∃ u env, exec .display s = .next u ∧
      env.answers = s.env.answers.drop (frameBytes s.cfg) ∧
      env.levels = s.env.levels.drop (k + 1) ∧
      Reaches u (endState s .ready .ok 0x4#4 0#32 0#32 (dcAfterEntry s.cfg.displayRefresh) 1#1
        s.rstN (frameEvents s.cfg (pack s.cfg s.canvas) k) env)

/-- R157: SLEEP from Ready, when every transfer is answered ok and the panel reads idle, sends power-off,
waits, sends deep-sleep with its one payload byte and completes with PSTATE = 2; DC and CS_N are 1. -/
def Obligations.SleepCompletes : Prop :=
  formatNOnly 0x5#4 .sleep ∧
  ∀ (s : State) (k : Nat), idleQuiet s = true → s.pstate = .ready →
    goesThrough s (sleepBytes s.cfg) k →
    ∃ u env, exec .sleep s = .next u ∧
      env.answers = s.env.answers.drop (sleepBytes s.cfg) ∧
      env.levels = s.env.levels.drop (k + 1) ∧
      Reaches u (endState s .sleeping .ok 0x5#4 0#32 0#32 1#1 1#1 s.rstN
        (sleepEvents s.cfg k) env)

/-- R154: in the trace of every INIT that completes, or that aborts at a LUT byte, every power-setting,
booster and power-optimization byte comes before the POWER_ON command byte, which comes before a
BUSY sample of the idle level, which comes before the first LUT byte. -/
def Obligations.InitPowersOnBeforeAnyLut : Prop :=
  ∀ (s : State) (r : Script) (h : Option Halt),
    idleQuiet s = true →
    pseudocode s.cfg s.canvas .init ⟨s.env.answers.map (fun a => a.ok), s.env.levels, []⟩ = (r, h) →
    (h = none ∨ ∃ sub ph idx, h = some (.error .transport .lut sub ph idx)) →
    ∃ u t w rest, exec .init s = .next u ∧ Reaches u t ∧ t.done = true ∧
      onlyBusyPolls s.cfg w ∧
      t.wire = s.wire ++ resetPulseEvents s.cfg
        ++ entryFrames s.cfg.powerSetting ++ entryFrames s.cfg.boosterSoftStart
        ++ s.cfg.powopt.flatMap entryFrames
        ++ entryFrames s.cfg.partialRefreshDisable ++ cmdFrame s.cfg.powerOn.op
        ++ w ++ [.sample s.cfg.busyIdleLevel]
        ++ entryFrames s.cfg.panelSetting ++ entryFrames s.cfg.pllControl
        ++ entryFrames s.cfg.vcomDcSetting ++ rest

/-- R162: every CLEAR and every DISPLAY that completes with ERR = 0 has, after its last frame byte, the
DISPLAY_REFRESH command byte, the settle delay and a BUSY sample of the idle level, and completes
after that sample. -/
def Obligations.RefreshFollowsEveryFrame : Prop :=
  ∀ (s : State) (op : RunOp) (r : Script),
    idleQuiet s = true → s.pstate = .ready → (op = .clear ∨ op = .display) →
    pseudocode s.cfg s.canvas op ⟨s.env.answers.map (fun a => a.ok), s.env.levels, []⟩
      = (r, none) →
    ∃ u t w frame, exec op.instr s = .next u ∧ Reaches u t ∧ t.done = true ∧ t.err = .ok ∧
      onlyBusyPolls s.cfg w ∧
      frame = (if op = .clear then List.replicate s.cfg.nbytes 0xFF#8 else pack s.cfg s.canvas) ∧
      t.wire = s.wire ++ cmdFrame s.cfg.startTransmission.op ++ frame.flatMap dataFrame
        ++ entryFrames s.cfg.displayRefresh
        ++ [.delay .refreshSettle s.cfg.tRefreshSettle] ++ w ++ [.sample s.cfg.busyIdleLevel]

/-- R161: two CLEARs from Ready give identical wire traces when their waits read the same levels, and
identical byte streams in any case, whatever the canvases hold. -/
def Obligations.ClearIsIdempotentOnTheWire : Prop :=
  ∀ (s s' : State) (k k' : Nat),
    s'.cfg = s.cfg → idleQuiet s = true → idleQuiet s' = true →
    s.pstate = .ready → s'.pstate = .ready →
    goesThrough s (frameBytes s.cfg) k → goesThrough s' (frameBytes s.cfg) k' →
    ∃ u t es u' t' es', exec .clear s = .next u ∧ Reaches u t ∧ t.done = true ∧
      t.wire = s.wire ++ es ∧ exec .clear s' = .next u' ∧ Reaches u' t' ∧ t'.done = true ∧
      t'.wire = s'.wire ++ es' ∧ xfersOf es = xfersOf es' ∧ (k = k' → es = es')

/-! ### Instantiation -/

/-- R9, R238: a configuration that meets the clauses of R9 is instantiated, as the block in its state after
block reset; any other is refused; and no state of a block has any other. -/
def Obligations.OnlyWellFormedConfigurationsInstantiate : Prop :=
  (∀ p : Panel, configRules p →
    ∃ c : WfPanel, c.val = p ∧ instantiate p = .ok (State.resetWith c)) ∧
  (∀ p : Panel, ¬ configRules p → instantiate p = .error .illFormed) ∧
  (∀ s : State, configRules s.cfg)
end

