-- ==== Sys2Proof/Laws/Memory.lean ====
section
/-! SUPPORT. The laws of the canvas as memory: the canonical form is kept, a read after a write, and the
bits of a packed byte. -/

namespace Sys2Proof.Machine

/-- The canonical form above an address, as a proposition. -/
theorem Memory.wfFrom_cons (lo : Option Nat) (k : Nat) (v : Bit) (m : Memory) :
    Memory.wfFrom lo ((k, v) :: m) = true ↔
      (∀ l, lo = some l → l < k) ∧ v ≠ whitePixel ∧ Memory.wfFrom (some k) m = true := by
  cases lo <;> simp [Memory.wfFrom, and_assoc]

/-- A canonical form may start at a lower address. -/
theorem Memory.wfFrom_mono {k : Nat} {lo : Option Nat} {m : Memory} (h : Memory.wfFrom (some k) m = true)
    (hlo : ∀ l, lo = some l → l ≤ k) : Memory.wfFrom lo m = true := by
  cases m with
  | nil => cases lo <;> rfl
  | cons c m =>
    obtain ⟨a, v⟩ := c
    rw [Memory.wfFrom_cons] at h ⊢
    exact ⟨fun l hl => lt_of_le_of_lt (hlo l hl) (h.1 k rfl), h.2⟩

/-- Reading the first listed cell. -/
theorem Memory.read_cons_self (k : Nat) (v : Bit) (m : Memory) : Memory.read ((k, v) :: m) k = v :=
  if_pos rfl

/-- Reading past the first listed cell. -/
theorem Memory.read_cons_ne {k a : Nat} (h : k ≠ a) (v : Bit) (m : Memory) :
    Memory.read ((k, v) :: m) a = m.read a := if_neg h

/-- Cells at or below the start of a canonical form are not listed: they read white. -/
theorem Memory.read_below {k a : Nat} {m : Memory} (h : Memory.wfFrom (some k) m = true)
    (ha : a ≤ k) : m.read a = whitePixel := by
  induction m generalizing k with
  | nil => rfl
  | cons c m ih =>
    obtain ⟨b, v⟩ := c
    rw [Memory.wfFrom_cons] at h
    have hb : k < b := h.1 k rfl
    rw [Memory.read_cons_ne (by omega), ih h.2.2 (by omega)]

/-- Writing keeps the canonical form. -/
theorem Memory.write_wfFrom {lo : Option Nat} {m : Memory} {a : Nat} {v : Bit}
    (h : Memory.wfFrom lo m = true) (ha : ∀ l, lo = some l → l < a) :
    Memory.wfFrom lo (m.write a v) = true := by
  induction m generalizing lo with
  | nil =>
    unfold Memory.write
    split
    · exact h
    · exact (Memory.wfFrom_cons ..).2 ⟨ha, ‹_›, rfl⟩
  | cons c m ih =>
    obtain ⟨k, u⟩ := c
    have hc := (Memory.wfFrom_cons ..).1 h
    unfold Memory.write
    split
    · split
      · exact h
      · exact (Memory.wfFrom_cons ..).2 ⟨ha, ‹_›, (Memory.wfFrom_cons ..).2
          ⟨fun l hl => by cases hl; omega, hc.2⟩⟩
    · split
      · subst a
        split
        · exact Memory.wfFrom_mono hc.2.2 fun l hl => (hc.1 l hl).le
        · exact (Memory.wfFrom_cons ..).2 ⟨ha, ‹_›, hc.2.2⟩
      · exact (Memory.wfFrom_cons ..).2 ⟨hc.1, hc.2.1, ih hc.2.2 fun l hl => by cases hl; omega⟩

/-- Writing keeps the canonical form. -/
theorem Memory.write_wf {m : Memory} (a : Nat) (v : Bit) (h : m.wf = true) :
    (m.write a v).wf = true :=
  Memory.write_wfFrom h fun l hl => by cases hl

/-- A cell listed after a write was listed before it, or is the written one. -/
theorem Memory.mem_write {m : Memory} {a : Nat} {v : Bit} {c : Nat × Bit} (h : c ∈ m.write a v) :
    c ∈ m ∨ c = (a, v) := by
  induction m with
  | nil => unfold Memory.write at h; split at h <;> simp_all
  | cons d m ih =>
    obtain ⟨k, u⟩ := d
    unfold Memory.write at h
    split at h
    · split at h
      · exact .inl h
      · rcases List.mem_cons.1 h with h | h
        · exact .inr h
        · exact .inl h
    · split at h
      · split at h
        · exact .inl (List.mem_cons_of_mem _ h)
        · rcases List.mem_cons.1 h with h | h
          · exact .inr h
          · exact .inl (List.mem_cons_of_mem _ h)
      · rcases List.mem_cons.1 h with h | h
        · exact .inl (h ▸ List.mem_cons_self ..)
        · exact (ih h).imp_left (List.mem_cons_of_mem _)

/-- What it means that every listed cell lies below `n`. -/
theorem Memory.within_iff {m : Memory} {n : Nat} : m.within n = true ↔ ∀ c ∈ m, c.1 < n := by
  simp [Memory.within]

/-- Writing a cell of the canvas lists no cell outside it. -/
theorem Memory.write_within {m : Memory} {n a : Nat} {v : Bit} (h : m.within n = true) (ha : a < n) :
    (m.write a v).within n = true :=
  Memory.within_iff.2 fun c hc => (Memory.mem_write hc).elim (Memory.within_iff.1 h c) fun e => e ▸ ha

/-- A read after a write: the written cell holds the value, every other cell is as before. -/
theorem Memory.read_write {lo : Option Nat} {m : Memory} {a b : Nat} {v : Bit}
    (h : Memory.wfFrom lo m = true) :
    (m.write a v).read b = if b = a then v else m.read b := by
  induction m generalizing lo with
  | nil =>
    unfold Memory.write
    by_cases hv : v = whitePixel
    · rw [if_pos hv, hv]; exact (ite_self _).symm
    · rw [if_neg hv]; by_cases hb : b = a
      · rw [if_pos hb, hb, Memory.read_cons_self]
      · rw [if_neg hb, Memory.read_cons_ne (Ne.symm hb)]
  | cons c m ih =>
    obtain ⟨k, u⟩ := c
    have hc := (Memory.wfFrom_cons ..).1 h
    unfold Memory.write
    split
    · rename_i hak
      have hcons : Memory.read ((k, u) :: m) a = whitePixel := by
        rw [Memory.read_cons_ne (by omega), Memory.read_below hc.2.2 hak.le]
      split
      · by_cases hb : b = a <;> simp_all
      · by_cases hb : b = a
        · rw [if_pos hb, hb, Memory.read_cons_self]
        · rw [if_neg hb, Memory.read_cons_ne (Ne.symm hb)]
    · split
      · subst a
        split
        · by_cases hb : b = k
          · rw [if_pos hb, hb, Memory.read_below hc.2.2 le_rfl, ‹v = whitePixel›]
          · rw [if_neg hb, Memory.read_cons_ne (Ne.symm hb)]
        · by_cases hb : b = k
          · rw [if_pos hb, hb, Memory.read_cons_self]
          · rw [if_neg hb, Memory.read_cons_ne (Ne.symm hb), Memory.read_cons_ne (Ne.symm hb)]
      · by_cases hb : k = b
        · subst b; rw [Memory.read_cons_self, if_neg (by omega), Memory.read_cons_self]
        · rw [Memory.read_cons_ne hb, Memory.read_cons_ne hb, ih hc.2.2]

/-- Canonical canvases that read alike are the same list. -/
theorem Memory.ext_read {lo lo' : Option Nat} {m m' : Memory} (h : Memory.wfFrom lo m = true)
    (h' : Memory.wfFrom lo' m' = true) (hr : ∀ a, m.read a = m'.read a) : m = m' := by
  induction m generalizing lo lo' m' with
  | nil =>
    cases m' with
    | nil => rfl
    | cons c m' =>
      obtain ⟨k, u⟩ := c
      have hk := hr k
      rw [Memory.read_cons_self] at hk
      exact absurd hk.symm ((Memory.wfFrom_cons ..).1 h').2.1
  | cons c m ih =>
    obtain ⟨k, u⟩ := c
    have hc := (Memory.wfFrom_cons ..).1 h
    cases m' with
    | nil =>
      have hk := hr k
      rw [Memory.read_cons_self] at hk
      exact absurd hk hc.2.1
    | cons c' m' =>
      obtain ⟨k', u'⟩ := c'
      have hc' := (Memory.wfFrom_cons ..).1 h'
      have hk : k = k' := by
        rcases Nat.lt_trichotomy k k' with hlt | heq | hgt
        · have hk := hr k
          rw [Memory.read_cons_self, Memory.read_cons_ne (by omega),
            Memory.read_below hc'.2.2 hlt.le] at hk
          exact absurd hk hc.2.1
        · exact heq
        · have hk := hr k'
          rw [Memory.read_cons_self, Memory.read_cons_ne (by omega),
            Memory.read_below hc.2.2 hgt.le] at hk
          exact absurd hk.symm hc'.2.1
      subst k'
      have hu := hr k
      rw [Memory.read_cons_self, Memory.read_cons_self] at hu
      subst u'
      refine congrArg _ (ih hc.2.2 hc'.2.2 fun a => ?_)
      by_cases ha : a ≤ k
      · rw [Memory.read_below hc.2.2 ha, Memory.read_below hc'.2.2 ha]
      · have hr' := hr a
        rwa [Memory.read_cons_ne (by omega), Memory.read_cons_ne (by omega)] at hr'

/-- Two pixels on the canvas share a cell only when they are the same pixel. -/
theorem pixelAddr_inj {p : Panel} {x y x' y' : Nat} (hx : x < p.width) (hx' : x' < p.width) :
    pixelAddr p x y = pixelAddr p x' y' ↔ x = x' ∧ y = y' := by
  unfold pixelAddr
  constructor
  · intro h
    have h1 := congrArg (· % p.width) h
    have h2 := congrArg (· / p.width) h
    simp only [Nat.mul_comm y, Nat.mul_comm y', Nat.mul_add_mod, Nat.mod_eq_of_lt hx,
      Nat.mod_eq_of_lt hx'] at h1
    simp only [Nat.mul_comm y, Nat.mul_comm y', Nat.mul_add_div (by omega : p.width > 0),
      Nat.div_eq_of_lt hx, Nat.div_eq_of_lt hx'] at h2
    omega
  · rintro ⟨rfl, rfl⟩; rfl

/-- A pixel on the canvas has a cell below `W * H`. -/
theorem pixelAddr_lt {p : Panel} {x y : Nat} (hx : x < p.width) (hy : y < p.height) :
    pixelAddr p x y < p.width * p.height := by
  unfold pixelAddr
  calc y * p.width + x < y * p.width + p.width := by omega
    _ = (y + 1) * p.width := by ring
    _ ≤ p.height * p.width := Nat.mul_le_mul_right _ hy
    _ = p.width * p.height := Nat.mul_comm ..

/-- Bit `7 - k` of a byte is its `k`-th bit in scan order. -/
theorem byteOfBits_bit (f : Nat → Bit) {k : Nat} (hk : k < 8) :
    (byteOfBits f).extractLsb' (7 - k) 1 = f k := by
  ext i hi
  obtain rfl : i = 0 := by omega
  rw [← BitVec.getLsbD_eq_getElem, ← BitVec.getLsbD_eq_getElem, BitVec.getLsbD_extractLsb']
  change (decide (0 < 1) && @BitVec.getLsbD (1 + 1 + 1 + 1 + 1 + 1 + 1 + 1)
    (f 0 ++ f 1 ++ f 2 ++ f 3 ++ f 4 ++ f 5 ++ f 6 ++ f 7) (7 - k + 0)) = _
  simp only [BitVec.getLsbD_append]
  interval_cases k <;> simp

end Sys2Proof.Machine
end

