-- ==== Sys2Proof/Laws/State.lean ====
section
/-! SUPPORT. One lemma per field for each shared update of State, so that no later proof unfolds a record
update. -/

namespace Sys2Proof.Machine

variable (s : State)

/-- The configuration of every state is well formed, by its type (R9). -/
theorem State.cfg_wf : s.cfg.wf = true := s.config.property

/-- The configuration has one spelling, `s.cfg`. -/
@[simp] theorem State.config_val : s.config.val = s.cfg := rfl

/-- The configuration read from a state written out. -/
@[simp] theorem State.cfg_mk (c : WfPanel) (ps b e lo r es eb d cs rs cv pc dl fl dn wi q ri en) :
    State.cfg ⟨c, ps, b, e, lo, r, es, eb, d, cs, rs, cv, pc, dl, fl, dn, wi, q, ri, en⟩ = c.val := rfl

@[simp] theorem emit_cfg (e : Event) : (emit e s).cfg = s.cfg := rfl
@[simp] theorem emit_config (e : Event) : (emit e s).config = s.config := rfl
@[simp] theorem emit_pstate (e : Event) : (emit e s).pstate = s.pstate := rfl
@[simp] theorem emit_busy (e : Event) : (emit e s).busy = s.busy := rfl
@[simp] theorem emit_err (e : Event) : (emit e s).err = s.err := rfl
@[simp] theorem emit_lastOp (e : Event) : (emit e s).lastOp = s.lastOp := rfl
@[simp] theorem emit_result (e : Event) : (emit e s).result = s.result := rfl
@[simp] theorem emit_errStep (e : Event) : (emit e s).errStep = s.errStep := rfl
@[simp] theorem emit_errByte (e : Event) : (emit e s).errByte = s.errByte := rfl
@[simp] theorem emit_dc (e : Event) : (emit e s).dc = s.dc := rfl
@[simp] theorem emit_csN (e : Event) : (emit e s).csN = s.csN := rfl
@[simp] theorem emit_rstN (e : Event) : (emit e s).rstN = s.rstN := rfl
@[simp] theorem emit_canvas (e : Event) : (emit e s).canvas = s.canvas := rfl
@[simp] theorem emit_pc (e : Event) : (emit e s).pc = s.pc := rfl
@[simp] theorem emit_delay (e : Event) : (emit e s).delay = s.delay := rfl
@[simp] theorem emit_inFlight (e : Event) : (emit e s).inFlight = s.inFlight := rfl
@[simp] theorem emit_done (e : Event) : (emit e s).done = s.done := rfl
@[simp] theorem emit_wire (e : Event) : (emit e s).wire = s.wire ++ [e] := rfl
@[simp] theorem emit_cmdQueue (e : Event) : (emit e s).cmdQueue = s.cmdQueue := rfl
@[simp] theorem emit_rstIn (e : Event) : (emit e s).rstIn = s.rstIn := rfl
@[simp] theorem emit_env (e : Event) : (emit e s).env = s.env := rfl

@[simp] theorem goTo_cfg (p : Pos) : (goTo p s).cfg = s.cfg := rfl
@[simp] theorem goTo_config (p : Pos) : (goTo p s).config = s.config := rfl
@[simp] theorem goTo_pstate (p : Pos) : (goTo p s).pstate = s.pstate := rfl
@[simp] theorem goTo_busy (p : Pos) : (goTo p s).busy = s.busy := rfl
@[simp] theorem goTo_err (p : Pos) : (goTo p s).err = s.err := rfl
@[simp] theorem goTo_lastOp (p : Pos) : (goTo p s).lastOp = s.lastOp := rfl
@[simp] theorem goTo_result (p : Pos) : (goTo p s).result = s.result := rfl
@[simp] theorem goTo_errStep (p : Pos) : (goTo p s).errStep = s.errStep := rfl
@[simp] theorem goTo_errByte (p : Pos) : (goTo p s).errByte = s.errByte := rfl
@[simp] theorem goTo_dc (p : Pos) : (goTo p s).dc = s.dc := rfl
@[simp] theorem goTo_csN (p : Pos) : (goTo p s).csN = s.csN := rfl
@[simp] theorem goTo_rstN (p : Pos) : (goTo p s).rstN = s.rstN := rfl
@[simp] theorem goTo_canvas (p : Pos) : (goTo p s).canvas = s.canvas := rfl
@[simp] theorem goTo_pc (p : Pos) : (goTo p s).pc = .run p := rfl
@[simp] theorem goTo_delay (p : Pos) : (goTo p s).delay = s.delay := rfl
@[simp] theorem goTo_inFlight (p : Pos) : (goTo p s).inFlight = s.inFlight := rfl
@[simp] theorem goTo_done (p : Pos) : (goTo p s).done = s.done := rfl
@[simp] theorem goTo_wire (p : Pos) : (goTo p s).wire = s.wire := rfl
@[simp] theorem goTo_cmdQueue (p : Pos) : (goTo p s).cmdQueue = s.cmdQueue := rfl
@[simp] theorem goTo_rstIn (p : Pos) : (goTo p s).rstIn = s.rstIn := rfl
@[simp] theorem goTo_env (p : Pos) : (goTo p s).env = s.env := rfl

@[simp] theorem setPin_cfg (p : Pin) (v : Bit) : (setPin p v s).cfg = s.cfg := by cases p <;> rfl
@[simp] theorem setPin_config (p : Pin) (v : Bit) : (setPin p v s).config = s.config := by cases p <;> rfl
@[simp] theorem setPin_pstate (p : Pin) (v : Bit) :
    (setPin p v s).pstate = s.pstate := by cases p <;> rfl
@[simp] theorem setPin_busy (p : Pin) (v : Bit) : (setPin p v s).busy = s.busy := by cases p <;> rfl
@[simp] theorem setPin_err (p : Pin) (v : Bit) : (setPin p v s).err = s.err := by cases p <;> rfl
@[simp] theorem setPin_lastOp (p : Pin) (v : Bit) :
    (setPin p v s).lastOp = s.lastOp := by cases p <;> rfl
@[simp] theorem setPin_result (p : Pin) (v : Bit) :
    (setPin p v s).result = s.result := by cases p <;> rfl
@[simp] theorem setPin_errStep (p : Pin) (v : Bit) :
    (setPin p v s).errStep = s.errStep := by cases p <;> rfl
@[simp] theorem setPin_errByte (p : Pin) (v : Bit) :
    (setPin p v s).errByte = s.errByte := by cases p <;> rfl
@[simp] theorem setPin_dc (p : Pin) (v : Bit) :
    (setPin p v s).dc = if p = .dc then v else s.dc := by cases p <;> rfl
@[simp] theorem setPin_csN (p : Pin) (v : Bit) :
    (setPin p v s).csN = if p = .csN then v else s.csN := by cases p <;> rfl
@[simp] theorem setPin_rstN (p : Pin) (v : Bit) :
    (setPin p v s).rstN = if p = .rstN then v else s.rstN := by cases p <;> rfl
@[simp] theorem setPin_canvas (p : Pin) (v : Bit) :
    (setPin p v s).canvas = s.canvas := by cases p <;> rfl
@[simp] theorem setPin_pc (p : Pin) (v : Bit) : (setPin p v s).pc = s.pc := by cases p <;> rfl
@[simp] theorem setPin_delay (p : Pin) (v : Bit) :
    (setPin p v s).delay = s.delay := by cases p <;> rfl
@[simp] theorem setPin_inFlight (p : Pin) (v : Bit) :
    (setPin p v s).inFlight = s.inFlight := by cases p <;> rfl
@[simp] theorem setPin_done (p : Pin) (v : Bit) : (setPin p v s).done = s.done := by cases p <;> rfl
@[simp] theorem setPin_wire (p : Pin) (v : Bit) :
    (setPin p v s).wire = s.wire ++ [.pin p v] := by cases p <;> rfl
@[simp] theorem setPin_cmdQueue (p : Pin) (v : Bit) :
    (setPin p v s).cmdQueue = s.cmdQueue := by cases p <;> rfl
@[simp] theorem setPin_rstIn (p : Pin) (v : Bit) :
    (setPin p v s).rstIn = s.rstIn := by cases p <;> rfl
@[simp] theorem setPin_env (p : Pin) (v : Bit) : (setPin p v s).env = s.env := by cases p <;> rfl

@[simp] theorem complete_cfg (c : ErrCode) (op : BitVec 4) : (complete c op s).cfg = s.cfg := rfl
@[simp] theorem complete_config (c : ErrCode) (op : BitVec 4) : (complete c op s).config = s.config := rfl
@[simp] theorem complete_pstate (c : ErrCode) (op : BitVec 4) :
    (complete c op s).pstate = s.pstate := rfl
@[simp] theorem complete_busy (c : ErrCode) (op : BitVec 4) : (complete c op s).busy = false := rfl
@[simp] theorem complete_err (c : ErrCode) (op : BitVec 4) : (complete c op s).err = c := rfl
@[simp] theorem complete_lastOp (c : ErrCode) (op : BitVec 4) : (complete c op s).lastOp = op := rfl
@[simp] theorem complete_result (c : ErrCode) (op : BitVec 4) :
    (complete c op s).result = s.result := rfl
@[simp] theorem complete_errStep (c : ErrCode) (op : BitVec 4) :
    (complete c op s).errStep = 0#32 := rfl
@[simp] theorem complete_errByte (c : ErrCode) (op : BitVec 4) :
    (complete c op s).errByte = 0#32 := rfl
@[simp] theorem complete_dc (c : ErrCode) (op : BitVec 4) : (complete c op s).dc = s.dc := rfl
@[simp] theorem complete_csN (c : ErrCode) (op : BitVec 4) : (complete c op s).csN = s.csN := rfl
@[simp] theorem complete_rstN (c : ErrCode) (op : BitVec 4) : (complete c op s).rstN = s.rstN := rfl
@[simp] theorem complete_canvas (c : ErrCode) (op : BitVec 4) :
    (complete c op s).canvas = s.canvas := rfl
@[simp] theorem complete_pc (c : ErrCode) (op : BitVec 4) : (complete c op s).pc = .idle := rfl
@[simp] theorem complete_delay (c : ErrCode) (op : BitVec 4) :
    (complete c op s).delay = s.delay := rfl
@[simp] theorem complete_inFlight (c : ErrCode) (op : BitVec 4) :
    (complete c op s).inFlight = s.inFlight := rfl
@[simp] theorem complete_done (c : ErrCode) (op : BitVec 4) : (complete c op s).done = true := rfl
@[simp] theorem complete_wire (c : ErrCode) (op : BitVec 4) : (complete c op s).wire = s.wire := rfl
@[simp] theorem complete_cmdQueue (c : ErrCode) (op : BitVec 4) :
    (complete c op s).cmdQueue = s.cmdQueue := rfl
@[simp] theorem complete_rstIn (c : ErrCode) (op : BitVec 4) :
    (complete c op s).rstIn = s.rstIn := rfl
@[simp] theorem complete_env (c : ErrCode) (op : BitVec 4) : (complete c op s).env = s.env := rfl

@[simp] theorem raiseError_cfg (c : ErrCode) (st : StepId) (sub : Byte) (ph : Bit) (idx : Word) (op : BitVec 4) :
    (raiseError c st sub ph idx op s).cfg = s.cfg := rfl
@[simp] theorem raiseError_config (c : ErrCode) (st : StepId) (sub : Byte) (ph : Bit) (idx : Word) (op : BitVec 4) :
    (raiseError c st sub ph idx op s).config = s.config := rfl
@[simp] theorem raiseError_pstate (c : ErrCode) (st : StepId) (sub : Byte) (ph : Bit) (idx : Word) (op : BitVec 4) :
    (raiseError c st sub ph idx op s).pstate = .uninitialized := rfl
@[simp] theorem raiseError_busy (c : ErrCode) (st : StepId) (sub : Byte) (ph : Bit) (idx : Word) (op : BitVec 4) :
    (raiseError c st sub ph idx op s).busy = false := rfl
@[simp] theorem raiseError_err (c : ErrCode) (st : StepId) (sub : Byte) (ph : Bit) (idx : Word) (op : BitVec 4) :
    (raiseError c st sub ph idx op s).err = c := rfl
@[simp] theorem raiseError_lastOp (c : ErrCode) (st : StepId) (sub : Byte) (ph : Bit) (idx : Word) (op : BitVec 4) :
    (raiseError c st sub ph idx op s).lastOp = op := rfl
@[simp] theorem raiseError_result (c : ErrCode) (st : StepId) (sub : Byte) (ph : Bit) (idx : Word) (op : BitVec 4) :
    (raiseError c st sub ph idx op s).result = s.result := rfl
@[simp] theorem raiseError_errStep (c : ErrCode) (st : StepId) (sub : Byte) (ph : Bit) (idx : Word) (op : BitVec 4) :
    (raiseError c st sub ph idx op s).errStep = errStepWord ph sub st.code := rfl
@[simp] theorem raiseError_errByte (c : ErrCode) (st : StepId) (sub : Byte) (ph : Bit) (idx : Word) (op : BitVec 4) :
    (raiseError c st sub ph idx op s).errByte = idx := rfl
@[simp] theorem raiseError_dc (c : ErrCode) (st : StepId) (sub : Byte) (ph : Bit) (idx : Word) (op : BitVec 4) :
    (raiseError c st sub ph idx op s).dc = s.dc := rfl
@[simp] theorem raiseError_csN (c : ErrCode) (st : StepId) (sub : Byte) (ph : Bit) (idx : Word) (op : BitVec 4) :
    (raiseError c st sub ph idx op s).csN = s.csN := rfl
@[simp] theorem raiseError_rstN (c : ErrCode) (st : StepId) (sub : Byte) (ph : Bit) (idx : Word) (op : BitVec 4) :
    (raiseError c st sub ph idx op s).rstN = s.rstN := rfl
@[simp] theorem raiseError_canvas (c : ErrCode) (st : StepId) (sub : Byte) (ph : Bit) (idx : Word) (op : BitVec 4) :
    (raiseError c st sub ph idx op s).canvas = s.canvas := rfl
@[simp] theorem raiseError_pc (c : ErrCode) (st : StepId) (sub : Byte) (ph : Bit) (idx : Word) (op : BitVec 4) :
    (raiseError c st sub ph idx op s).pc = .idle := rfl
@[simp] theorem raiseError_delay (c : ErrCode) (st : StepId) (sub : Byte) (ph : Bit) (idx : Word) (op : BitVec 4) :
    (raiseError c st sub ph idx op s).delay = s.delay := rfl
@[simp] theorem raiseError_inFlight (c : ErrCode) (st : StepId) (sub : Byte) (ph : Bit) (idx : Word) (op : BitVec 4) :
    (raiseError c st sub ph idx op s).inFlight = s.inFlight := rfl
@[simp] theorem raiseError_done (c : ErrCode) (st : StepId) (sub : Byte) (ph : Bit) (idx : Word) (op : BitVec 4) :
    (raiseError c st sub ph idx op s).done = true := rfl
@[simp] theorem raiseError_wire (c : ErrCode) (st : StepId) (sub : Byte) (ph : Bit) (idx : Word) (op : BitVec 4) :
    (raiseError c st sub ph idx op s).wire = s.wire := rfl
@[simp] theorem raiseError_cmdQueue (c : ErrCode) (st : StepId) (sub : Byte) (ph : Bit) (idx : Word) (op : BitVec 4) :
    (raiseError c st sub ph idx op s).cmdQueue = s.cmdQueue := rfl
@[simp] theorem raiseError_rstIn (c : ErrCode) (st : StepId) (sub : Byte) (ph : Bit) (idx : Word) (op : BitVec 4) :
    (raiseError c st sub ph idx op s).rstIn = s.rstIn := rfl
@[simp] theorem raiseError_env (c : ErrCode) (st : StepId) (sub : Byte) (ph : Bit) (idx : Word) (op : BitVec 4) :
    (raiseError c st sub ph idx op s).env = s.env := rfl

@[simp] theorem startOp_cfg (op : RunOp) (first : Stage) (rest : List Stage) :
    (startOp op first rest s).cfg = s.cfg := rfl
@[simp] theorem startOp_config (op : RunOp) (first : Stage) (rest : List Stage) :
    (startOp op first rest s).config = s.config := rfl
@[simp] theorem startOp_pstate (op : RunOp) (first : Stage) (rest : List Stage) :
    (startOp op first rest s).pstate = s.pstate := rfl
@[simp] theorem startOp_busy (op : RunOp) (first : Stage) (rest : List Stage) :
    (startOp op first rest s).busy = true := rfl
@[simp] theorem startOp_err (op : RunOp) (first : Stage) (rest : List Stage) :
    (startOp op first rest s).err = s.err := rfl
@[simp] theorem startOp_lastOp (op : RunOp) (first : Stage) (rest : List Stage) :
    (startOp op first rest s).lastOp = s.lastOp := rfl
@[simp] theorem startOp_result (op : RunOp) (first : Stage) (rest : List Stage) :
    (startOp op first rest s).result = s.result := rfl
@[simp] theorem startOp_errStep (op : RunOp) (first : Stage) (rest : List Stage) :
    (startOp op first rest s).errStep = s.errStep := rfl
@[simp] theorem startOp_errByte (op : RunOp) (first : Stage) (rest : List Stage) :
    (startOp op first rest s).errByte = s.errByte := rfl
@[simp] theorem startOp_dc (op : RunOp) (first : Stage) (rest : List Stage) :
    (startOp op first rest s).dc = s.dc := rfl
@[simp] theorem startOp_csN (op : RunOp) (first : Stage) (rest : List Stage) :
    (startOp op first rest s).csN = s.csN := rfl
@[simp] theorem startOp_rstN (op : RunOp) (first : Stage) (rest : List Stage) :
    (startOp op first rest s).rstN = s.rstN := rfl
@[simp] theorem startOp_canvas (op : RunOp) (first : Stage) (rest : List Stage) :
    (startOp op first rest s).canvas = s.canvas := rfl
@[simp] theorem startOp_pc (op : RunOp) (first : Stage) (rest : List Stage) :
    (startOp op first rest s).pc = .run (enterStage op first rest) := rfl
@[simp] theorem startOp_delay (op : RunOp) (first : Stage) (rest : List Stage) :
    (startOp op first rest s).delay = s.delay := rfl
@[simp] theorem startOp_inFlight (op : RunOp) (first : Stage) (rest : List Stage) :
    (startOp op first rest s).inFlight = s.inFlight := rfl
@[simp] theorem startOp_done (op : RunOp) (first : Stage) (rest : List Stage) :
    (startOp op first rest s).done = s.done := rfl
@[simp] theorem startOp_wire (op : RunOp) (first : Stage) (rest : List Stage) :
    (startOp op first rest s).wire = s.wire := rfl
@[simp] theorem startOp_cmdQueue (op : RunOp) (first : Stage) (rest : List Stage) :
    (startOp op first rest s).cmdQueue = s.cmdQueue := rfl
@[simp] theorem startOp_rstIn (op : RunOp) (first : Stage) (rest : List Stage) :
    (startOp op first rest s).rstIn = s.rstIn := rfl
@[simp] theorem startOp_env (op : RunOp) (first : Stage) (rest : List Stage) :
    (startOp op first rest s).env = s.env := rfl

@[simp] theorem nextInputs_cfg : (nextInputs s).cfg = s.cfg := rfl
@[simp] theorem nextInputs_config : (nextInputs s).config = s.config := rfl
@[simp] theorem nextInputs_pstate : (nextInputs s).pstate = s.pstate := rfl
@[simp] theorem nextInputs_busy : (nextInputs s).busy = s.busy := rfl
@[simp] theorem nextInputs_err : (nextInputs s).err = s.err := rfl
@[simp] theorem nextInputs_lastOp : (nextInputs s).lastOp = s.lastOp := rfl
@[simp] theorem nextInputs_result : (nextInputs s).result = s.result := rfl
@[simp] theorem nextInputs_errStep : (nextInputs s).errStep = s.errStep := rfl
@[simp] theorem nextInputs_errByte : (nextInputs s).errByte = s.errByte := rfl
@[simp] theorem nextInputs_dc : (nextInputs s).dc = s.dc := rfl
@[simp] theorem nextInputs_csN : (nextInputs s).csN = s.csN := rfl
@[simp] theorem nextInputs_rstN : (nextInputs s).rstN = s.rstN := rfl
@[simp] theorem nextInputs_canvas : (nextInputs s).canvas = s.canvas := rfl
@[simp] theorem nextInputs_pc : (nextInputs s).pc = s.pc := rfl
@[simp] theorem nextInputs_delay : (nextInputs s).delay = s.delay := rfl
@[simp] theorem nextInputs_inFlight : (nextInputs s).inFlight = s.inFlight := rfl
@[simp] theorem nextInputs_done : (nextInputs s).done = false := rfl
@[simp] theorem nextInputs_wire : (nextInputs s).wire = s.wire := rfl
@[simp] theorem nextInputs_cmdQueue : (nextInputs s).cmdQueue = s.cmdQueue := rfl
@[simp] theorem nextInputs_rstIn : (nextInputs s).rstIn = s.rstIn.tail := rfl
@[simp] theorem nextInputs_env : (nextInputs s).env = s.env := rfl

@[simp] theorem acceptWord_cfg : (acceptWord s).cfg = s.cfg := rfl
@[simp] theorem acceptWord_config : (acceptWord s).config = s.config := rfl
@[simp] theorem acceptWord_pstate : (acceptWord s).pstate = s.pstate := rfl
@[simp] theorem acceptWord_busy : (acceptWord s).busy = true := rfl
@[simp] theorem acceptWord_err : (acceptWord s).err = s.err := rfl
@[simp] theorem acceptWord_lastOp : (acceptWord s).lastOp = s.lastOp := rfl
@[simp] theorem acceptWord_result : (acceptWord s).result = s.result := rfl
@[simp] theorem acceptWord_errStep : (acceptWord s).errStep = s.errStep := rfl
@[simp] theorem acceptWord_errByte : (acceptWord s).errByte = s.errByte := rfl
@[simp] theorem acceptWord_dc : (acceptWord s).dc = s.dc := rfl
@[simp] theorem acceptWord_csN : (acceptWord s).csN = s.csN := rfl
@[simp] theorem acceptWord_rstN : (acceptWord s).rstN = s.rstN := rfl
@[simp] theorem acceptWord_canvas : (acceptWord s).canvas = s.canvas := rfl
@[simp] theorem acceptWord_pc : (acceptWord s).pc = s.pc := rfl
@[simp] theorem acceptWord_delay : (acceptWord s).delay = s.delay := rfl
@[simp] theorem acceptWord_inFlight : (acceptWord s).inFlight = s.inFlight := rfl
@[simp] theorem acceptWord_done : (acceptWord s).done = s.done := rfl
@[simp] theorem acceptWord_wire : (acceptWord s).wire = s.wire := rfl
@[simp] theorem acceptWord_cmdQueue : (acceptWord s).cmdQueue = s.cmdQueue.tail := rfl
@[simp] theorem acceptWord_rstIn : (acceptWord s).rstIn = s.rstIn := rfl
@[simp] theorem acceptWord_env : (acceptWord s).env = s.env := rfl

@[simp] theorem blockReset_cfg : (blockReset s).cfg = s.cfg := rfl
@[simp] theorem blockReset_config : (blockReset s).config = s.config := rfl
@[simp] theorem blockReset_pstate : (blockReset s).pstate = .uninitialized := rfl
@[simp] theorem blockReset_busy : (blockReset s).busy = false := rfl
@[simp] theorem blockReset_err : (blockReset s).err = .ok := rfl
@[simp] theorem blockReset_lastOp : (blockReset s).lastOp = 0#4 := rfl
@[simp] theorem blockReset_result : (blockReset s).result = 0#32 := rfl
@[simp] theorem blockReset_errStep : (blockReset s).errStep = 0#32 := rfl
@[simp] theorem blockReset_errByte : (blockReset s).errByte = 0#32 := rfl
@[simp] theorem blockReset_dc : (blockReset s).dc = 0#1 := rfl
@[simp] theorem blockReset_csN : (blockReset s).csN = 0#1 := rfl
@[simp] theorem blockReset_rstN : (blockReset s).rstN = 0#1 := rfl
@[simp] theorem blockReset_canvas : (blockReset s).canvas = [] := rfl
@[simp] theorem blockReset_pc : (blockReset s).pc = .idle := rfl
@[simp] theorem blockReset_delay : (blockReset s).delay = none := rfl
@[simp] theorem blockReset_inFlight : (blockReset s).inFlight = none := rfl
@[simp] theorem blockReset_done : (blockReset s).done = false := rfl
@[simp] theorem blockReset_wire : (blockReset s).wire = s.wire := rfl
@[simp] theorem blockReset_cmdQueue : (blockReset s).cmdQueue = s.cmdQueue := rfl
@[simp] theorem blockReset_rstIn : (blockReset s).rstIn = s.rstIn := rfl
@[simp] theorem blockReset_env : (blockReset s).env = s.env := rfl

/-- A well-formed configuration gives the block after block reset (R9). -/
theorem instantiate_ok {p : Panel} (h : p.wf = true) :
    instantiate p = .ok (State.resetWith ⟨p, h⟩) := dif_pos h

/-- An ill-formed configuration is refused (R9, R238). -/
theorem instantiate_error {p : Panel} (h : p.wf = false) : instantiate p = .error .illFormed :=
  dif_neg (by simp [h])

end Sys2Proof.Machine
end

