-- ==== Sys2Proof/Laws/Steps.lean ====
section
/-! SUPPORT. What a step can do, said once: the equations of `step`, its inversion, the fields that no
primitive touches, and runs of several steps. -/

namespace Sys2Proof.Machine

variable {s t u : State} {p : Pos} {i : Instr} {w : Word} {q : List (Option Word)}

/-- A step with `rst` asserted is block reset. -/
theorem step_rst (h : rstAsserted s = true) : step s = .next (blockReset (nextInputs s)) := by
  simp [step, h]

/-- A step while an operation is in progress is one primitive. -/
theorem step_busy (hr : rstAsserted s = false) (hb : s.busy = true) (hp : s.pc = .run p) :
    step s = .next (seqStep p (nextInputs s)) := by
  simp [step, hr, runStep, hb, hp]

/-- A step with no word at the port only moves the inputs on. -/
theorem step_wait (hr : rstAsserted s = false) (hb : s.busy = false) (hp : s.pc = .idle)
    (hq : s.cmdQueue = []) : step s = .next (nextInputs s) := by
  simp [step, hr, runStep, hb, hp, hq]

/-- A step with `cmd_valid` low only moves the inputs on. -/
theorem step_none (hr : rstAsserted s = false) (hb : s.busy = false) (hp : s.pc = .idle)
    (hq : s.cmdQueue = none :: q) : step s = .next { nextInputs s with cmdQueue := q } := by
  simp [step, hr, runStep, hb, hp, hq]

/-- A step with a word at the port accepts it. -/
theorem step_accept (hr : rstAsserted s = false) (hb : s.busy = false) (hp : s.pc = .idle)
    (hq : s.cmdQueue = some w :: q) : step s = onAccept w (nextInputs s) := by
  simp [step, hr, runStep, hb, hp, hq]

/-- Every meaning answers a next state. -/
theorem exec_next (i : Instr) (s : State) : ∃ t, exec i s = .next t := by
  cases i <;> exact ⟨_, rfl⟩

/-- Acceptance answers a next state. -/
theorem onAccept_next (w : Word) (s : State) : ∃ t, onAccept w s = .next t := by
  unfold onAccept
  split
  · exact ⟨_, rfl⟩
  · exact exec_next ..

/-- Everything a step can do when it answers a next state. -/
theorem step_cases (h : step s = .next t) :
    (rstAsserted s = true ∧ t = blockReset (nextInputs s)) ∨
    (rstAsserted s = false ∧ s.busy = true ∧
      ∃ p, s.pc = .run p ∧ t = seqStep p (nextInputs s)) ∨
    (rstAsserted s = false ∧ s.busy = false ∧ s.pc = .idle ∧ s.cmdQueue.head?.join = none ∧
      t = { nextInputs s with cmdQueue := s.cmdQueue.tail }) ∨
    (rstAsserted s = false ∧ s.busy = false ∧ s.pc = .idle ∧
      ∃ w q e, s.cmdQueue = some w :: q ∧ decode w = .error e ∧
        t = completeIllegal w (acceptWord (nextInputs s))) ∨
    (rstAsserted s = false ∧ s.busy = false ∧ s.pc = .idle ∧
      ∃ w q i, s.cmdQueue = some w :: q ∧ decode w = .ok i ∧
        exec i (acceptWord (nextInputs s)) = .next t) := by
  rcases hr : rstAsserted s with _ | _
  · rcases hb : s.busy with _ | _ <;> rcases hp : s.pc with _ | p
    · rcases hq : s.cmdQueue with _ | ⟨_ | w, q⟩
      · rw [step_wait hr hb hp hq] at h
        cases h
        exact .inr (.inr (.inl ⟨rfl, rfl, rfl, rfl, by simp [nextInputs, hq]⟩))
      · rw [step_none hr hb hp hq] at h
        cases h
        exact .inr (.inr (.inl ⟨rfl, rfl, rfl, rfl, rfl⟩))
      · rw [step_accept hr hb hp hq, onAccept] at h
        rcases hd : decode w with e | i <;> rw [hd] at h
        · cases h
          exact .inr (.inr (.inr (.inl ⟨rfl, rfl, rfl, w, q, e, rfl, hd, rfl⟩)))
        · exact .inr (.inr (.inr (.inr ⟨rfl, rfl, rfl, w, q, i, rfl, hd, h⟩)))
    · simp [step, hr, runStep, hb, hp] at h
    · simp [step, hr, runStep, hb, hp] at h
    · rw [step_busy hr hb hp] at h
      cases h
      exact .inr (.inl ⟨rfl, rfl, p, rfl, rfl⟩)
  · rw [step_rst hr] at h
    cases h
    exact .inl ⟨rfl, rfl⟩

/-- A step stops only where BUSY and `pc` disagree. -/
theorem step_next (h : s.busy = s.pc.isRun) : ∃ t, step s = .next t := by
  rcases hr : rstAsserted s with _ | _
  · rcases hp : s.pc with _ | p <;> rw [hp] at h
    · rcases hq : s.cmdQueue with _ | ⟨_ | w, q⟩
      · exact ⟨_, step_wait hr h hp hq⟩
      · exact ⟨_, step_none hr h hp hq⟩
      · rw [step_accept hr h hp hq]; exact onAccept_next ..
    · exact ⟨_, step_busy hr h hp⟩
  · exact ⟨_, step_rst hr⟩

/-- What the end of an operation leaves alone. -/
theorem finishOp_frame (op : RunOp) (s : State) :
    (finishOp op s).cfg = s.cfg ∧ (finishOp op s).canvas = s.canvas ∧
    (finishOp op s).result = s.result ∧ (finishOp op s).cmdQueue = s.cmdQueue ∧
    (finishOp op s).rstIn = s.rstIn ∧ (finishOp op s).env = s.env ∧
    (finishOp op s).wire = s.wire ∧ (finishOp op s).dc = s.dc ∧ (finishOp op s).csN = s.csN ∧
    (finishOp op s).rstN = s.rstN ∧ (finishOp op s).delay = s.delay ∧
    (finishOp op s).inFlight = s.inFlight := by
  cases op <;> simp [finishOp, finishReset, finishInit, finishClear, finishDisplay, finishSleep]

/-- What the end of an operation writes: the completion of R225 with the operation's OP field. -/
theorem finishOp_complete (op : RunOp) (s : State) :
    (finishOp op s).err = .ok ∧ (finishOp op s).lastOp = op.code ∧
    (finishOp op s).errStep = 0#32 ∧ (finishOp op s).errByte = 0#32 ∧
    (finishOp op s).pc = .idle ∧ (finishOp op s).busy = false ∧ (finishOp op s).done = true := by
  cases op <;>
    simp [finishOp, finishReset, finishInit, finishClear, finishDisplay, finishSleep, RunOp.code]

/-- What going to the next step of the sequence leaves alone. -/
theorem nextStage_frame (p : Pos) (s : State) :
    (nextStage p s).cfg = s.cfg ∧ (nextStage p s).canvas = s.canvas ∧
    (nextStage p s).result = s.result ∧ (nextStage p s).cmdQueue = s.cmdQueue ∧
    (nextStage p s).rstIn = s.rstIn ∧ (nextStage p s).env = s.env ∧
    (nextStage p s).wire = s.wire ∧ (nextStage p s).dc = s.dc ∧ (nextStage p s).csN = s.csN ∧
    (nextStage p s).rstN = s.rstN ∧ (nextStage p s).delay = s.delay ∧
    (nextStage p s).inFlight = s.inFlight := by
  unfold nextStage
  split
  · exact finishOp_frame ..
  · simp

/-- What going to the next byte leaves alone. -/
theorem nextByte_frame (p : Pos) (s : State) :
    (nextByte p s).cfg = s.cfg ∧ (nextByte p s).canvas = s.canvas ∧
    (nextByte p s).result = s.result ∧ (nextByte p s).cmdQueue = s.cmdQueue ∧
    (nextByte p s).rstIn = s.rstIn ∧ (nextByte p s).env = s.env ∧
    (nextByte p s).wire = s.wire ∧ (nextByte p s).dc = s.dc ∧ (nextByte p s).csN = s.csN ∧
    (nextByte p s).rstN = s.rstN ∧ (nextByte p s).delay = s.delay ∧
    (nextByte p s).inFlight = s.inFlight := by
  unfold nextByte
  split <;> split
  · simp
  · exact nextStage_frame ..
  · simp
  · exact nextStage_frame ..

/-- A delay step either changes only the timer, the draws and the wire, or ends the delay and goes on. -/
theorem delayStep_cases (n : DelayName) (after : State → State) (s : State) :
    (s.delay = none ∧ delayStep n after s = emit (.delay n (delayTicks s.cfg n))
      { s with env := s.env.drawLate.2, delay := some ⟨n, 0, s.env.drawLate.1⟩ }) ∨
    (∃ d, s.delay = some d ∧ d.elapsed < delayTicks s.cfg n + d.late ∧
      delayStep n after s = { s with delay := some { d with elapsed := d.elapsed + 1 } }) ∨
    (∃ d, s.delay = some d ∧ delayTicks s.cfg n + d.late ≤ d.elapsed ∧
      delayStep n after s = after { s with delay := none }) := by
  unfold delayStep
  rcases s.delay with _ | d
  · exact .inl ⟨rfl, rfl⟩
  · by_cases hd : d.elapsed < delayTicks s.cfg n + d.late
    · exact .inr (.inl ⟨d, rfl, hd, if_pos hd⟩)
    · exact .inr (.inr ⟨d, rfl, Nat.le_of_not_lt hd, if_neg hd⟩)

/-- The fields that no primitive of an operation touches (R28, R29, R36, R65). -/
theorem seqStep_frame (p : Pos) (s : State) :
    (seqStep p s).cfg = s.cfg ∧ (seqStep p s).canvas = s.canvas ∧
    (seqStep p s).result = s.result ∧ (seqStep p s).cmdQueue = s.cmdQueue ∧
    (seqStep p s).rstIn = s.rstIn := by
  have hdelay : ∀ n after, (∀ s : State, (after s).cfg = s.cfg ∧ (after s).canvas = s.canvas ∧
      (after s).result = s.result ∧ (after s).cmdQueue = s.cmdQueue ∧ (after s).rstIn = s.rstIn) →
      (delayStep n after s).cfg = s.cfg ∧ (delayStep n after s).canvas = s.canvas ∧
      (delayStep n after s).result = s.result ∧ (delayStep n after s).cmdQueue = s.cmdQueue ∧
      (delayStep n after s).rstIn = s.rstIn := by
    intro n after ha
    obtain ⟨-, h⟩ | ⟨d, -, -, h⟩ | ⟨d, -, -, h⟩ := delayStep_cases n after s <;> rw [h]
    · simp
    · simp
    · exact ha _
  have hstage : ∀ s : State, (nextStage p s).cfg = s.cfg ∧ (nextStage p s).canvas = s.canvas ∧
      (nextStage p s).result = s.result ∧ (nextStage p s).cmdQueue = s.cmdQueue ∧
      (nextStage p s).rstIn = s.rstIn := fun s =>
    ⟨(nextStage_frame p s).1, (nextStage_frame p s).2.1, (nextStage_frame p s).2.2.1,
      (nextStage_frame p s).2.2.2.1, (nextStage_frame p s).2.2.2.2.1⟩
  unfold seqStep
  split
  · simp [pulsePin]
  · exact hdelay _ _ fun s => by simp [afterPulseDelay]
  · simp [pulsePin]
  · exact hdelay _ _ fun s => by simp [afterPulseDelay]
  · simpa using hstage (setPin .rstN 1#1 s)
  · simp [sendDc]
  · simp [sendCsLow]
  · unfold sendXfer
    split
    · simp
    · split <;> simp
  · unfold sendCsHigh
    split
    · have h := nextByte_frame p (setPin .csN 1#1 s)
      simpa using ⟨h.1, h.2.1, h.2.2.1, h.2.2.2.1, h.2.2.2.2.1⟩
    · simp
  · exact hdelay _ _ hstage
  · unfold pollBusy
    split
    · have h := nextStage_frame { p with polls := countPoll p.polls }
        (emit (.sample s.env.drawLevel.1) { s with env := s.env.drawLevel.2 })
      simpa using ⟨h.1, h.2.1, h.2.2.1, h.2.2.2.1, h.2.2.2.2.1⟩
    · split <;> simp
  · exact hdelay _ _ fun s => by simp

/-- A run of no steps. -/
theorem Reaches.refl (s : State) : Reaches s s := ⟨0, rfl⟩

/-- A run whose first step answers a next state. -/
theorem run_succ {n : Nat} (h : step s = .next t) :
    Host.Core.run Sys2Proof.core (n + 1) s = Host.Core.run Sys2Proof.core n t := by
  simp only [Host.Core.run, show Sys2Proof.core.step s = .next t from h]

/-- The first step of a run that arrives answers a next state. -/
theorem run_succ_next {n : Nat} (h : Host.Core.run Sys2Proof.core (n + 1) s = .next t) :
    ∃ u, step s = .next u ∧ Host.Core.run Sys2Proof.core n u = .next t := by
  rcases hs : step s with u | r | r
  · exact ⟨u, rfl, (run_succ hs).symm.trans h⟩
  · simp only [Host.Core.run, show Sys2Proof.core.step s = .fault r from hs] at h
    cases h
  · simp only [Host.Core.run, show Sys2Proof.core.step s = .refused r from hs] at h
    cases h

/-- A run of `n` steps and then one of `m`. -/
theorem run_add {n m : Nat} (h : Host.Core.run Sys2Proof.core n s = .next t) :
    Host.Core.run Sys2Proof.core (n + m) s = Host.Core.run Sys2Proof.core m t := by
  induction n generalizing s with
  | zero => cases h; rw [Nat.zero_add]
  | succ n ih =>
    obtain ⟨u, hu, h⟩ := run_succ_next h
    rw [show n + 1 + m = (n + m) + 1 by omega, run_succ hu, ih h]

/-- Runs compose. -/
theorem Reaches.trans (h : Reaches s t) (h' : Reaches t u) : Reaches s u := by
  obtain ⟨n, hn⟩ := h
  obtain ⟨m, hm⟩ := h'
  exact ⟨n + m, (run_add hn).trans hm⟩

/-- One step is a run. -/
theorem Reaches.one (h : step s = .next t) : Reaches s t := ⟨1, run_succ h⟩

/-- One step and then a run. -/
theorem Reaches.head (h : step s = .next t) (h' : Reaches t u) : Reaches s u :=
  (Reaches.one h).trans h'

/-- What every step keeps, every run keeps. -/
theorem Reaches.keeps {P : State → Prop} (hstep : ∀ {a b}, P a → step a = .next b → P b)
    (hs : P s) (h : Reaches s t) : P t := by
  obtain ⟨n, hn⟩ := h
  induction n generalizing s with
  | zero => cases hn; exact hs
  | succ n ih =>
    obtain ⟨u, hu, hn⟩ := run_succ_next hn
    exact ih (hstep hs hu) hn

end Sys2Proof.Machine
end

