-- ==== Sys2Proof/Laws/Coherence.lean ====
section
/-! SUPPORT. The invariant of `Coherent`, piece by piece: which parts of it each primitive and each
meaning keeps. -/

namespace Sys2Proof.Machine

/-- A repeated step is that step. -/
theorem mem_repeated {st : Stage} {id : StepId} {n : Nat}
    (h : st ∈ repeated id n) : st.step = id := by
  simp only [repeated, List.mem_map] at h
  obtain ⟨k, -, rfl⟩ := h; rfl

/-- INIT's later steps are neither NONE nor the reset pulse. -/
theorem initRest_step {cfg : Panel} {st : Stage} (h : st ∈ initRest cfg) :
    st.step ≠ .noStep ∧ st.step ≠ .resetPulse := by
  simp only [initRest, List.mem_append, List.mem_cons, List.not_mem_nil, or_false] at h
  rcases h with ((h | h) | h) | h
  · rcases h with rfl | rfl <;> simp [single]
  · simp [mem_repeated h]
  · rcases h with rfl | rfl | rfl | rfl | rfl | rfl <;> simp [single]
  · simp [mem_repeated h]

/-- No sequence contains the step NONE (R26). -/
theorem plan_noStep {cfg : Panel} {op : RunOp} {st : Stage} (h : st ∈ plan cfg op) :
    st.step ≠ .noStep := by
  cases op <;> simp only [plan, List.mem_cons, clearRest, displayRest, turnOnDisplay, sleepRest,
      List.not_mem_nil, or_false] at h
  · subst h; simp [single]
  · rcases h with rfl | h
    · simp [single]
    · exact (initRest_step h).1
  · rcases h with rfl | rfl | rfl | rfl <;> simp [single]
  · rcases h with rfl | rfl | rfl | rfl <;> simp [single]
  · rcases h with rfl | rfl | rfl <;> simp [single]

/-- The sub-index of a repeated step is below the number of repetitions. -/
theorem mem_repeated_sub {st : Stage} {id : StepId} {n : Nat} (h : st ∈ repeated id n)
    (hn : n ≤ 256) : st.sub.toNat < n := by
  simp only [repeated, List.mem_map, List.mem_range] at h
  obtain ⟨k, hk, rfl⟩ := h
  simp only [BitVec.toNat_ofNat]
  omega

/-- Every step of a sequence that takes a listed entry finds it: no position of a well-formed
configuration's sequences reads `missingEntry` (R9, R153). -/
theorem plan_entry {cfg : Panel} {op : RunOp} {st : Stage} (hcfg : cfg.wf = true)
    (h : st ∈ plan cfg op) :
    (st.step = .powerOptimization → st.sub.toNat < cfg.powopt.length) ∧
    (st.step = .lut → st.sub.toNat < cfg.lut.length) := by
  simp only [Panel.wf, Bool.and_eq_true, decide_eq_true_eq, beq_iff_eq] at hcfg
  obtain ⟨⟨⟨⟨⟨⟨-, hl⟩, hp⟩, -⟩, -⟩, -⟩, -⟩ := hcfg
  cases op <;> simp only [plan, List.mem_cons, clearRest, displayRest, turnOnDisplay, sleepRest,
      List.not_mem_nil, or_false] at h
  · subst h; simp [single]
  · simp only [initRest, List.mem_append, List.mem_cons, List.not_mem_nil, or_false] at h
    rcases h with rfl | ((h | h) | h) | h
    · simp [single]
    · rcases h with rfl | rfl <;> simp [single]
    · simp [mem_repeated h, mem_repeated_sub h hp]
    · rcases h with rfl | rfl | rfl | rfl | rfl | rfl <;> simp [single]
    · simp [mem_repeated h, hl, mem_repeated_sub h (by omega)]
  · rcases h with rfl | rfl | rfl | rfl <;> simp [single]
  · rcases h with rfl | rfl | rfl | rfl <;> simp [single]
  · rcases h with rfl | rfl | rfl <;> simp [single]

/-- The reset pulse is only ever the first step, of RESET or INIT (R152, R153). -/
theorem plan_pulse {cfg : Panel} {op : RunOp} {st : Stage} {rest : List Stage}
    (h : (st :: rest) <:+ plan cfg op) :
    (st.step = .resetPulse → (op = .reset ∧ rest = []) ∨ (op = .init ∧ rest = initRest cfg)) ∧
    (∀ x ∈ rest, x.step ≠ .resetPulse) := by
  have key : ∀ l : List Stage, (∀ x ∈ l, x.step ≠ .resetPulse) → (st :: rest) <:+ l →
      st.step ≠ .resetPulse ∧ ∀ x ∈ rest, x.step ≠ .resetPulse := fun l hl hs =>
    ⟨hl _ (hs.mem (List.mem_cons_self ..)), fun x hx => hl _ (hs.mem (List.mem_cons_of_mem _ hx))⟩
  cases op <;> simp only [plan] at h
  · rcases List.suffix_cons_iff.1 h with h | h
    · cases h; simp
    · exact absurd h (by simp)
  · rcases List.suffix_cons_iff.1 h with h | h
    · cases h; exact ⟨fun _ => .inr ⟨rfl, rfl⟩, fun x hx => (initRest_step hx).2⟩
    · have := key _ (fun x hx => (initRest_step hx).2) h
      exact ⟨fun e => absurd e this.1, this.2⟩
  · have := key _ (by simp [clearRest, turnOnDisplay, single]) h
    exact ⟨fun e => absurd e this.1, this.2⟩
  · have := key _ (by simp [displayRest, turnOnDisplay, single]) h
    exact ⟨fun e => absurd e this.1, this.2⟩
  · have := key _ (by simp [sleepRest, single]) h
    exact ⟨fun e => absurd e this.1, this.2⟩

/-- The part of `Coherent` that does not look at `pc`. -/
structure Base (s : State) : Prop where
  canvas_wf : s.canvas.wf = true
  canvas_within : s.canvas.within (s.cfg.width * s.cfg.height) = true
  result_reserved : s.result.extractLsb' 8 24 = 0#24
  errStep_reserved : s.errStep.extractLsb' 17 15 = 0#15
  context : contextLegal s = true

/-- The part of `Coherent` about `pc`. -/
structure PcOk (s : State) : Prop where
  busy_pc : s.busy = s.pc.isRun
  pc_legal : s.pc.legal s.cfg = true
  waiting : waitingLegal s = true
  pins : pinsLegal s = true
  ready : pstateLegal s = true

/-- `Coherent` in its two parts. -/
theorem coherent_iff (s : State) : Coherent s ↔ Base s ∧ PcOk s :=
  ⟨fun h => ⟨⟨h.3, h.4, h.5, h.6, h.7⟩, ⟨h.1, h.2, h.8, h.9, h.10⟩⟩,
   fun ⟨h, k⟩ => ⟨k.1, k.2, h.1, h.2, h.3, h.4, h.5, k.3, k.4, k.5⟩⟩

/-- The state an operation needs (R158). -/
def opReady (op : RunOp) (s : State) : Prop :=
  match op with
  | .reset | .init => True
  | .clear | .display | .sleep => s.pstate = .ready

/-- No timeout before the first sample (R9, R224). -/
theorem timedOut_zero {cfg : Panel} (h : cfg.wf = true) : timedOut cfg 0#32 = false := by
  simp only [Panel.wf, Bool.and_eq_true] at h
  unfold timedOut
  rcases ht : cfg.busyTimeoutPolls with _ | n
  · rfl
  · have := h.2; rw [ht] at this; simp [timeoutWf] at this; simp; omega

/-- The start of a step of the sequence is a legal position. -/
theorem enterStage_legal {cfg : Panel} {op : RunOp} {st : Stage} {rest : List Stage}
    (hcfg : cfg.wf = true) (h : (st :: rest) <:+ plan cfg op) :
    (enterStage op st rest).legal cfg = true := by
  have hno := plan_noStep (h.mem (List.mem_cons_self ..))
  have h0 := timedOut_zero hcfg
  obtain ⟨step, sub⟩ := st
  cases step <;> simp_all [Pos.legal, enterStage, StepId.kind, StepId.firstPhase,
      StepId.firstPrim, Prim.ofByte, pulseLegal]

/-- Going to the next step of the sequence keeps `PcOk`. -/
theorem nextStage_ok {p : Pos} {s : State} (hb : s.busy = true)
    (hp : (⟨p.step, p.sub⟩ :: p.rest) <:+ plan s.cfg p.op) (hd : s.delay = none)
        (hf : s.inFlight = none)
    (hr : opReady p.op s) (hrst : s.rstN = 1#1) (hcs : p.step ≠ .resetPulse → s.csN = 1#1) :
    PcOk (nextStage p s) := by
  have hpulse := plan_pulse hp
  unfold nextStage
  split
  · rename_i hrest
    have hidle : (finishOp p.op s).pc = .idle := (finishOp_complete p.op s).2.2.2.2.1
    have hfr := finishOp_frame p.op s
    refine ⟨by rw [hidle, (finishOp_complete p.op s).2.2.2.2.2.1]; rfl, by rw [hidle]; rfl, ?_,
        ?_, ?_⟩
    · simp [waitingLegal, hidle, hfr, hd, hf]
    · simp only [pinsLegal, hidle, hfr]
      rw [hrest] at hpulse
      have : p.op ≠ .reset → s.csN = 1#1 := fun hne => hcs fun he => by
        rcases hpulse.1 he with h | h
        · exact hne h.1
        · simp [initRest] at h
      rcases hop : p.op <;> simp_all [finishOp, finishReset, finishInit, finishClear,
          finishDisplay, finishSleep]
    · simp [pstateLegal, hidle]
  · rename_i st rest hrest
    rw [hrest] at hp hpulse
    have hs : (st :: rest) <:+ plan s.cfg p.op := (List.suffix_cons _ _).trans hp
    refine ⟨by simpa [Pc.isRun] using hb, by simpa [Pc.legal] using enterStage_legal s.cfg_wf hs, ?_,
        ?_, ?_⟩
    · simp [waitingLegal, hd, hf]
    · have hcs' : (enterStage p.op st rest).next = .refreshSettle ∨
          (enterStage p.op st rest).next = .sample →
          s.csN = 1#1 := fun hn => hcs fun he => by
        rcases hpulse.1 he with h | h
        · simp at h
        · have : st = single .powerSetting := by have := h.2; simp [initRest] at this; exact this.1
          subst this
          simp [enterStage, single, StepId.firstPrim] at hn
      simp only [pinsLegal, goTo_pc, goTo_rstN, goTo_csN, goTo_dc, hrst]
      simp only [enterStage] at hcs' ⊢
      rcases hst : st.step <;> simp_all [StepId.firstPrim]
    · simp only [pstateLegal, goTo_pc, goTo_pstate, enterStage]
      unfold opReady at hr
      split <;> simp_all

/-- ERRSTEP[31:17] are 0 in every error context (R30). -/
theorem errStepWord_reserved (ph : Bit) (sub st : Byte) :
    (errStepWord ph sub st).extractLsb' 17 15 = 0#15 := by
  unfold errStepWord
  apply BitVec.eq_of_getLsbD_eq
  intro i hi
  simp only [BitVec.getLsbD_extractLsb', BitVec.getLsbD_append]
  have h1 : ¬ (17 + i < 8) := by omega
  have h2 : ¬ (17 + i - 8 < 8) := by omega
  have h3 : ¬ (17 + i - 8 - 8 < 1) := by omega
  simp [h1, h2, h3]

/-- `Base` passes to a state with the same configuration, canvas and RESULT. -/
theorem base_of {s t : State} (h : Base s) (hcfg : t.cfg = s.cfg) (hc : t.canvas = s.canvas)
    (hr : t.result = s.result) (he : t.errStep.extractLsb' 17 15 = 0#15)
        (hx : contextLegal t = true) : Base t :=
  ⟨hc ▸ h.1, by rw [hc, hcfg]; exact h.2, hr ▸ h.3, he, hx⟩

/-- The end of a step keeps ERR and its context, or clears the context. -/
theorem nextStage_regs (p : Pos) (s : State) :
    ((nextStage p s).err = s.err ∧ (nextStage p s).errStep = s.errStep ∧
        (nextStage p s).errByte = s.errByte) ∨
    ((nextStage p s).errStep = 0#32 ∧ (nextStage p s).errByte = 0#32) := by
  unfold nextStage
  split
  · right; exact ⟨(finishOp_complete p.op s).2.2.1, (finishOp_complete p.op s).2.2.2.1⟩
  · left; simp

/-- `Base` passes to a state whose error registers are as before, cleared, or a new context. -/
theorem base_regs {s t : State} (h : Base s) (hf : t.cfg = s.cfg ∧ t.canvas = s.canvas ∧
    t.result = s.result)
    (hr : (t.err = s.err ∧ t.errStep = s.errStep ∧ t.errByte = s.errByte) ∨ (t.errStep = 0#32 ∧
        t.errByte = 0#32) ∨
      ((t.err = .transport ∨ t.err = .unresponsive) ∧
          t.errStep.extractLsb' 17 15 = 0#15)) : Base t := by
  have hx := h.context
  refine base_of h hf.1 hf.2.1 hf.2.2 ?_ ?_
  · rcases hr with hr | hr | hr
    · rw [hr.2.1]; exact h.errStep_reserved
    · rw [hr.1]; rfl
    · exact hr.2
  · rcases hr with hr | hr | hr
    · simpa [contextLegal, hr] using hx
    · simp [contextLegal, hr]
    · rcases hr.1 with h | h <;> simp [contextLegal, h]

/-- A delay keeps `Base`. -/
theorem delay_base {n : DelayName} {after : State → State} {s : State} (h : Base s)
    (ha : ∀ s, Base s → Base (after s)) : Base (delayStep n after s) := by
  obtain ⟨-, e⟩ | ⟨d, -, -, e⟩ | ⟨d, -, -, e⟩ := delayStep_cases n after s <;> rw [e]
  · exact base_regs h (by simp) (by simp)
  · exact base_regs h (by simp) (by simp)
  · exact ha _ (base_regs h (by simp) (by simp))

/-- The end of a step keeps `Base`. -/
theorem nextStage_base {p : Pos} {s : State} (h : Base s) : Base (nextStage p s) := by
  have hf := nextStage_frame p s
  exact base_regs h ⟨hf.1, hf.2.1, hf.2.2.1⟩ ((nextStage_regs p s).imp_right .inl)

/-- The end of a byte keeps `Base`. -/
theorem nextByte_base {p : Pos} {s : State} (h : Base s) : Base (nextByte p s) := by
  unfold nextByte
  split <;> split
  · exact base_regs h (by simp) (by simp)
  · exact nextStage_base h
  · exact base_regs h (by simp) (by simp)
  · exact nextStage_base h

/-- Every primitive keeps `Base`. -/
theorem seqStep_base {p : Pos} {s : State} (h : Base s) : Base (seqStep p s) := by
  have hgo : ∀ p s, Base s → Base (goTo p s) := fun p s h => base_regs h (by simp) (by simp)
  have hpin : ∀ q v s, Base s → Base (setPin q v s) := fun p v s h => base_regs h (by simp)
      (by simp)
  unfold seqStep
  split
  · exact hgo _ _ (hpin _ _ _ h)
  · exact delay_base h fun s => hgo _ _
  · exact hgo _ _ (hpin _ _ _ h)
  · exact delay_base h fun s => hgo _ _
  · exact nextStage_base (hpin _ _ _ h)
  · exact hgo _ _ (hpin _ _ _ h)
  · exact hgo _ _ (hpin _ _ _ h)
  · unfold sendXfer
    split
    · exact base_regs h (by simp) (by simp)
    · split <;> exact base_regs h (by simp) (by simp)
  · unfold sendCsHigh
    split
    · exact nextByte_base (hpin _ _ _ h)
    · exact base_regs h (by simp) (.inr (.inr ⟨by simp, by simp [errStepWord_reserved]⟩))
  · exact delay_base h fun s => nextStage_base
  · unfold pollBusy
    split
    · exact nextStage_base (base_regs h (by simp) (by simp))
    · split
      · exact base_regs h (by simp) (.inr (.inr ⟨by simp, by simp [errStepWord_reserved]⟩))
      · exact base_regs h (by simp) (by simp)
  · exact delay_base h fun s => hgo _ _

/-- An abort keeps `PcOk`. -/
theorem raise_ok {c st sub ph idx op} {s : State} (hd : s.delay = none) (hf : s.inFlight = none) :
    PcOk (raiseError c st sub ph idx op s) := by
  refine ⟨rfl, rfl, ?_, ?_, rfl⟩
  · simp [waitingLegal, hd, hf]
  · simp [pinsLegal]

/-- The end of a byte that went through keeps `PcOk`. -/
theorem nextByte_ok {p : Pos} {s : State} (hb : s.busy = true)
    (hp : p.legal s.cfg = true) (hk : p.step.kind = some .entry) (hd : s.delay = none)
        (hf : s.inFlight = none)
    (hr : opReady p.op s) (hrst : s.rstN = 1#1) (hcs : s.csN = 1#1) : PcOk (nextByte p s) := by
  have hsuf : (⟨p.step, p.sub⟩ :: p.rest) <:+ plan s.cfg p.op := by
    simp only [Pos.legal, Bool.and_eq_true, decide_eq_true_eq] at hp; exact hp.1
  have hst := nextStage_ok hb hsuf hd hf hr hrst (fun _ => hcs)
  have hgo : ∀ q : Pos, q.op = p.op → q.next = .setDc → q.legal s.cfg = true → PcOk (goTo q s) := by
    intro q hop hn hl
    refine ⟨by simpa [Pc.isRun] using hb, by simpa [Pc.legal] using hl, ?_, ?_, ?_⟩
    · simp [waitingLegal, hd, hf]
    · simp [pinsLegal, hn, hrst]
    · simp only [pstateLegal, goTo_pc, goTo_pstate, hop]; unfold opReady at hr; split <;> simp_all
  unfold nextByte
  split
  · split
    · refine hgo { p with phase := .data, idx := 0#32, next := .setDc } rfl rfl ?_
      simp [Pos.legal, hsuf, hk, Prim.ofByte]; assumption
    · exact hst
  · split
    · rename_i hlt
      refine hgo { p with idx := p.idx + 1#32, next := .setDc } rfl rfl ?_
      simp only [Pos.legal, hk, Bool.and_eq_true, Bool.or_eq_true, decide_eq_true_eq,
          beq_iff_eq] at hp
      have hidx : (p.idx + 1#32).toNat < dataLen s.cfg p.step p.sub := by
        have : (p.idx + 1#32).toNat ≤ p.idx.toNat + 1 := by
          rw [BitVec.toNat_add]; exact Nat.mod_le ..
        omega
      have hph : p.phase = .data := by rcases hp.2.2 with h | h; exacts [absurd h.1 ‹_›, h.1]
      simp [Pos.legal, hsuf, hk, Prim.ofByte, hph]; simpa using hidx
    · exact hst

/-- The kind of step a primitive belongs to. -/
def primKind : Prim → StepKind
  | .rstHigh | .rstHighSettle | .rstLow | .rstLowSettle | .rstHighAgain => .pulse
  | .setDc | .csLow | .xfer | .csHigh _ => .entry
  | .refreshSettle => .settle
  | .sample | .pollDelay => .wait

/-- At a legal position the step and the next primitive are of one kind. -/
theorem legal_kind {cfg : Panel} {p : Pos}
    (h : p.legal cfg = true) : p.step.kind = some (primKind p.next) := by
  simp only [Pos.legal, Bool.and_eq_true] at h
  have h := h.2
  generalize p.step.kind = k at h ⊢
  rcases k with _ | k
  · simp at h
  · cases k <;> cases hn : p.next <;> simp [hn, primKind, Prim.ofByte, pulseLegal] at h ⊢

/-- What `PcOk` says at a position. -/
theorem pcok_elim {p : Pos} {s : State} (hpc : s.pc = .run p) (h : PcOk s) :
    s.busy = true ∧ p.legal s.cfg = true ∧
    (p.next.delayName = none → s.delay = none) ∧ (p.next ≠ .xfer → s.inFlight = none) ∧
    (p.step ≠ .resetPulse → s.rstN = 1#1) ∧ opReady p.op s ∧
    (p.next = .csLow → s.dc = p.phase.dcLevel) ∧ (p.next = .xfer → s.dc = p.phase.dcLevel ∧
        s.csN = 0#1) ∧
    (∀ ok, p.next = .csHigh ok → s.dc = p.phase.dcLevel ∧ s.csN = 0#1) ∧
    (p.next = .refreshSettle ∨ p.next = .sample ∨ p.next = .pollDelay → s.csN = 1#1) ∧
    (∀ d, s.delay = some d → p.next.delayName = some d.name) := by
  obtain ⟨hb, hl, hw, hpi, hr⟩ := h
  simp only [hpc, Pc.isRun, Pc.legal, waitingLegal, pinsLegal, pstateLegal,
      Bool.and_eq_true] at hb hl hw hpi hr
  refine ⟨hb, hl, ?_, ?_, ?_, ?_, ?_, ?_, ?_, ?_, ?_⟩
  · intro hn
    rcases hd : s.delay with _ | d
    · rfl
    · simp [hd, hn] at hw
  · intro hn
    rcases hd : s.inFlight with _ | d
    · rfl
    · simp [hd, hn] at hw
  · intro hne; simpa [hne] using hpi.2
  · unfold opReady; cases hop : p.op <;> simp_all
  · intro hn; have := hpi.1; rw [hn] at this; simpa using this
  · intro hn; have := hpi.1; rw [hn] at this; simpa using this
  · intro ok hn; have := hpi.1; rw [hn] at this; simpa using this
  · rintro (hn | hn | hn) <;> (have := hpi.1; rw [hn] at this; simpa using this)
  · intro d hd; have := hw.1; rw [hd] at this; simp at this; exact this.1

/-- Going to a legal position of the same operation keeps `PcOk`. -/
theorem goTo_ok {p : Pos} {s : State} (q : Pos) (t : State) (hb : s.busy = true)
    (hr : opReady p.op s)
   (hop : q.op = p.op) (hql : q.legal s.cfg = true) (hc : t.cfg = s.cfg) (hbt : t.busy = s.busy)
   (hps : t.pstate = s.pstate) (hw : waitingLegal (goTo q t) = true)
       (hpi : pinsLegal (goTo q t) = true) : PcOk (goTo q t) := by
  refine ⟨by simp [Pc.isRun, hbt, hb], by simpa [Pc.legal, hc] using hql, hw, hpi, ?_⟩
  simp only [pstateLegal, goTo_pc, goTo_pstate, hop, hps]; unfold opReady at hr; split <;> simp_all

/-- A delay keeps `PcOk`, when what follows it does. -/
theorem delay_ok {p : Pos} {s : State} {n : DelayName} {after : State → State}
    (hpc : s.pc = .run p) (h : PcOk s)
    (hn : p.next.delayName = some n)
    (ha : ∀ t : State, t.cfg = s.cfg → t.busy = s.busy → t.pstate = s.pstate → t.delay = none →
        t.inFlight = none →
        t.rstN = s.rstN → t.csN = s.csN → PcOk (after t)) : PcOk (delayStep n after s) := by
  obtain ⟨hb, hl, -, hfl, -, -, -, -, -, -, hdn⟩ := pcok_elim hpc h
  have hx : p.next ≠ .xfer := by intro h; rw [h] at hn; cases hn
  have hfl := hfl hx
  obtain ⟨-, e⟩ | ⟨d, hd, hlt, e⟩ | ⟨d, hd, -, e⟩ := delayStep_cases n after s <;> rw [e]
  · refine ⟨by simp [hpc, Pc.isRun, hb], by simpa [hpc, Pc.legal] using hl, ?_, ?_, ?_⟩
    · simp [waitingLegal, hpc, hn, hfl]
    · have := h.pins; simp only [pinsLegal, hpc] at this; simpa [pinsLegal, hpc] using this
    · have := h.ready; simp only [pstateLegal, hpc] at this; simpa [pstateLegal, hpc] using this
  · refine ⟨by simp [hpc, Pc.isRun, hb], by simpa [hpc, Pc.legal] using hl, ?_, ?_, ?_⟩
    · have hnm : n = d.name := by have := hdn d hd; rw [hn] at this; exact Option.some.inj this
      simp [waitingLegal, hpc, hn, hfl, hnm]
      rw [hnm] at hlt; omega
    · have := h.pins; simp only [pinsLegal, hpc] at this; simpa [pinsLegal, hpc] using this
    · have := h.ready; simp only [pstateLegal, hpc] at this; simpa [pstateLegal, hpc] using this
  · exact ha _ rfl rfl rfl rfl hfl rfl rfl

/-- A legal position lies in its operation's sequence. -/
theorem legal_suffix {cfg : Panel} {p : Pos} (h : p.legal cfg = true) : (⟨p.step,
    p.sub⟩ :: p.rest) <:+ plan cfg p.op := by
  simp only [Pos.legal, Bool.and_eq_true, decide_eq_true_eq] at h; exact h.1

/-- A legal position of the reset pulse stays legal at another of its primitives. -/
theorem legal_pulse {cfg : Panel} {p : Pos} (h : p.legal cfg = true)
    (hk : p.step.kind = some .pulse) (ph : Phase) (nx : Prim)
    (hl : pulseLegal ph nx = true) : Pos.legal cfg { p with phase := ph, next := nx } = true := by
  have hs := legal_suffix h
  simp only [Pos.legal, hk, Bool.and_eq_true] at h
  simp [Pos.legal, hs, hk, hl]; simpa using h.2.1

/-- A legal position of a framed byte stays legal at another of its primitives. -/
theorem legal_entry {cfg : Panel} {p : Pos} (h : p.legal cfg = true)
    (hk : p.step.kind = some .entry) (nx : Prim)
    (hl : nx.ofByte = true) : Pos.legal cfg { p with next := nx } = true := by
  have hs := legal_suffix h
  simp only [Pos.legal, hk, Bool.and_eq_true] at h
  simp [Pos.legal, hs, hk, hl]; simpa using h.2.2

/-- A legal position of a wait stays legal at another of its primitives. -/
theorem legal_wait {cfg : Panel} {p : Pos} (h : p.legal cfg = true)
    (hk : p.step.kind = some .wait) (polls : Word)
    (ht : timedOut cfg polls = false) (nx : Prim) (hn : nx = .sample ∨ nx = .pollDelay) :
    Pos.legal cfg { p with polls := polls, next := nx } = true := by
  have hs := legal_suffix h
  simp only [Pos.legal, hk, Bool.and_eq_true] at h
  simp [Pos.legal, hs, hk, hn, ht]; simpa using h.2.1.1

/-- Every primitive keeps `PcOk`. -/
theorem seqStep_ok {p : Pos} {s : State} (hpc : s.pc = .run p)
    (h : PcOk s) :
    PcOk (seqStep p s) := by
  obtain ⟨hb, hl, hdel, hfl, hrst, hready, hcl, hx, hch, hcs, -⟩ := pcok_elim hpc h
  have hk := legal_kind hl
  have hsuf := legal_suffix hl
  have hkp : p.step.kind = some .pulse →
      p.step = .resetPulse := by cases p.step <;> simp [StepId.kind]
  have hnp : ∀ k, p.step.kind = some k → k ≠ .pulse → p.step ≠ .resetPulse := fun k hk hne he => by
    rw [he] at hk; cases hk; exact hne rfl
  have hor : ∀ t : State, t.pstate = s.pstate → opReady p.op t := fun t ht => by
    unfold opReady at hready ⊢; split <;> simp_all
  unfold seqStep
  split <;> rename_i hn <;> rw [hn] at hk hdel hfl <;> simp only [primKind] at hk
  · refine goTo_ok _ _ hb hready rfl (legal_pulse hl hk _ _ rfl) rfl rfl rfl ?_ ?_
    · simp [waitingLegal, hdel rfl, hfl]
    · simp [pinsLegal, hkp hk]
  · refine delay_ok hpc h (by rw [hn]; rfl) fun t hc hbt hps hd hf _ _ =>
      goTo_ok _ _ hb hready rfl (legal_pulse hl hk _ _ rfl) hc hbt hps ?_ ?_
    · simp [waitingLegal, hd, hf]
    · simp [pinsLegal, hkp hk]
  · refine goTo_ok _ _ hb hready rfl (legal_pulse hl hk _ _ rfl) rfl rfl rfl ?_ ?_
    · simp [waitingLegal, hdel rfl, hfl]
    · simp [pinsLegal, hkp hk]
  · refine delay_ok hpc h (by rw [hn]; rfl) fun t hc hbt hps hd hf _ _ =>
      goTo_ok _ _ hb hready rfl (legal_pulse hl hk _ _ rfl) hc hbt hps ?_ ?_
    · simp [waitingLegal, hd, hf]
    · simp [pinsLegal, hkp hk]
  · exact nextStage_ok hb hsuf (hdel rfl) (hfl (by simp))
        (hor _ rfl) rfl fun h => absurd (hkp hk) h
  · refine goTo_ok _ _ hb hready rfl (legal_entry hl hk _ rfl) rfl rfl rfl ?_ ?_
    · simp [waitingLegal, hdel rfl, hfl]
    · simp [pinsLegal, hrst (hnp _ hk (by simp))]
  · refine goTo_ok _ _ hb hready rfl (legal_entry hl hk _ rfl) rfl rfl rfl ?_ ?_
    · simp [waitingLegal, hdel rfl, hfl]
    · simp [pinsLegal, hrst (hnp _ hk (by simp)), hcl hn]
  · have hst : ∀ e f, PcOk { s with env := e, inFlight := f } := fun e f => by
      refine ⟨by simp [hpc, Pc.isRun, hb], by simpa [hpc, Pc.legal] using hl, ?_, ?_, ?_⟩
      · simp [waitingLegal, hpc, hdel rfl, hn]
      · have := h.pins; simp only [pinsLegal, hpc] at this; simpa [pinsLegal, hpc] using this
      · have := h.ready; simp only [pstateLegal, hpc] at this; simpa [pstateLegal, hpc] using this
    unfold sendXfer
    split
    · exact hst _ _
    · split
      · refine goTo_ok _ _ hb hready rfl (legal_entry hl hk _ rfl) rfl rfl rfl ?_ ?_
        · simp [waitingLegal, hdel rfl]
        · simp [pinsLegal, hrst (hnp _ hk (by simp)), hx hn]
      · exact hst _ _
  · unfold sendCsHigh
    split
    · exact nextByte_ok hb hl hk (hdel rfl) (hfl (by simp)) (hor _ rfl)
          (by simpa using hrst (hnp _ hk (by simp))) (by simp)
    · exact raise_ok (by simpa using hdel rfl) (by simpa using hfl)
  · exact delay_ok hpc h (by rw [hn]; rfl) fun t hc hbt hps hd hf hrs hct =>
      nextStage_ok (hbt.trans hb) (hc ▸ hsuf) hd hf (hor _ hps)
          (hrs.trans (hrst (hnp _ hk (by simp))))
        fun _ => hct.trans (hcs (.inl hn))
  · unfold pollBusy
    split
    · exact nextStage_ok (s := emit _ _) (p := { p with polls := _ }) hb hsuf (hdel rfl)
          (hfl (by simp)) (hor _ rfl)
        (hrst (hnp _ hk (by simp))) fun _ => hcs (.inr (.inl hn))
    · split
      · exact raise_ok (hdel rfl) (hfl (by simp))
      · refine goTo_ok _ _ hb hready rfl (legal_wait hl hk _ (Bool.eq_false_iff.2 ‹_›) _ (.inr
            rfl)) rfl rfl rfl ?_ ?_
        · simp [waitingLegal, hdel rfl, hfl]
        · simp [pinsLegal, hrst (hnp _ hk (by simp)), hcs (.inr (.inl hn))]
  · have hto : timedOut s.cfg p.polls = false := by
      simp only [Pos.legal, hk, Bool.and_eq_true] at hl; simpa using hl.2.2
    refine delay_ok hpc h (by rw [hn]; rfl) fun t hc hbt hps hd hf hrs hct =>
      goTo_ok _ _ hb hready rfl (legal_wait hl hk _ hto _ (.inl rfl)) hc hbt hps ?_ ?_
    · simp [waitingLegal, hd, hf]
    · simp [pinsLegal, hrs, hrst (hnp _ hk (by simp)), hct, hcs (.inr (.inr hn))]

/-- Every meaning gives a coherent state. -/
theorem exec_coherent {i : Instr} {s t : State} (h : Base s) (hp : s.pc = .idle)
    (hw : waitingLegal s = true) (hpi : pinsLegal s = true)
    (he : exec i s = .next t) : Coherent t := by
  have hcomp : ∀ c op (u : State), Base u → u.pstate = s.pstate → u.rstN = s.rstN →
      u.csN = s.csN → u.delay = s.delay → u.inFlight = s.inFlight →
      Coherent (complete c op u) := by
    intro c op u hu h1 h2 h3 h4 h5
    refine (coherent_iff _).2 ⟨base_regs hu (by simp) (by simp), rfl, rfl, ?_, ?_, rfl⟩
    · simpa [waitingLegal, hp, h4, h5] using hw
    · simpa [pinsLegal, hp, h1, h2, h3] using hpi
  have hstart : ∀ op st rest, (st :: rest) = plan s.cfg op → (st.step.firstPrim = .rstHigh ∨
      st.step.firstPrim = .setDc) →
      (st.step = .resetPulse ∨ s.rstN = 1#1) → opReady op s → Coherent (startOp op st rest s) := by
    intro op st rest hpl hfp hr hor
    refine (coherent_iff _).2 ⟨base_regs h (by simp) (by simp), rfl, ?_, ?_, ?_, ?_⟩
    · simpa [Pc.legal] using enterStage_legal s.cfg_wf (by rw [hpl])
    · simp [waitingLegal, hp] at hw ⊢; simp [hw]
    · simp only [pinsLegal, startOp_pc, enterStage]
      rcases hfp with h | h
      · simp [h]; exact hr
      · simp [h]; exact hr
    · simp only [pstateLegal, startOp_pc, startOp_pstate,
          enterStage]; unfold opReady at hor; split <;> simp_all
  have hready : s.pstate = .ready → s.rstN = 1#1 := fun hr => by
    simp [pinsLegal, hp, hr] at hpi; exact hpi.1
  have hb : ∀ c, Base { s with canvas := c } ↔ (c.wf = true ∧
      c.within (s.cfg.width * s.cfg.height) = true) := fun c =>
    ⟨fun h => ⟨h.1, h.2⟩, fun k => ⟨k.1, k.2, h.3, h.4, h.5⟩⟩
  cases i with
  | nop => cases he; exact hcomp _ _ _ h rfl rfl rfl rfl rfl
  | reset => cases he; exact hstart .reset _ _ rfl (.inl rfl) (.inl rfl) trivial
  | init => cases he; exact hstart .init _ _ rfl (.inl rfl) (.inl rfl) trivial
  | clear =>
    cases he; split
    · exact hstart .clear _ _ rfl (.inr rfl) (.inr (hready ‹_›)) ‹_›
    · exact hcomp _ _ _ h rfl rfl rfl rfl rfl
  | display =>
    cases he; split
    · exact hstart .display _ _ rfl (.inr rfl) (.inr (hready ‹_›)) ‹_›
    · exact hcomp _ _ _ h rfl rfl rfl rfl rfl
  | sleep =>
    cases he; split
    · exact hstart .sleep _ _ rfl (.inr rfl) (.inr (hready ‹_›)) ‹_›
    · exact hcomp _ _ _ h rfl rfl rfl rfl rfl
  | cclr => cases he; exact hcomp _ _ _ ((hb _).2 ⟨rfl, rfl⟩) rfl rfl rfl rfl rfl
  | pset x y v =>
    cases he; refine hcomp _ _ _ ((hb _).2 ?_) rfl rfl rfl rfl rfl
    unfold psetCanvas
    split
    · rename_i hc
      simp only [onCanvas, Bool.and_eq_true, decide_eq_true_eq] at hc
      exact ⟨Memory.write_wf _ _ h.canvas_wf,
          Memory.write_within h.canvas_within (pixelAddr_lt hc.1 hc.2)⟩
    · exact ⟨h.canvas_wf, h.canvas_within⟩
  | pkrd a =>
    cases he; unfold pkrd; split
    · refine hcomp _ _ _ ⟨h.1, h.2, ?_, h.4, h.5⟩ rfl rfl rfl rfl rfl
      apply BitVec.eq_of_getLsbD_eq
      intro i hi
      simp
    · exact hcomp _ _ _ h rfl rfl rfl rfl rfl

end Sys2Proof.Machine
end

