-- ==== Sys2Proof/Laws/Encoding.lean ====
section
/-! SUPPORT. The bits of an encoded word, and a word as its fields. -/

namespace Sys2Proof.Machine

/-- The bits of an encoded PSET (R71, R73). -/
theorem pset_bit (x y : BitVec 12) (v : Bit) (j : Nat) : (encode (.pset x y v)).getLsbD j =
   if j < 4 then (7#4).getLsbD j else if j < 5 then v.getLsbD (j - 4) else if j < 8 then false
       else if j < 20 then x.getLsbD (j - 8) else y.getLsbD (j - 20) := by
  change @BitVec.getLsbD (12+12+3+1+4) (y ++ x ++ 0#3 ++ v ++ 7#4) j = _
  simp only [BitVec.getLsbD_append, BitVec.getLsbD_zero, Nat.sub_sub]
  by_cases h1 : j < 4; · simp [h1]
  by_cases h2 : j < 5; · simp [h1, h2, show j - 4 < 1 by omega]
  by_cases h3 : j < 8; · simp [h1, h2, h3, show ¬ j - 4 < 1 by omega, show j - 5 < 3 by omega]
  by_cases h4 : j < 20; · simp [h1, h2, h3, h4, show ¬ j - 4 < 1 by omega,
      show ¬ j - 5 < 3 by omega, show j - 8 < 12 by omega]
  simp [h1, h2, h3, h4, show ¬ j - 4 < 1 by omega, show ¬ j - 5 < 3 by omega,
      show ¬ j - 8 < 12 by omega]

/-- The bits of an encoded PKRD (R71, R74). -/
theorem pkrd_bit (a : BitVec 24) (j : Nat) : (encode (.pkrd a)).getLsbD j =
   if j < 4 then (8#4).getLsbD j else if j < 8 then false else a.getLsbD (j - 8) := by
  change @BitVec.getLsbD (24+4+4) (a ++ 0#4 ++ 8#4) j = _
  simp only [BitVec.getLsbD_append, BitVec.getLsbD_zero, Nat.sub_sub]
  by_cases h1 : j < 4; · simp [h1]
  by_cases h3 : j < 8; · simp [h1, h3, show j - 4 < 4 by omega]
  simp [h1, h3, show ¬ j - 4 < 4 by omega]

/-- A word is its upper 28 bits and its OP field. -/
theorem split_word (w : Word) : w = w.extractLsb' 4 28 ++ w.extractLsb' 0 4 := by
  apply BitVec.eq_of_getLsbD_eq; intro i hi
  simp only [BitVec.getLsbD_append, BitVec.getLsbD_extractLsb']
  split
  · simp [*]
  · rw [show 4 + (i - 4) = i by omega]; simp; omega

end Sys2Proof.Machine
end

