-- ==== Sys2Proof/Laws/Runs.lean ====
section
/-! SUPPORT. The machine's run of one primitive, one step and one sequence of steps, beside the piece of
pseudocode it performs. -/

namespace Sys2Proof.Machine

/-- Busy, nothing under way, and `rst` low from here on. -/
structure Clean (s : State) : Prop where
  busy : s.busy = true
  delay : s.delay = none
  inFlight : s.inFlight = none
  rstIn : s.rstIn = []

/-- The fields an operation in progress leaves alone are equal. -/
structure Same (s t : State) : Prop where
  cfg : t.cfg = s.cfg
  canvas : t.canvas = s.canvas
  pstate : t.pstate = s.pstate
  err : t.err = s.err
  lastOp : t.lastOp = s.lastOp
  result : t.result = s.result
  errStep : t.errStep = s.errStep
  errByte : t.errByte = s.errByte
  cmdQueue : t.cmdQueue = s.cmdQueue

/-- `s` is `s0` after the events and draws of the script `r`. -/
structure Sim (s0 s : State) (r : Script) : Prop where
  same : Same s0 s
  oks : s.env.answers.map (·.ok) = r.oks
  levels : s.env.levels = r.levels
  wire : s.wire = s0.wire ++ r.trace
  dc : s.dc = pinAfter .dc s0.dc r.trace
  csN : s.csN = pinAfter .csN s0.csN r.trace
  rstN : s.rstN = pinAfter .rstN s0.rstN r.trace

/-- The level of a pin after two lists of events. -/
@[simp] theorem pinAfter_append (p : Pin) (l : Bit) (a b : List Event) :
    pinAfter p l (a ++ b) = pinAfter p (pinAfter p l a) b := by simp [pinAfter]

/-- The level of a pin after no event. -/
@[simp] theorem pinAfter_nil (p : Pin) (l : Bit) : pinAfter p l [] = l := rfl

/-- The level of a pin after a pin write. -/
@[simp] theorem pinAfter_pin (p q : Pin) (l v : Bit) (es : List Event) :
    pinAfter p l (.pin q v :: es) = pinAfter p (if q = p then v else l) es := rfl

/-- A transfer moves no pin. -/
@[simp] theorem pinAfter_xfer (p : Pin) (l : Bit) (b ok) (es : List Event) :
    pinAfter p l (.xfer b ok :: es) = pinAfter p l es := rfl

/-- A delay moves no pin. -/
@[simp] theorem pinAfter_delay (p : Pin) (l : Bit) (b ok) (es : List Event) :
    pinAfter p l (.delay b ok :: es) = pinAfter p l es := rfl

/-- A sample moves no pin. -/
@[simp] theorem pinAfter_sample (p : Pin) (l : Bit) (b) (es : List Event) :
    pinAfter p l (.sample b :: es) = pinAfter p l es := rfl

variable {s0 s t u : State} {r : Script} {p : Pos}

/-- A step of an operation in progress, `rst` low from here on. -/
theorem step_seq (hb : s.busy = true) (hr : s.rstIn = [])
    (hp : s.pc = .run p) : step s = .next (seqStep p (nextInputs s)) :=
  step_busy (by simp [rstAsserted, hr]) hb hp

/-- The inputs moving on keep `Sim`. -/
theorem sim_nextInputs (h : Sim s0 s r) : Sim s0 (nextInputs s) r := ⟨⟨h.1.1, h.1.2, h.1.3, h.1.4,
    h.1.5, h.1.6, h.1.7, h.1.8, h.1.9⟩, h.2, h.3, h.4, h.5, h.6, h.7⟩

/-- The inputs moving on keep `Clean`. -/
theorem clean_nextInputs (h : Clean s) : Clean (nextInputs s) := ⟨h.1, h.2, h.3, by simp [h.4]⟩

/-- A new position keeps `Sim`. -/
theorem sim_goTo (h : Sim s0 s r) : Sim s0 (goTo p s) r := ⟨⟨h.1.1, h.1.2, h.1.3, h.1.4, h.1.5,
    h.1.6, h.1.7, h.1.8, h.1.9⟩, h.2, h.3, h.4, h.5, h.6, h.7⟩

/-- A new position keeps `Clean`. -/
theorem clean_goTo (h : Clean s) : Clean (goTo p s) := ⟨h.1, h.2, h.3, h.4⟩

/-- An event keeps `Clean`. -/
theorem clean_emit {e} (h : Clean s) : Clean (emit e s) := ⟨h.1, h.2, h.3, h.4⟩

/-- A pin write keeps `Clean`. -/
theorem clean_setPin {q v} (h : Clean s) : Clean (setPin q v s) := by cases q <;> exact ⟨h.1, h.2,
    h.3, h.4⟩

/-- A pin write adds its event to the script. -/
theorem sim_setPin (q v) (h : Sim s0 s r) : Sim s0 (setPin q v s)
    { r with trace := r.trace ++ [.pin q v] } := by
  refine ⟨⟨?_, ?_, ?_, ?_, ?_, ?_, ?_, ?_, ?_⟩, ?_, ?_, ?_, ?_, ?_, ?_⟩ <;> simp [h.1.1, h.1.2,
      h.1.3, h.1.4, h.1.5, h.1.6, h.1.7, h.1.8, h.1.9, h.2, h.3, h.4, h.5, h.6, h.7]

/-- An event other than a pin write is added to the script. -/
theorem sim_emit (e) (he : ∀ q v, e ≠ .pin q v) (h : Sim s0 s r) : Sim s0 (emit e s)
    { r with trace := r.trace ++ [e] } := by
  have : ∀ q l, pinAfter q l [e] = l := by intro q l; cases e <;> simp_all
  refine ⟨⟨?_, ?_, ?_, ?_, ?_, ?_, ?_, ?_, ?_⟩, ?_, ?_, ?_, ?_, ?_, ?_⟩ <;> simp [h.1.1, h.1.2,
      h.1.3, h.1.4, h.1.5, h.1.6, h.1.7, h.1.8, h.1.9, h.2, h.3, h.4, h.5, h.6, h.7, this]

/-- `Sim` does not see the timer, the flight and the lateness draws. -/
theorem sim_congr (h : Sim s0 s r) (h1 : Same s t) (h2 : t.env.answers = s.env.answers)
    (h3 : t.env.levels = s.env.levels)
    (h4 : t.wire = s.wire) (h5 : t.dc = s.dc) (h6 : t.csN = s.csN)
        (h7 : t.rstN = s.rstN) : Sim s0 t r :=
  ⟨⟨h1.1.trans h.1.1, h1.2.trans h.1.2, h1.3.trans h.1.3, h1.4.trans h.1.4, h1.5.trans h.1.5,
      h1.6.trans h.1.6, h1.7.trans h.1.7, h1.8.trans h.1.8, h1.9.trans h.1.9⟩,
   h2 ▸ h.2, h3 ▸ h.3, h4 ▸ h.4, h5 ▸ h.5, h6 ▸ h.6, h7 ▸ h.7⟩

/-- A state is the same as itself. -/
theorem same_refl (s : State) : Same s s := ⟨rfl, rfl, rfl, rfl, rfl, rfl, rfl, rfl, rfl⟩

/-- A running delay ends. -/
theorem delay_ticks (n : DelayName) (after : State → State) (hp : ∀ t,
    seqStep p t = delayStep n after t) :
    ∀ (k : Nat) (s : State) (d : RunningDelay), s.busy = true → s.rstIn = [] → s.pc = .run p →
        s.delay = some d → s.inFlight = none →
      delayTicks s.cfg n + d.late - d.elapsed = k → Sim s0 s r →
      ∃ u, Reaches s (after u) ∧ Sim s0 u r ∧ Clean u ∧ u.pc = .run p := by
  intro k
  induction k with
  | zero =>
    intro s d hb hr hpc hd hf hk hs
    refine ⟨{ nextInputs s with delay := none }, Reaches.one ?_, ?_, ?_, hpc⟩
    · rw [step_seq hb hr hpc, hp]
      simp only [delayStep, nextInputs_delay, hd]
      rw [if_neg (by simp; omega)]
    · exact sim_congr (sim_nextInputs hs) ⟨rfl, rfl, rfl, rfl, rfl, rfl, rfl, rfl,
          rfl⟩ rfl rfl rfl rfl rfl rfl
    · exact ⟨hb, rfl, hf, by simp [hr]⟩
  | succ k ih =>
    intro s d hb hr hpc hd hf hk hs
    obtain ⟨u, hu,
        h⟩ := ih { nextInputs s with delay := some { d with elapsed := d.elapsed + 1 } } _ hb (by simp [hr]) hpc rfl hf (by simp; omega)
      (sim_congr (sim_nextInputs hs) ⟨rfl, rfl, rfl, rfl, rfl, rfl, rfl, rfl,
          rfl⟩ rfl rfl rfl rfl rfl rfl)
    refine ⟨u, Reaches.head ?_ hu, h⟩
    rw [step_seq hb hr hpc, hp]
    simp only [delayStep, nextInputs_delay, hd]
    rw [if_pos (by simp; omega)]

/-- A delay runs to its end (R123). -/
theorem delay_run (n : DelayName) (after : State → State) (hp : ∀ t,
    seqStep p t = delayStep n after t)
    (hc : Clean s) (hpc : s.pc = .run p) (hs : Sim s0 s r) :
    ∃ u, Reaches s (after u) ∧
        Sim s0 u { r with trace := r.trace ++ [.delay n (delayTicks s.cfg n)] } ∧ Clean u ∧
        u.pc = .run p := by
  have h1 : step s = .next (emit (.delay n (delayTicks s.cfg n))
      { nextInputs s with env := s.env.drawLate.2, delay := some ⟨n, 0, s.env.drawLate.1⟩ }) := by
    rw [step_seq hc.1 hc.4 hpc, hp]
    simp only [delayStep, nextInputs_delay, hc.2]
    rfl
  have hl : s.env.drawLate.2.answers = s.env.answers ∧ s.env.drawLate.2.levels = s.env.levels := by
    unfold Env.drawLate; split <;> simp
  obtain ⟨u, hu, h⟩ := delay_ticks (s0 := s0)
      (r := { r with trace := r.trace ++ [.delay n (delayTicks s.cfg n)] }) n after hp _
    (emit (.delay n (delayTicks s.cfg n))
        { nextInputs s with env := s.env.drawLate.2, delay := some ⟨n, 0, s.env.drawLate.1⟩ }) _
    hc.1 (by simp [hc.4]) hpc rfl hc.3 rfl
    (sim_emit _ (by simp) (sim_congr (sim_nextInputs hs) ⟨rfl, rfl, rfl, rfl, rfl, rfl, rfl, rfl,
        rfl⟩ hl.1 hl.2 rfl rfl rfl rfl))
  exact ⟨u, Reaches.head h1 hu, h⟩

/-- A transfer in flight is answered. -/
theorem xfer_wait (hp : p.next = .xfer) :
    ∀ (k : Nat) (s : State) (f : Flight), s.busy = true → s.rstIn = [] → s.pc = .run p →
        s.delay = none → s.inFlight = some f → f.wait = k → Sim s0 s r →
      ∃ u, Reaches s u ∧ Sim s0 u { r with trace := r.trace ++ [.xfer f.byte f.ok] } ∧ Clean u ∧
          u.pc = .run { p with next := .csHigh f.ok } := by
  intro k
  induction k with
  | zero =>
    intro s f hb hr hpc hd hf hk hs
    refine ⟨_, Reaches.one (step_seq hb hr hpc), ?_, ?_, ?_⟩ <;> simp only [seqStep, hp, sendXfer,
        nextInputs_inFlight, hf, hk, if_pos]
    · exact sim_goTo (sim_emit _ (by simp) (sim_congr (sim_nextInputs hs) ⟨rfl, rfl, rfl, rfl,
          rfl, rfl, rfl, rfl, rfl⟩ rfl rfl rfl rfl rfl rfl))
    · exact ⟨hb, hd, rfl, by simp [hr]⟩
    · simp
  | succ k ih =>
    intro s f hb hr hpc hd hf hk hs
    obtain ⟨u, hu, h⟩ := ih { nextInputs s with inFlight := some { f with wait := f.wait - 1 } }
        { f with wait := f.wait - 1 } hb (by simp [hr]) hpc hd rfl (by simp; omega)
      (sim_congr (sim_nextInputs hs) ⟨rfl, rfl, rfl, rfl, rfl, rfl, rfl, rfl,
          rfl⟩ rfl rfl rfl rfl rfl rfl)
    refine ⟨u, Reaches.head (step_seq hb hr hpc) ?_, h⟩
    simp only [seqStep, hp, sendXfer, nextInputs_inFlight, hf]
    rw [if_neg (by omega)]
    exact hu

/-- A transfer runs to its answer (R233). -/
theorem xfer_run (hp : p.next = .xfer) (hc : Clean s) (hpc : s.pc = .run p) (hs : Sim s0 s r)
    {ok : Bool} {oks : List Bool}
    (hok : r.oks = ok :: oks) :
    ∃ u, Reaches s u ∧ Sim s0 u ⟨oks, r.levels,
        r.trace ++ [.xfer (byteAt s0.cfg s0.canvas p) ok]⟩ ∧ Clean u ∧
      u.pc = .run { p with next := .csHigh ok } := by
  have hans := hs.oks
  rw [hok] at hans
  rcases ha : s.env.answers with _ | ⟨a, as⟩ <;> rw [ha] at hans <;> simp at hans
  obtain ⟨hao, has⟩ := hans
  have e := step_seq hc.1 hc.4 hpc
  simp only [seqStep, hp, sendXfer, nextInputs_inFlight, hc.3] at e
  have hd : (nextInputs s).env.drawAnswer = (a,
      { s.env with answers := as }) := by simp [Env.drawAnswer, ha]
  rw [hd] at e
  obtain ⟨u, hu, h⟩ := xfer_wait (s0 := s0) (r := ⟨oks, r.levels, r.trace⟩) hp _
    { nextInputs s with env := { s.env with answers := as }, inFlight := some ⟨byteAt (nextInputs s).cfg (nextInputs s).canvas p, a.wait, a.ok, a.rx⟩ }
    _ hc.1 (by simp [hc.4]) hpc hc.2 rfl rfl
    ⟨⟨hs.1.1, hs.1.2, hs.1.3, hs.1.4, hs.1.5, hs.1.6, hs.1.7, hs.1.8, hs.1.9⟩, by simpa using has,
        hs.levels, hs.wire, hs.dc, hs.csN, hs.rstN⟩
  refine ⟨u, Reaches.head e hu, ?_⟩
  simpa [hao, hs.1.1, hs.1.2] using h

/-- SendByte up to its error check (R120). -/
theorem byte_run (hc : Clean s) (hpc : s.pc = .run p) (hn : p.next = .setDc) (hs : Sim s0 s r)
    {ok : Bool} {oks : List Bool} (hok : r.oks = ok :: oks) :
    ∃ u, Clean u ∧ Sim s0 u ⟨oks, r.levels, r.trace ++ [.pin .dc p.phase.dcLevel, .pin .csN 0#1,
        .xfer (byteAt s0.cfg s0.canvas p) ok, .pin .csN 1#1]⟩ ∧
      Reaches s (if ok then nextByte { p with next := .csHigh ok } u
        else raiseError .transport p.step p.sub p.phase.dcLevel p.idx p.op.code u) := by
  -- setDc
  have e1 := Reaches.one (step_seq hc.1 hc.4 hpc)
  simp only [seqStep, hn, sendDc] at e1
  have c1 : Clean (goTo { p with next := .csLow }
      (setPin .dc p.phase.dcLevel (nextInputs s))) := clean_goTo (clean_setPin (clean_nextInputs hc))
  have m1 := sim_goTo (p := { p with next := .csLow })
      (sim_setPin .dc p.phase.dcLevel (sim_nextInputs hs))
  have p1 : (goTo { p with next := .csLow }
      (setPin .dc p.phase.dcLevel (nextInputs s))).pc = .run { p with next := .csLow } := rfl
  generalize goTo { p with next := .csLow }
      (setPin .dc p.phase.dcLevel (nextInputs s)) = s1 at e1 c1 m1 p1
  -- csLow
  have e2 := Reaches.one (step_seq c1.1 c1.4 p1)
  simp only [seqStep, sendCsLow] at e2
  have c2 : Clean (goTo { p with next := .xfer }
      (setPin .csN 0#1 (nextInputs s1))) := clean_goTo (clean_setPin (clean_nextInputs c1))
  have m2 := sim_goTo (p := { p with next := .xfer }) (sim_setPin .csN 0#1 (sim_nextInputs m1))
  have p2 : (goTo { p with next := .xfer }
      (setPin .csN 0#1 (nextInputs s1))).pc = .run { p with next := .xfer } := rfl
  generalize goTo { p with next := .xfer } (setPin .csN 0#1 (nextInputs s1)) = s2 at e2 c2 m2 p2
  -- xfer
  obtain ⟨s3, e3, m3, c3, p3⟩ := xfer_run rfl c2 p2 m2 (ok := ok) (oks := oks) hok
  -- csHigh
  have e4 := Reaches.one (step_seq c3.1 c3.4 p3)
  simp only [seqStep, sendCsHigh] at e4
  refine ⟨setPin .csN 1#1 (nextInputs s3), clean_setPin (clean_nextInputs c3), ?_,
      ((e1.trans e2).trans e3).trans e4⟩
  have m4 := sim_setPin .csN 1#1 (sim_nextInputs m3)
  have hb : byteAt s0.cfg s0.canvas { p with next := .xfer } = byteAt s0.cfg s0.canvas p := rfl
  simpa [hb] using m4

/-- How a step of an operation ends, beside how a piece of pseudocode ends. -/
def Ends (s0 s : State) (op : RunOp) (rest : List Stage) : Script × Option Halt → Prop
  | (r', none) => ∃ u p', Clean u ∧ Sim s0 u r' ∧ p'.op = op ∧ p'.rest = rest ∧
      Reaches s (nextStage p' u)
  | (r', some (.error c st sub ph idx)) => ∃ u, Clean u ∧ Sim s0 u r' ∧
      Reaches s (raiseError c st sub ph idx op.code u)
  | (_, some .noMoreDraws) => True

/-- A run may come before. -/
theorem Ends.after {op rest x} (h : Reaches s t)
    (he : Ends s0 t op rest x) : Ends s0 s op rest x := by
  obtain ⟨r', h'⟩ := x
  rcases h' with _ | (_ | ⟨c, st, sub, ph, idx⟩)
  · obtain ⟨u, p', h1, h2, h3, h4, h5⟩ := he
    exact ⟨u, p', h1, h2, h3, h4, h.trans h5⟩
  · trivial
  · obtain ⟨u, h1, h2, h3⟩ := he
    exact ⟨u, h1, h2, h.trans h3⟩

/-- The data bytes of a step, from the one at `p` on (R121, R155, R156). -/
theorem data_run (bytes : List Byte) : ∀ (p : Pos) (s : State) (r : Script),
    Clean s → s.pc = .run p → p.phase = .data → p.next = .setDc → Sim s0 s r →
    p.idx.toNat + 1 + bytes.length = dataLen s0.cfg p.step p.sub →
        dataLen s0.cfg p.step p.sub < 2 ^ 32 →
    (∀ (j : Nat) (b : Byte), (byteAt s0.cfg s0.canvas p :: bytes)[j]? = some b →
        byteAt s0.cfg s0.canvas { p with idx := BitVec.ofNat 32 (p.idx.toNat + j) } = b) →
    Ends s0 s p.op p.rest (Piece.sendData p.step p.sub p.idx.toNat (byteAt s0.cfg s0.canvas p ::
        bytes) r) := by
  induction bytes with
  | nil =>
    intro p s r hc hpc hph hn hs hlen hlt hb
    simp only [Piece.sendData, Piece.andThen, Piece.sendByte, Piece.skip]
    rcases hok : r.oks with _ | ⟨ok, oks⟩
    · trivial
    · obtain ⟨u, cu, su, hu⟩ := byte_run hc hpc hn hs hok
      have hdc : p.phase.dcLevel = 1#1 := by simp [hph, Phase.dcLevel]
      rw [hdc] at hu su
      cases ok
      · exact ⟨u, cu, su, by simpa using hu⟩
      · refine ⟨u, { p with next := .csHigh true }, cu, su, rfl, rfl, ?_⟩
        simp only [if_true, nextByte] at hu
        rw [if_neg (by simp [hph]), if_neg (by rw [su.1.1]; simp at hlen ⊢; omega)] at hu
        exact hu
  | cons b bytes ih =>
    intro p s r hc hpc hph hn hs hlen hlt hb
    rw [Piece.sendData, Piece.andThen, Piece.sendByte]
    rcases hok : r.oks with _ | ⟨ok, oks⟩
    · trivial
    · obtain ⟨u, cu, su, hu⟩ := byte_run hc hpc hn hs hok
      have hdc : p.phase.dcLevel = 1#1 := by simp [hph, Phase.dcLevel]
      rw [hdc] at hu su
      cases ok
      · exact ⟨u, cu, su, by simpa using hu⟩
      · simp only [if_true, nextByte] at hu
        simp only [List.length_cons] at hlen
        rw [if_neg (by simp [hph]), if_pos (by rw [su.1.1]; omega)] at hu
        have hsucc : (p.idx + 1#32).toNat = p.idx.toNat + 1 := by
          rw [BitVec.toNat_add]; exact Nat.mod_eq_of_lt (by change p.idx.toNat + 1 < 2 ^ 32; omega)
        have hb1 : byteAt s0.cfg s0.canvas { p with idx := p.idx + 1#32, next := .setDc } = b := by
          have := hb 1 b (by simp)
          have e : BitVec.ofNat 32 (p.idx.toNat + 1) = p.idx + 1#32 := by
            apply BitVec.eq_of_toNat_eq; rw [hsucc]; simp; omega
          rw [e] at this; exact this
        have := ih { p with idx := p.idx + 1#32, next := .setDc } _ _ (clean_goTo cu) rfl hph rfl
            (sim_goTo su)
          (by change (p.idx + 1#32).toNat + 1 + bytes.length = dataLen s0.cfg p.step p.sub; omega)
              hlt ?_
        · rw [hb1] at this
          simp only [hsucc] at this
          simp only [BitVec.ofNat_toNat, BitVec.setWidth_eq, if_true] at this ⊢
          exact Ends.after hu this
        · intro j b' hj
          rw [hb1] at hj
          have := hb (j + 1) b' (by simpa using hj)
          simp only [hsucc]
          rw [show p.idx.toNat + 1 + j = p.idx.toNat + (j + 1) by omega]
          exact this

/-- The command byte and the data bytes of a step (R121, R155, R156). -/
theorem entry_run (bytes : List Byte) (hc : Clean s) (hpc : s.pc = .run p) (hph : p.phase = .cmd)
    (hidx : p.idx = 0#32) (hn : p.next = .setDc)
    (hs : Sim s0 s r) (hlen : bytes.length = dataLen s0.cfg p.step p.sub)
        (hlt : dataLen s0.cfg p.step p.sub < 2 ^ 32)
    (hb : ∀ (j : Nat) (b : Byte), bytes[j]? = some b →
        byteAt s0.cfg s0.canvas { p with phase := .data, idx := BitVec.ofNat 32 j } = b) :
    Ends s0 s p.op p.rest (((Piece.sendByte 0#1 (entryOf s0.cfg p.step p.sub).op p.step p.sub
        0#32).andThen
      (Piece.sendData p.step p.sub 0 bytes)) r) := by
  rw [Piece.andThen, Piece.sendByte]
  rcases hok : r.oks with _ | ⟨ok, oks⟩
  · trivial
  · obtain ⟨u, cu, su, hu⟩ := byte_run hc hpc hn hs hok
    have hdc : p.phase.dcLevel = 0#1 := by simp [hph, Phase.dcLevel]
    have hbyte : byteAt s0.cfg s0.canvas p = (entryOf s0.cfg p.step p.sub).op := by simp [byteAt,
        hph]
    rw [hdc] at hu su
    rw [hbyte] at su
    cases ok
    · rw [hidx] at hu; exact ⟨u, cu, su, by simpa using hu⟩
    · simp only [if_true, nextByte] at hu
      rw [if_pos hph] at hu
      cases bytes with
      | nil =>
        rw [if_neg (by rw [su.1.1]; simp at hlen ⊢; omega)] at hu
        exact ⟨u, { p with next := .csHigh true }, cu, su, rfl, rfl, hu⟩
      | cons b bytes =>
        rw [if_pos (by rw [su.1.1]; simp at hlen ⊢; omega)] at hu
        have hb0 : byteAt s0.cfg s0.canvas { p with phase := .data, idx := 0#32, next := .setDc }
            = b := hb 0 b rfl
        have := data_run bytes { p with phase := .data, idx := 0#32, next := .setDc } _ _
            (clean_goTo cu) rfl rfl rfl (sim_goTo su)
          (by simp at hlen ⊢; omega) hlt ?_
        · rw [hb0] at this
          simp only [if_true] at this ⊢
          exact Ends.after hu this
        · intro j b' hj
          rw [hb0] at hj
          simp only [BitVec.toNat_ofNat, Nat.zero_mod, Nat.zero_add]
          exact hb j b' hj

/-- WaitUntilIdle (R124). -/
theorem wait_run : ∀ (levels : List Bit) (p : Pos) (s : State) (r : Script), Clean s →
    s.pc = .run p → p.next = .sample → Sim s0 s r → r.levels = levels →
    Ends s0 s p.op p.rest
        ({ r with levels := (pollLoop s0.cfg p.step p.polls levels).1, trace := r.trace ++ (pollLoop s0.cfg p.step p.polls levels).2.1 },
      (pollLoop s0.cfg p.step p.polls levels).2.2) := by
  intro levels
  induction levels with
  | nil => intro p s r _ _ _ _ _; trivial
  | cons l ls ih =>
    intro p s r hc hpc hn hs hlv
    have e := step_seq hc.1 hc.4 hpc
    have hd : s.env.drawLevel = (l, { s.env with levels := ls }) := by
      have := hs.levels; rw [hlv] at this; simp [Env.drawLevel, this]
    have hd' : (nextInputs s).env.drawLevel = (l, { s.env with levels := ls }) := hd
    simp only [seqStep, hn, pollBusy, hd'] at e
    have c1 : Clean (emit (.sample l)
        { nextInputs s with env := { s.env with levels := ls } }) := ⟨hc.1, hc.2, hc.3,
        by simp [hc.4]⟩
    have m1 : Sim s0 (emit (.sample l)
        { nextInputs s with env := { s.env with levels := ls } }) ⟨r.oks, ls,
        r.trace ++ [.sample l]⟩ :=
      sim_emit _ (by simp) (r := ⟨r.oks, ls, r.trace⟩) ⟨⟨hs.1.1, hs.1.2, hs.1.3, hs.1.4, hs.1.5,
          hs.1.6, hs.1.7, hs.1.8, hs.1.9⟩, hs.oks, rfl, hs.wire, hs.dc, hs.csN, hs.rstN⟩
    generalize emit (.sample l)
        { nextInputs s with env := { s.env with levels := ls } } = s1 at e c1 m1
    simp only [nextInputs_cfg, hs.1.1] at e
    unfold pollLoop
    split
    · rename_i hidle
      rw [if_pos hidle] at e
      exact ⟨s1, { p with polls := countPoll p.polls }, c1, m1, rfl, rfl, Reaches.one e⟩
    · rename_i hidle
      rw [if_neg hidle] at e
      split
      · rename_i hto
        rw [if_pos hto] at e
        exact ⟨s1, c1, m1, Reaches.one e⟩
      · rename_i hto
        rw [if_neg hto] at e
        obtain ⟨s2, e2, m2, c2,
            p2⟩ := delay_run .poll (goTo { { p with polls := countPoll p.polls, next := .pollDelay } with next := .sample })
          (p := { p with polls := countPoll p.polls, next := .pollDelay }) (fun t => rfl)
              (clean_goTo c1) rfl (sim_goTo m1)
        have := ih { p with polls := countPoll p.polls, next := .sample } _ _ (clean_goTo c2) rfl
            rfl (sim_goTo m2) rfl
        refine Ends.after ((Reaches.one e).trans e2) ?_
        have hcfg : (goTo { p with polls := countPoll p.polls, next := .pollDelay } s1).cfg =
            s0.cfg := m1.1.1
        have hcfg : s1.cfg = s0.cfg := hcfg
        simpa [hcfg, delayTicks, goTo_cfg] using this

/-- ResetPulse (R122). -/
theorem pulse_run (hc : Clean s) (hpc : s.pc = .run p) (hn : p.next = .rstHigh) (hs : Sim s0 s r) :
    Ends s0 s p.op p.rest (Piece.resetPulse s0.cfg r) := by
  have e1 := Reaches.one (step_seq hc.1 hc.4 hpc)
  simp only [seqStep, hn, pulsePin] at e1
  obtain ⟨s2, e2, m2, c2,
      p2⟩ := delay_run .rstHigh (afterPulseDelay .rstLow { p with phase := .delay, next := .rstHighSettle })
    (p := { p with phase := .delay, next := .rstHighSettle }) (fun t => rfl)
        (clean_goTo (clean_setPin (clean_nextInputs hc))) rfl
    (sim_goTo (sim_setPin .rstN 1#1 (sim_nextInputs hs)))
  simp only [afterPulseDelay] at e2
  have e3 := Reaches.one (step_seq (s := goTo { p with phase := .pin, next := .rstLow } s2) c2.1
      c2.4 rfl)
  simp only [seqStep, pulsePin] at e3
  obtain ⟨s4, e4, m4, c4,
      p4⟩ := delay_run .rstLow (afterPulseDelay .rstHighAgain { p with phase := .delay, next := .rstLowSettle })
    (p := { p with phase := .delay, next := .rstLowSettle }) (fun t => rfl)
        (clean_goTo (clean_setPin (clean_nextInputs (clean_goTo (p := { p with phase := .pin, next := .rstLow }) c2)))) rfl
    (sim_goTo (sim_setPin .rstN 0#1 (sim_nextInputs (sim_goTo (p :=
        { p with phase := .pin, next := .rstLow }) m2))))
  simp only [afterPulseDelay] at e4
  have e5 := Reaches.one (step_seq (s := goTo { p with phase := .pin, next := .rstHighAgain } s4)
      c4.1 c4.4 rfl)
  simp only [seqStep] at e5
  refine ⟨_, { p with phase := .pin, next := .rstHighAgain },
      clean_setPin (clean_nextInputs (clean_goTo c4)), ?_, rfl, rfl,
      ((((e1.trans e2).trans e3).trans e4).trans e5)⟩
  have m5 := sim_setPin .rstN 1#1 (sim_nextInputs (sim_goTo (p :=
      { p with phase := .pin, next := .rstHighAgain }) m4))
  simpa [delayTicks, goTo_cfg, setPin_cfg, nextInputs_cfg, hs.1.1, m2.1.1] using m5

/-- The settle delay of TurnOnDisplay (R125). -/
theorem settle_run (hc : Clean s) (hpc : s.pc = .run p) (hn : p.next = .refreshSettle)
    (hs : Sim s0 s r) :
    Ends s0 s p.op p.rest (Piece.events [.delay .refreshSettle s0.cfg.tRefreshSettle] r) := by
  obtain ⟨u, e, m, c, hp⟩ := delay_run .refreshSettle (nextStage p) (fun t => by simp [seqStep,
      hn]) hc hpc hs
  exact ⟨u, p, c, by simpa [delayTicks, hs.1.1] using m, rfl, rfl, e⟩

/-- The pseudocode of one step of a sequence. -/
def stagePiece (cfg : Panel) (canvas : Memory) (op : RunOp) (st : Stage) : Piece :=
  match st.step.kind with
  | none => Piece.skip
  | some .pulse => Piece.resetPulse cfg
  | some .settle => Piece.events [.delay .refreshSettle cfg.tRefreshSettle]
  | some .wait => Piece.waitUntilIdle cfg st.step
  | some .entry => (Piece.sendByte 0#1 (entryOf cfg st.step st.sub).op st.step st.sub 0#32).andThen
      (Piece.sendData st.step st.sub 0 (if st.step = .startTransmission then (List.range
          cfg.nbytes).map (frameByte cfg canvas op)
        else (entryOf cfg st.step st.sub).data))

/-- A byte index fits 32 bits (R9). -/
theorem cfg_bounds {cfg : Panel} (h : cfg.wf = true) (st : StepId)
    (sub : Byte) : dataLen cfg st sub < 2 ^ 32 := by
  simp only [Panel.wf, Bool.and_eq_true, decide_eq_true_eq, List.all_eq_true, StepName.all,
      Entry.wf, List.mem_cons, List.not_mem_nil, or_false] at h
  obtain ⟨⟨⟨⟨⟨⟨⟨⟨⟨⟨hw, hh⟩, -⟩, -⟩, -⟩, -⟩, -⟩, hall⟩, hpo⟩, hlut⟩, -⟩ := h
  have hnb : cfg.nbytes ≤ 512 * 4096 := by
    unfold Panel.nbytes Panel.lineWidth; exact Nat.mul_le_mul (by omega) hh.2
  have hget : ∀ (l : List Entry) (i : Nat), (∀ e ∈ l, e.data.length < 2 ^ 32) →
      ((l[i]?).getD missingEntry).data.length < 2 ^ 32 := by
    intro l i hl
    rcases hi : l[i]? with _ | e
    · simp [missingEntry]
    · exact hl e (List.mem_of_getElem? hi)
  have hent : ∀ n, (cfg.ent n).data.length < 2 ^ 32 := fun n => hall n (by cases n <;> simp)
  unfold dataLen
  split
  · omega
  · cases st <;> simp only [entryOf]
    case powerOptimization => exact hget _ _ hpo
    case lut => exact hget _ _ hlut
    all_goals first | exact hent _ | simp [missingEntry]

/-- The byte at a data position. -/
theorem byteAt_data (cfg : Panel) (m : Memory) (op st sub idx polls nx rest) : byteAt cfg m ⟨op,
    st, sub, .data, idx, polls, nx, rest⟩ =
    if st = .startTransmission then frameByte cfg m op idx.toNat else ((entryOf cfg st
        sub).data[idx.toNat]?).getD 0#8 := rfl

/-- The first primitive of a kind of step. -/
def kindPrim : StepKind → Prim
  | .pulse => .rstHigh | .entry => .setDc | .settle => .refreshSettle | .wait => .sample

/-- One step of a sequence runs as its pseudocode says. -/
theorem stage_run {op : RunOp} {st : Stage} {rest : List Stage}
    (hk : st.step ≠ .noStep)
    (hc : Clean s) (hpc : s.pc = .run (enterStage op st rest)) (hs : Sim s0 s r) :
    Ends s0 s op rest (stagePiece s0.cfg s0.canvas op st r) := by
  unfold stagePiece
  rcases hkind : st.step.kind with _ | k
  · exact absurd (by cases hst : st.step <;> simp [hst, StepId.kind] at hkind ⊢) hk
  · have hfp : st.step.firstPrim = kindPrim k := by
      cases hst : st.step <;> rw [hst] at hkind <;> cases hkind <;> rfl
    cases k
    · exact pulse_run hc hpc hfp hs
    · have hph : st.step.firstPhase = .cmd := by
        cases hst : st.step <;> rw [hst] at hkind <;> cases hkind <;> rfl
      refine entry_run (p := enterStage op st rest) _ hc hpc hph rfl hfp hs ?_ (cfg_bounds s0.cfg_wf _
          _) ?_
      · change _ = dataLen s0.cfg st.step st.sub
        unfold dataLen; split <;> simp
      · intro j b hj
        have hlen := cfg_bounds s0.cfg_wf st.step st.sub
        change byteAt s0.cfg s0.canvas ⟨op, st.step, st.sub, .data, _, _, _, _⟩ = b
        rw [byteAt_data]
        split at hj
        · rename_i hst
          have hlen : dataLen s0.cfg st.step st.sub = s0.cfg.nbytes := by simp [dataLen, hst]
          have hlt := cfg_bounds s0.cfg_wf st.step st.sub
          rw [hlen] at hlt
          simp only [List.getElem?_map, Option.map_eq_some_iff] at hj
          obtain ⟨a, ha, rfl⟩ := hj
          have hj := List.getElem?_eq_some_iff.1 ha
          obtain ⟨hj1, hj2⟩ := hj
          simp at hj1 hj2
          subst hj2
          rw [if_pos hst]
          congr 1
          simp; omega
        · rename_i hst
          rw [if_neg hst]
          have := (List.getElem?_eq_some_iff.1 hj).1
          have hl2 : dataLen s0.cfg st.step st.sub = (entryOf s0.cfg st.step st.sub).data.length
              := by simp [dataLen, hst]
          rw [show (BitVec.ofNat 32 j).toNat = j by simp; omega, hj]; rfl
    · exact settle_run hc hpc hfp hs
    · exact wait_run _ _ _ _ hc hpc hfp hs rfl

/-- How an operation ends, beside how its pseudocode ends. -/
def Finishes (s0 s : State) (op : RunOp) : Script × Option Halt → Prop
  | (r', none) => ∃ u, Clean u ∧ Sim s0 u r' ∧ Reaches s (finishOp op u)
  | (r', some (.error c st sub ph idx)) => ∃ u, Clean u ∧ Sim s0 u r' ∧
      Reaches s (raiseError c st sub ph idx op.code u)
  | (_, some .noMoreDraws) => True

/-- A sequence of steps runs as its pseudocode says. -/
theorem stages_run {op : RunOp} (rest : List Stage) : ∀ (st : Stage)
    (s : State) (r : Script), (∀ x ∈ st :: rest, x.step ≠ .noStep) →
    Clean s → s.pc = .run (enterStage op st rest) → Sim s0 s r →
    Finishes s0 s op (Piece.inOrder ((st :: rest).map (stagePiece s0.cfg s0.canvas op)) r) := by
  induction rest with
  | nil =>
    intro st s r hno hc hpc hs
    have := stage_run (hno st (by simp)) hc hpc hs
    simp only [List.map_cons, List.map_nil, Piece.inOrder, Piece.andThen, Piece.skip]
    rcases hx : stagePiece s0.cfg s0.canvas op st r with ⟨r', _ | (_ | ⟨c, st', sub, ph,
        idx⟩)⟩ <;> rw [hx] at this
    · obtain ⟨u, p', h1, h2, h3, h4, h5⟩ := this
      refine ⟨u, h1, h2, ?_⟩
      simpa [nextStage, h3, h4] using h5
    · trivial
    · exact this
  | cons st2 rest ih =>
    intro st s r hno hc hpc hs
    have := stage_run (hno st (by simp)) hc hpc hs
    rw [List.map_cons, Piece.inOrder, Piece.andThen]
    rcases hx : stagePiece s0.cfg s0.canvas op st r with ⟨r', _ | (_ | ⟨c, st', sub, ph,
        idx⟩)⟩ <;> rw [hx] at this
    · obtain ⟨u, p', h1, h2, h3, h4, h5⟩ := this
      simp only [nextStage, h3, h4] at h5
      have hno' : ∀ x ∈ st2 :: rest,
          x.step ≠ .noStep := fun x hx => hno x (List.mem_cons_of_mem _ hx)
      have := ih st2 (goTo (enterStage op st2 rest) u) r' hno' (clean_goTo h1) rfl (sim_goTo h2)
      dsimp only
      rcases hy : Piece.inOrder ((st2 :: rest).map (stagePiece s0.cfg s0.canvas op)) r' with ⟨r2,
          _ | (_ | ⟨c, st', sub, ph, idx⟩)⟩ <;> rw [hy] at this
      · obtain ⟨u2, k1, k2, k3⟩ := this; exact ⟨u2, k1, k2, h5.trans k3⟩
      · trivial
      · obtain ⟨u2, k1, k2, k3⟩ := this; exact ⟨u2, k1, k2, h5.trans k3⟩
    · trivial
    · exact this

/-- Pieces compose associatively. -/
theorem andThen_assoc (a b c : Piece) : (a.andThen b).andThen c = a.andThen (b.andThen c) := by
  funext r
  simp only [Piece.andThen]
  rcases a r with ⟨r', _ | h⟩ <;> simp

/-- Two lists of pieces in order. -/
theorem inOrder_append (as bs : List Piece) : Piece.inOrder (as ++ bs) = (Piece.inOrder
    as).andThen (Piece.inOrder bs) := by
  induction as with
  | nil => funext r; simp [Piece.inOrder, Piece.andThen, Piece.skip]
  | cons a as ih => simp [Piece.inOrder, ih, andThen_assoc]

/-- Nothing may follow. -/
theorem andThen_skip (a : Piece) : a.andThen Piece.skip = a := by
  funext r
  simp only [Piece.andThen, Piece.skip]
  rcases a r with ⟨r', _ | h⟩ <;> simp

/-- The entries of a list, by index. -/
theorem sendEntries_eq (step : StepId) (es : List Entry) : ∀ k, Piece.sendEntries step k es =
    Piece.inOrder ((List.range es.length).map fun i => Piece.sendEntry ((es[i]?).getD
        missingEntry) step (BitVec.ofNat 8 (k + i))) := by
  induction es with
  | nil => intro k; rfl
  | cons e es ih =>
    intro k
    rw [Piece.sendEntries, ih, List.length_cons, List.range_succ_eq_map, List.map_cons,
        Piece.inOrder]
    simp [Function.comp_def, Nat.add_assoc, Nat.add_comm 1]

/-- The power-optimization steps of INIT's sequence (R153). -/
theorem powopt_map (cfg : Panel) (canvas) (op) (h : cfg.powopt.length ≤ 256) :
    Piece.inOrder ((repeated .powerOptimization cfg.powopt.length).map (stagePiece cfg canvas op))
        = Piece.sendEntries .powerOptimization 0 cfg.powopt := by
  rw [sendEntries_eq]
  congr 1
  simp only [repeated, List.map_map]
  apply List.map_congr_left
  intro i hi
  simp at hi
  simp only [Function.comp, stagePiece, StepId.kind, Piece.sendEntry, entryOf]
  simp only [reduceCtorEq, if_false, Nat.zero_add, BitVec.toNat_ofNat]
  rw [Nat.mod_eq_of_lt (by omega)]

/-- The LUT steps of INIT's sequence (R153). -/
theorem lut_map (cfg : Panel) (canvas) (op) (h : cfg.lut.length = 5) :
    Piece.inOrder ((repeated .lut 5).map (stagePiece cfg canvas op)) = Piece.sendEntries .lut 0
        cfg.lut := by
  rw [sendEntries_eq, h]
  congr 1

/-- The sequence of an operation is its pseudocode (R152 to R157). -/
theorem plan_pseudocode (cfg : Panel) (canvas : Memory) (op : RunOp) (h : cfg.wf = true) :
    Piece.inOrder ((plan cfg op).map (stagePiece cfg canvas op)) = pseudocode cfg canvas op := by
  simp only [Panel.wf, Bool.and_eq_true, decide_eq_true_eq, beq_iff_eq] at h
  obtain ⟨⟨⟨⟨⟨⟨⟨⟨⟨⟨hw, hh⟩, -⟩, -⟩, -⟩, hl⟩, hp⟩, hall⟩, hpo⟩, hlut⟩, -⟩ := h
  cases op
  · simp [plan, pseudocode, Piece.inOrder, andThen_skip, stagePiece, single, StepId.kind]
  · simp only [plan, initRest, pseudocode, Piece.init, List.map_cons, List.map_append,
        Piece.inOrder, inOrder_append,
      powopt_map _ _ _ hp, lut_map _ _ _ hl, andThen_assoc, andThen_skip, List.map_nil]
    simp [stagePiece, single, StepId.kind, andThen_assoc, Piece.sendEntry, entryOf]
  · have hr : (List.range cfg.nbytes).map (frameByte cfg canvas .clear) = List.replicate
        cfg.nbytes 0xFF#8 := by
      apply List.ext_getElem <;> simp [frameByte]
    simp [plan, clearRest, turnOnDisplay, pseudocode, Piece.clear, Piece.dataLoad,
        Piece.turnOnDisplay, Piece.inOrder, andThen_skip, stagePiece, single,
      StepId.kind, andThen_assoc, Piece.sendEntry, entryOf, hr]
  · have hr : (List.range cfg.nbytes).map (frameByte cfg canvas .display) = pack cfg canvas := by
      rfl
    simp [plan, displayRest, turnOnDisplay, pseudocode, Piece.display, Piece.dataLoad,
        Piece.turnOnDisplay, Piece.inOrder, andThen_skip, stagePiece, single,
      StepId.kind, andThen_assoc, Piece.sendEntry, entryOf, hr]
  · simp [plan, sleepRest, pseudocode, Piece.sleep, Piece.inOrder, andThen_skip, stagePiece, single,
      StepId.kind, andThen_assoc, Piece.sendEntry, entryOf]

end Sys2Proof.Machine
end

