-- ==== Sys2Proof/Laws/Outcome.lean ====
section
/-! SUPPORT. What one primitive and one meaning can do, each said once: go on or end the operation, and
which event and which pin. -/

namespace Sys2Proof.Machine

/-- The operation goes on. -/
def GoesOn (s t : State) : Prop := t.done = s.done ∧ t.busy = s.busy ∧
    resultRegs t = resultRegs s ∧ t.pc.isRun = true

/-- The operation `op` ends, completed (R225) or aborted (R226). -/
def EndsOp (op : RunOp) (s t : State) : Prop := t.done = true ∧ t.busy = false ∧ t.pc = .idle ∧
    t.lastOp = op.code ∧ t.result = s.result ∧
  ((t.err = .ok ∧ t.pstate = pstateAfter s.pstate op ∧ t.errStep = 0#32 ∧ t.errByte = 0#32) ∨
      (t.err ≠ .ok ∧ t.pstate = .uninitialized))

/-- The end of a step goes on or ends the operation. -/
theorem nextStage_out (p : Pos) (s t : State) (h1 : resultRegs t = resultRegs s)
    (h2 : t.busy = s.busy) (h3 : t.done = s.done) :
   GoesOn s (nextStage p t) ∨ EndsOp p.op s (nextStage p t) := by
  simp only [resultRegs, Prod.mk.injEq] at h1
  unfold nextStage; split
  · right
    have := finishOp_complete p.op t
    have := finishOp_frame p.op t
    have hps : (finishOp p.op t).pstate = pstateAfter t.pstate p.op := by cases p.op <;> rfl
    unfold EndsOp; simp_all
  · left; simp [GoesOn, resultRegs, h1, h2, h3, Pc.isRun]

/-- A primitive goes on or ends the operation. -/
theorem seqStep_out (p : Pos) (s : State) (hpc : s.pc = .run p) : GoesOn s (seqStep p s) ∨
    EndsOp p.op s (seqStep p s) := by
  have hg : ∀ q t, resultRegs t = resultRegs s → t.busy = s.busy → t.done = s.done →
      GoesOn s (goTo q t) := fun q t h1 h2 h3 => ⟨h3, h2, h1, rfl⟩
  have hd : ∀ n after, (∀ t, resultRegs t = resultRegs s → t.busy = s.busy → t.done = s.done →
      GoesOn s (after t) ∨ EndsOp p.op s (after t)) → GoesOn s (delayStep n after s) ∨
      EndsOp p.op s (delayStep n after s) := by
    intro n after ha
    obtain ⟨-, e⟩ | ⟨d, -, -, e⟩ | ⟨d, -, -, e⟩ := delayStep_cases n after s <;> rw [e]
    · left; simp [GoesOn, resultRegs, hpc, Pc.isRun]
    · left; simp [GoesOn, resultRegs, hpc, Pc.isRun]
    · exact ha _ rfl rfl rfl
  have hnb : ∀ t, resultRegs t = resultRegs s → t.busy = s.busy → t.done = s.done →
      GoesOn s (nextByte p t) ∨ EndsOp p.op s (nextByte p t) := by
    intro t h1 h2 h3
    unfold nextByte; split <;> split
    · exact .inl (hg _ _ h1 h2 h3)
    · exact nextStage_out _ _ _ h1 h2 h3
    · exact .inl (hg _ _ h1 h2 h3)
    · exact nextStage_out _ _ _ h1 h2 h3
  have hpin : ∀ q v, resultRegs (setPin q v s) = resultRegs s ∧ (setPin q v s).busy = s.busy ∧
      (setPin q v s).done = s.done := by
    intro q v; simp [resultRegs]
  unfold seqStep
  split
  · exact .inl (hg _ _ (hpin _ _).1 (hpin _ _).2.1 (hpin _ _).2.2)
  · exact hd _ _ fun t h1 h2 h3 => .inl (hg _ _ h1 h2 h3)
  · exact .inl (hg _ _ (hpin _ _).1 (hpin _ _).2.1 (hpin _ _).2.2)
  · exact hd _ _ fun t h1 h2 h3 => .inl (hg _ _ h1 h2 h3)
  · exact nextStage_out _ _ _ (hpin _ _).1 (hpin _ _).2.1 (hpin _ _).2.2
  · exact .inl (hg _ _ (hpin _ _).1 (hpin _ _).2.1 (hpin _ _).2.2)
  · exact .inl (hg _ _ (hpin _ _).1 (hpin _ _).2.1 (hpin _ _).2.2)
  · unfold sendXfer; split
    · left; simp [GoesOn, resultRegs, hpc, Pc.isRun]
    · split
      · left; simp [GoesOn, resultRegs, Pc.isRun]
      · left; simp [GoesOn, resultRegs, hpc, Pc.isRun]
  · unfold sendCsHigh; split
    · exact hnb _ (hpin _ _).1 (hpin _ _).2.1 (hpin _ _).2.2
    · right; simp [EndsOp]
  · exact hd _ _ fun t h1 h2 h3 => nextStage_out _ _ _ h1 h2 h3
  · unfold pollBusy; split
    · exact nextStage_out { p with polls := _ } _ _ rfl rfl rfl
    · split
      · right; simp [EndsOp]
      · left; simp [GoesOn, resultRegs, Pc.isRun]
  · exact hd _ _ fun t h1 h2 h3 => .inl (hg _ _ h1 h2 h3)

/-- A meaning completes at once or begins a sequence. -/
theorem exec_out {i : Instr} {s t : State} (h : exec i s = .next t) :
   (∃ c op, t.err = c ∧ t.lastOp = op ∧ t.done = true ∧ t.busy = false ∧ t.pc = .idle ∧
       t.pstate = s.pstate ∧ t.delay = s.delay ∧ t.inFlight = s.inFlight) ∨
   (t.done = s.done ∧ t.busy = true ∧ resultRegs t = resultRegs s ∧ t.pc.isRun = true ∧
       t.delay = s.delay ∧ t.inFlight = s.inFlight) := by
  cases i <;> cases h
  · left; simp
  · right; simp [resultRegs, Pc.isRun]
  · right; simp [resultRegs, Pc.isRun]
  · split
    · right; simp [resultRegs, Pc.isRun]
    · left; simp
  · split
    · right; simp [resultRegs, Pc.isRun]
    · left; simp
  · split
    · right; simp [resultRegs, Pc.isRun]
    · left; simp
  · left; simp
  · left; simp
  · left; unfold pkrd; split <;> simp

/-- A primitive performs at most one event, and the pins are where it puts them. -/
theorem seqStep_wire (p : Pos) (s : State) : ∃ es : List Event,
    (seqStep p s).wire = s.wire ++ es ∧ es.length ≤ 1 ∧
   (seqStep p s).dc = pinAfter .dc s.dc es ∧ (seqStep p s).csN = pinAfter .csN s.csN es ∧
       (seqStep p s).rstN = pinAfter .rstN s.rstN es ∧
   (∀ l, es = [.sample l] → p.next = .sample) := by
  have hns := nextStage_frame p
  have hnb := nextByte_frame p
  have hp : ∀ q v, ∃ es : List Event, (setPin q v s).wire = s.wire ++ es ∧ es.length ≤ 1 ∧
   (setPin q v s).dc = pinAfter .dc s.dc es ∧ (setPin q v s).csN = pinAfter .csN s.csN es ∧
       (setPin q v s).rstN = pinAfter .rstN s.rstN es ∧
   (∀ l, es = [.sample l] → p.next = .sample) := fun q v => ⟨[.pin q v], by simp, by simp,
       by simp, by simp, by simp, by simp⟩
  have hd : ∀ n (after : State → State), (∀ t : State, (after t).wire = t.wire ∧
      (after t).dc = t.dc ∧ (after t).csN = t.csN ∧ (after t).rstN = t.rstN) →
    ∃ es : List Event, (delayStep n after s).wire = s.wire ++ es ∧ es.length ≤ 1 ∧
   (delayStep n after s).dc = pinAfter .dc s.dc es ∧
       (delayStep n after s).csN = pinAfter .csN s.csN es ∧
       (delayStep n after s).rstN = pinAfter .rstN s.rstN es ∧
   (∀ l, es = [.sample l] → p.next = .sample) := by
    intro n after ha
    obtain ⟨-, e⟩ | ⟨d, -, -, e⟩ | ⟨d, -, -, e⟩ := delayStep_cases n after s <;> rw [e]
    · exact ⟨[.delay n (delayTicks s.cfg n)], by simp⟩
    · exact ⟨[], by simp⟩
    · exact ⟨[], by simp [ha]⟩
  unfold seqStep
  split
  · exact hp .rstN _
  · exact hd _ _ fun t => by simp [afterPulseDelay]
  · exact hp .rstN _
  · exact hd _ _ fun t => by simp [afterPulseDelay]
  · obtain ⟨es, h⟩ := hp .rstN 1#1; exact ⟨es, by simpa [hns] using h⟩
  · exact hp .dc _
  · exact hp .csN _
  · unfold sendXfer; split
    · exact ⟨[], by simp⟩
    · split
      · rename_i f _ _; exact ⟨[.xfer f.byte f.ok], by simp⟩
      · exact ⟨[], by simp⟩
  · obtain ⟨es, h⟩ := hp .csN 1#1
    unfold sendCsHigh; split
    · exact ⟨es, by simpa [hnb] using h⟩
    · exact ⟨es, by simpa using h⟩
  · exact hd _ _ fun t => by simp [hns]
  · rename_i hn
    refine ⟨[.sample s.env.drawLevel.1], ?_⟩
    unfold pollBusy; split
    · have := nextStage_frame { p with polls := countPoll p.polls }
          (emit (.sample s.env.drawLevel.1) { s with env := s.env.drawLevel.2 }); obtain ⟨-, -, -,
          -, -, -, h1, h2, h3, h4, -⟩ := this; exact ⟨h1, by simp, h2, h3, h4, fun _ _ => hn⟩
    · split <;> simp [hn]
  · exact hd _ _ fun t => by simp

/-- The two ways an operation aborts (R223, R224). -/
theorem seqStep_err (p : Pos) (s : State) (hd : (seqStep p s).done = true) (hd0 : s.done = false)
    (he : (seqStep p s).err ≠ .ok) :
   (p.next = .csHigh false ∧
       seqStep p s = raiseError .transport p.step p.sub p.phase.dcLevel p.idx p.op.code (setPin .csN 1#1 s)) ∨
   (p.next = .sample ∧ s.env.drawLevel.1 ≠ s.cfg.busyIdleLevel ∧
       seqStep p s = raiseError .unresponsive p.step 0#8 0#1 (countPoll p.polls) p.op.code (emit (.sample s.env.drawLevel.1) { s with env := s.env.drawLevel.2 })) := by
  have hns : ∀ q t, t.done = false → (nextStage q t).done = true → (nextStage q t).err = .ok := by
    intro q t h0 h; unfold nextStage at h ⊢
    cases hr : q.rest with
    | nil => exact (finishOp_complete ..).1
    | cons a b => rw [hr] at h; simp [h0] at h
  have hnb : ∀ q t, t.done = false → (nextByte q t).done = true → (nextByte q t).err = .ok := by
    intro q t h0 h; unfold nextByte at h ⊢
    by_cases h1 : q.phase = .cmd
    · by_cases h2 : 0 < dataLen t.cfg q.step q.sub
      · rw [if_pos h1, if_pos h2] at h; simp [h0] at h
      · rw [if_pos h1, if_neg h2] at h ⊢; exact hns _ _ h0 h
    · by_cases h2 : q.idx.toNat + 1 < dataLen t.cfg q.step q.sub
      · rw [if_neg h1, if_pos h2] at h; simp [h0] at h
      · rw [if_neg h1, if_neg h2] at h ⊢; exact hns _ _ h0 h
  have hds : ∀ n after, (∀ t : State, t.done = false → (after t).done = true →
      (after t).err = .ok) → (delayStep n after s).done = true →
      (delayStep n after s).err = .ok := by
    intro n after ha hd
    obtain ⟨-, e⟩ | ⟨d, -, -, e⟩ | ⟨d, -, -, e⟩ := delayStep_cases n after s <;> rw [e] at hd ⊢
    · simp [hd0] at hd
    · simp [hd0] at hd
    · exact ha _ hd0 hd
  cases hn : p.next <;> simp only [seqStep, hn] at hd he ⊢
  · simp [pulsePin, hd0] at hd
  · exact absurd (hds _ _ (fun t h0 h => by simp [afterPulseDelay, h0] at h) hd) he
  · simp [pulsePin, hd0] at hd
  · exact absurd (hds _ _ (fun t h0 h => by simp [afterPulseDelay, h0] at h) hd) he
  · exact absurd (hns _ _ (by simp [hd0]) hd) he
  · simp [sendDc, hd0] at hd
  · simp [sendCsLow, hd0] at hd
  · unfold sendXfer at hd; split at hd
    · simp [hd0] at hd
    · split at hd <;> simp [hd0] at hd
  · rename_i ok
    unfold sendCsHigh at hd he ⊢
    cases ok
    · left; simp
    · simp only [if_true] at hd he
      exact absurd (hnb _ _ (by simp [hd0]) hd) he
  · exact absurd (hds _ _ (fun t h0 h => hns _ _ h0 h) hd) he
  · unfold pollBusy at hd he ⊢
    by_cases hi : s.env.drawLevel.1 = s.cfg.busyIdleLevel
    · simp only [if_pos hi] at hd he; refine absurd (hns _ _ ?_ hd) he; exact hd0
    · by_cases ht : timedOut s.cfg (countPoll p.polls) = true
      · right; refine ⟨trivial, hi, ?_⟩; rw [if_neg hi, if_pos ht]
      · simp only [if_neg hi, if_neg ht] at hd; simp [hd0] at hd
  · exact absurd (hds _ _ (fun t h0 h => by simp [h0] at h) hd) he

end Sys2Proof.Machine
end

