-- ==== Sys2Proof/Laws/PerInstr.lean ====
section
/-! SUPPORT. The statements made for every operation, one lemma per constructor of `Instr`. -/

namespace Sys2Proof.Laws.OpcodeField

/-- The OP field of an operation's word is its code in the opcode map, and the word belongs to the opcode
table's row of that code (R71, R72). -/
def Statement (i : Instr) : Prop :=
  opField (encode i) = i.opcode ∧
    ∃ r ∈ opcodeTable, r.opcode = i.opcode ∧ r.matchesWord (encode i) = true

/-- NOP. -/
theorem nop : Statement .nop := by unfold Statement; decide

/-- RESET. -/
theorem reset : Statement .reset := by unfold Statement; decide

/-- INIT. -/
theorem init : Statement .init := by unfold Statement; decide

/-- CLEAR. -/
theorem clear : Statement .clear := by unfold Statement; decide

/-- DISPLAY. -/
theorem display : Statement .display := by unfold Statement; decide

/-- SLEEP. -/
theorem sleep : Statement .sleep := by unfold Statement; decide

/-- CCLR. -/
theorem cclr : Statement .cclr := by unfold Statement; decide

/-- PSET, for every operand. -/
theorem pset (x y : BitVec 12) (v : Bit) : Statement (.pset x y v) := by
  refine ⟨?_, ⟨0x7#4, 0x00000007#32, 0x000000EF#32⟩, by simp [opcodeTable], rfl, ?_⟩
  · apply BitVec.eq_of_getLsbD_eq
    intro i hi
    simp only [opField, BitVec.getLsbD_extractLsb', Sys2Proof.Machine.pset_bit]
    simp [hi, Instr.opcode]
  · simp only [OpcodeRow.matchesWord, beq_iff_eq]
    apply BitVec.eq_of_getLsbD_eq
    intro i hi
    rw [BitVec.getLsbD_and, Sys2Proof.Machine.pset_bit]
    interval_cases i <;> simp

/-- PKRD, for every operand. -/
theorem pkrd (a : BitVec 24) : Statement (.pkrd a) := by
  refine ⟨?_, ⟨0x8#4, 0x00000008#32, 0x000000FF#32⟩, by simp [opcodeTable], rfl, ?_⟩
  · apply BitVec.eq_of_getLsbD_eq
    intro i hi
    simp only [opField, BitVec.getLsbD_extractLsb', Sys2Proof.Machine.pkrd_bit]
    simp [hi, Instr.opcode]
  · simp only [OpcodeRow.matchesWord, beq_iff_eq]
    apply BitVec.eq_of_getLsbD_eq
    intro i hi
    rw [BitVec.getLsbD_and, Sys2Proof.Machine.pkrd_bit]
    interval_cases i <;> simp

end Sys2Proof.Laws.OpcodeField
end

