-- ==== Sys2Proof/Laws/Scripts.lean ====
section
/-! SUPPORT. Pieces of pseudocode that go through, the draws a run uses up, and the pins after each kind of
frame. -/

namespace Sys2Proof.Machine

/-- A step draws the transport's answers from the front. -/
theorem step_answers {s t : State} (h : step s = .next t) : t.env.answers <:+ s.env.answers := by
  have hdraw : ∀ e : Env, e.drawAnswer.2.answers <:+ e.answers := by
    intro e; unfold Env.drawAnswer; split
    · rename_i h; rw [h]; exact List.suffix_cons ..
    · exact List.suffix_rfl
  have hlate : ∀ e : Env,
      e.drawLate.2.answers = e.answers := by intro e; unfold Env.drawLate; split <;> rfl
  have hlev : ∀ e : Env,
      e.drawLevel.2.answers = e.answers := by intro e; unfold Env.drawLevel; split <;> rfl
  have hns : ∀ p (s : State),
      (nextStage p s).env = s.env := fun p s => by have := nextStage_frame p s; tauto
  have hnb : ∀ p (s : State),
      (nextByte p s).env = s.env := fun p s => by have := nextByte_frame p s; tauto
  have hds : ∀ n after (s : State), (∀ s : State, (after s).env = s.env) →
      (delayStep n after s).env.answers = s.env.answers := by
    intro n after s ha
    obtain ⟨-, e⟩ | ⟨d, -, -, e⟩ | ⟨d, -, -, e⟩ := delayStep_cases n after s <;> rw [e]
    · simp [hlate]
    · rw [ha]
  obtain ⟨-, e⟩ | ⟨-, hb, p, hp, e⟩ | ⟨-, -, -, -, e⟩ | ⟨-, -, hp, w, ws, er, -, -, e⟩ | ⟨-, -,
      hp, w, ws, i, -, -, e⟩ := step_cases h
  · subst e; exact List.suffix_rfl
  · subst e
    have : (nextInputs s).env = s.env := rfl
    rw [← this]; generalize nextInputs s = s
    unfold seqStep
    split
    · simp [pulsePin]
    · rw [hds]; intro; rfl
    · simp [pulsePin]
    · rw [hds]; intro; rfl
    · simp [hns]
    · simp [sendDc]
    · simp [sendCsLow]
    · unfold sendXfer; split
      · exact hdraw _
      · split <;> simp
    · unfold sendCsHigh; split <;> simp [hnb]
    · rw [hds]; intro; simp [hns]
    · unfold pollBusy; split
      · simp [hns, hlev]
      · split <;> simp [hlev]
    · rw [hds]; intro; rfl
  · subst e; exact List.suffix_rfl
  · subst e; exact List.suffix_rfl
  · have : t.env = s.env := by
      cases i <;> cases e <;> try rfl
      · split <;> rfl
      · split <;> rfl
      · split <;> rfl
      · unfold pkrd; split <;> rfl
    rw [this]

/-- A run draws the transport's answers from the front. -/
theorem reaches_answers {s t : State} (h : Reaches s t) : t.env.answers <:+ s.env.answers :=
  Reaches.keeps (P := fun u => u.env.answers <:+ s.env.answers)
      (fun ha hs => (step_answers hs).trans ha) List.suffix_rfl h

/-- A suffix is what is left after a drop. -/
theorem suffix_drop {α} {a b : List α} {n : Nat} (h : a <:+ b)
    (hl : a.length = b.length - n) : a = b.drop n := by
  obtain ⟨c, rfl⟩ := h
  simp at hl
  by_cases hn : n ≤ c.length + a.length
  · have : c.length = n := by omega
    rw [← this]; simp
  · have : a = [] := List.eq_nil_of_length_eq_zero (by omega)
    subst this; simp at hn ⊢; omega

/-- A level other than the idle one is its complement. -/
theorem not_idle {a l : Bit} (h : l ≠ a) : l = ~~~a := by revert a l; decide

/-- The poll counter as a number. -/
theorem countPoll_toNat (n : Word) : (countPoll n).toNat = min (n.toNat + 1) (2 ^ 32 - 1) := by
  unfold countPoll; split
  · subst n; simp
  · rename_i h
    have : n.toNat ≠ 2 ^ 32 - 1 := fun he => h (BitVec.eq_of_toNat_eq (by simpa using he))
    have := n.isLt
    rw [BitVec.toNat_add]; simp; omega

/-- A piece that, with its next `n` transfers answered ok, performs the events `es` and uses nothing else. -/
def Thru (n : Nat) (pc : Piece) (es : List Event) : Prop := ∀ r : Script, n ≤ r.oks.length →
    (∀ o ∈ r.oks.take n, o = true) →
  pc r = (⟨r.oks.drop n, r.levels, r.trace ++ es⟩, none)

/-- Nothing goes through. -/
theorem thru_skip : Thru 0 Piece.skip [] := by intro r _ _; simp [Piece.skip]

/-- Events go through. -/
theorem thru_events (es) : Thru 0 (Piece.events es) es := by intro r _ _; simp [Piece.events]

/-- Two pieces that go through. -/
theorem thru_andThen {n m a b es fs} (h : Thru n a es) (h' : Thru m b fs) : Thru (n + m)
    (a.andThen b) (es ++ fs) := by
  intro r hl ho
  have h1 := h r (by omega)
      (fun o ho' => ho o (by rw [List.take_add]; exact List.mem_append_left _ ho'))
  have h2 := h' ⟨r.oks.drop n, r.levels, r.trace ++ es⟩ (by simp; omega)
      (fun o ho' => ho o (by rw [List.take_add]; exact List.mem_append_right _ ho'))
  simp only [Piece.andThen, h1, h2]
  simp [List.drop_drop]

/-- A byte that goes through. -/
theorem thru_byte (dc b st sub idx) : Thru 1 (Piece.sendByte dc b st sub idx) [.pin .dc dc,
    .pin .csN 0#1, .xfer b true, .pin .csN 1#1] := by
  intro r hl ho
  rcases hr : r.oks with _ | ⟨o, os⟩
  · simp [hr] at hl
  · simp [hr] at ho; subst ho; simp [Piece.sendByte, hr]

/-- Data bytes that go through. -/
theorem thru_data (st sub) (bs : List Byte) : ∀ i, Thru bs.length (Piece.sendData st sub i bs)
    (bs.flatMap dataFrame) := by
  induction bs with
  | nil => intro i; exact thru_skip
  | cons b bs ih =>
    intro i
    rw [List.length_cons, Nat.add_comm, List.flatMap_cons]
    exact thru_andThen (thru_byte _ _ _ _ _) (ih _)

/-- An entry that goes through. -/
theorem thru_entry (e st sub) : Thru (1 + e.data.length) (Piece.sendEntry e st sub)
    (entryFrames e) :=
  thru_andThen (thru_byte _ _ _ _ _) (thru_data _ _ _ _)

/-- Entries that go through. -/
theorem thru_entries (st) (es : List Entry) : ∀ k,
    Thru (es.map fun e => 1 + e.data.length).sum (Piece.sendEntries st k es)
    (es.flatMap entryFrames) := by
  induction es with
  | nil => intro i; exact thru_skip
  | cons b bs ih =>
    intro i
    rw [List.map_cons, List.sum_cons, List.flatMap_cons]
    exact thru_andThen (thru_entry _ _ _) (ih _)

/-- The poll loop over `k` busy levels and then the idle one. -/
theorem pollLoop_idle (cfg : Panel) (st) : ∀ (k : Nat) (polls : Word) (ls : List Bit),
    (∀ l ∈ ls.take k, l ≠ cfg.busyIdleLevel) → ls[k]? = some cfg.busyIdleLevel →
    (∀ n, cfg.busyTimeoutPolls = some n → polls.toNat + k < n) →
    pollLoop cfg st polls ls = (ls.drop (k + 1), waitEvents cfg k, none) := by
  intro k
  induction k with
  | zero =>
    intro polls ls _ h _
    cases ls <;> simp at h
    subst h; simp [pollLoop, waitEvents]
  | succ k ih =>
    intro polls ls hl h ht
    rcases ls with _ | ⟨l, ls⟩
    · simp at h
    · have hl0 := hl l (by simp)
      have hto : timedOut cfg (countPoll polls) = false := by
        unfold timedOut; split
        · rfl
        · rename_i n hn; have := ht n hn; rw [countPoll_toNat]; simp; omega
      have := ih (countPoll polls) ls (fun x hx => hl x (by simp [hx])) (by simpa using h)
          (fun n hn => by have := ht n hn; rw [countPoll_toNat]; omega)
      simp [pollLoop, hto, this, waitEvents, List.replicate_succ, not_idle hl0]

/-- A wait that goes through. -/
theorem thru_wait {cfg : Panel} {st} {k : Nat} (r : Script) (h1 : ∀ l ∈ r.levels.take k,
    l ≠ cfg.busyIdleLevel) (h2 : r.levels[k]? = some cfg.busyIdleLevel)
    (h3 : ∀ n, cfg.busyTimeoutPolls = some n → k < n) :
    Piece.waitUntilIdle cfg st r = (⟨r.oks, r.levels.drop (k + 1), r.trace ++ waitEvents cfg k⟩,
        none) := by
  simp only [Piece.waitUntilIdle, pollLoop_idle cfg st k 0#32 r.levels h1 h2 (by simpa using h3)]

end Sys2Proof.Machine
end

