-- ==== Sys2Proof/Machine/Assembler.lean ====
section
/-! DEFINITION. The text of an assembly line and the word it stands for (spec/30_encoding.md R79, R80): one
operation per line, case-insensitive mnemonics, `;` starts a comment, operands decimal or `0x` hex,
separated by commas. A line is a list of characters. -/

namespace Sys2Proof.Machine

/-- Why a line is refused: its mnemonic is none of R79's and R80's, its operands are not the numbers the
mnemonic takes, or an operand is out of range (R79). -/
inductive AsmError where
  | unknownMnemonic
  | badOperands
  | outOfRange
  deriving DecidableEq, Repr

/-- A space or a tab. -/
def isBlankChar (c : Char) : Bool := c == ' ' || c == '\t'

/-- The line up to its comment. -/
def stripComment (cs : List Char) : List Char := cs.takeWhile fun c => c != ';'

/-- Without the blanks at both ends. -/
def trimBlanks (cs : List Char) : List Char :=
  ((cs.dropWhile isBlankChar).reverse.dropWhile isBlankChar).reverse

/-- The parts of a list between its commas. -/
def splitCommas : List Char → List (List Char)
  | [] => [[]]
  | c :: cs =>
    if c = ',' then [] :: splitCommas cs
    else match splitCommas cs with
      | [] => [[c]]
      | w :: ws => (c :: w) :: ws

/-- The value of a digit below `base`; letters are upper case here. -/
def digitValue (base : Nat) (c : Char) : Option Nat :=
  let v := if '0' ≤ c ∧ c ≤ '9' then some (c.toNat - 48)
    else if 'A' ≤ c ∧ c ≤ 'F' then some (c.toNat - 55) else none
  v.filter fun n => decide (n < base)

/-- The value of digits, the most significant first. -/
def digitsValue (base : Nat) : Nat → List Char → Option Nat
  | acc, [] => some acc
  | acc, c :: cs => (digitValue base c).bind fun d => digitsValue base (acc * base + d) cs

/-- A decimal or `0x` hexadecimal number. -/
def parseNumber : List Char → Option Nat
  | [] => none
  | '0' :: 'X' :: [] => none
  | '0' :: 'X' :: cs => digitsValue 16 0 cs
  | cs => digitsValue 10 0 cs

/-- The operands of a line, all of them numbers. -/
def parseOperands (cs : List Char) : Option (List Nat) :=
  if cs = [] then some [] else ((splitCommas cs).map fun w => parseNumber (trimBlanks w)).mapM id

/-- A mnemonic with no operands. -/
def noOperands (l : AsmLine) (ops : List Nat) : Except AsmError AsmLine :=
  if ops = [] then .ok l else .error .badOperands

/-- The line of a mnemonic, in upper case, and its operands (R79, R80). -/
def lineOf (m : List Char) (ops : List Nat) : Except AsmError AsmLine :=
  if m = ['N', 'O', 'P'] then noOperands .nop ops
  else if m = ['R', 'E', 'S', 'E', 'T'] then noOperands .reset ops
  else if m = ['I', 'N', 'I', 'T'] then noOperands .init ops
  else if m = ['C', 'L', 'E', 'A', 'R'] then noOperands .clear ops
  else if m = ['D', 'I', 'S', 'P', 'L', 'A', 'Y'] then noOperands .display ops
  else if m = ['S', 'L', 'E', 'E', 'P'] then noOperands .sleep ops
  else if m = ['C', 'C', 'L', 'R'] then noOperands .cclr ops
  else if m = ['P', 'S', 'E', 'T'] then
    match ops with
    | [x, y, v] => .ok (.pset x y v)
    | _ => .error .badOperands
  else if m = ['P', 'K', 'R', 'D'] then
    match ops with
    | [a] => .ok (.pkrd a)
    | _ => .error .badOperands
  else if m = ['P', 'B', 'L', 'A', 'C', 'K'] then
    match ops with
    | [x, y] => .ok (.pblack x y)
    | _ => .error .badOperands
  else if m = ['P', 'W', 'H', 'I', 'T', 'E'] then
    match ops with
    | [x, y] => .ok (.pwhite x y)
    | _ => .error .badOperands
  else if m = ['.', 'W', 'O', 'R', 'D'] then
    match ops with
    | [n] => .ok (.word n)
    | _ => .error .badOperands
  else .error .unknownMnemonic

/-- A line of text as an assembly line; `none` for a line with nothing but blanks and a comment. The whole
line is read in upper case: R79 asks it of the mnemonics alone, so that an upper-case `0X` prefix and
hex digits of either case are accepted is the model's choice (DESIGN CHOICE, notes/assumptions/12.md). -/
def parseLine (cs : List Char) : Except AsmError (Option AsmLine) :=
  let text := (trimBlanks (stripComment cs)).map Char.toUpper
  if text = [] then .ok none
  else
    match parseOperands (trimBlanks (text.dropWhile fun c => !isBlankChar c)) with
    | none => .error .badOperands
    | some ops =>
      match lineOf (text.takeWhile fun c => !isBlankChar c) ops with
      | .error e => .error e
      | .ok l => .ok (some l)

/-- The words of a program text, line by line (R79). -/
def assembleText : List (List Char) → Except AsmError (List Word)
  | [] => .ok []
  | cs :: rest =>
    match parseLine cs with
    | .error e => .error e
    | .ok none => assembleText rest
    | .ok (some l) =>
      match assembleLine l with
      | none => .error .outOfRange
      | some w =>
        match assembleText rest with
        | .error e => .error e
        | .ok ws => .ok (w :: ws)

end Sys2Proof.Machine
end

