-- ==== Sys2Proof/Machine/Producer.lean ====
section
/-! DEFINITION. The producer of canvas words (spec/40_canvas.md R103), a model of the host side and not of
EPDSEQ: which PSET operations it issues for a source layer. -/

namespace Sys2Proof.Machine

/-- A source pixel as the producer sees it: its quantized value (1 for white) and whether it is exactly
pure white. How a colour is quantized is outside EPDSEQ. -/
structure LayerPixel where
  quantized : Bit
  pureWhite : Bool
  deriving DecidableEq, Repr

/-- A source layer: its rows of pixels, its offset on the canvas, and whether pure white is see-through. -/
structure Layer where
  rows : List (List LayerPixel)
  ox : Nat
  oy : Nat
  transparent : Bool
  deriving DecidableEq, Repr

/-- The word, if any, for source pixel `(sx, sy)`: clipped to the canvas, and none for a pure white pixel
of a transparent layer (R103). -/
def layerPixelInstr (p : Panel) (l : Layer) (sx sy : Nat) (c : LayerPixel) : List Instr :=
  if onCanvas p (l.ox + sx) (l.oy + sy) && !(l.transparent && c.pureWhite) then
    [.pset (BitVec.ofNat 12 (l.ox + sx)) (BitVec.ofNat 12 (l.oy + sy)) c.quantized]
  else []

/-- The operations the producer issues for a layer, row by row (R103). -/
def layerInstrs (p : Panel) (l : Layer) : List Instr :=
  (l.rows.zipIdx.map fun row =>
    (row.1.zipIdx.map fun c => layerPixelInstr p l c.2 row.2 c.1).flatten).flatten

end Sys2Proof.Machine
end

