-- ==== Sys2Proof/Tests/Slice0.lean ====
section
/-! SUPPORT. The model's own tests, with expected values from spec/95_test_vectors.md (the section stands
beside each group) or worked out by hand from the rule named, and a witness for the hypotheses of every
statement. -/

namespace Sys2Proof.Tests

open Sys2Proof Sys2Proof.Machine

/-! ### Helpers -/

/-- The outcome is a next state that passes. -/
def nextIs (P : State → Bool) : Host.Outcome State Fault Refusal → Bool
  | .next t => P t
  | .fault _ => false
  | .refused _ => false

/-- TCFG as a well-formed configuration. -/
def panel : WfPanel := ⟨tcfg, by decide⟩

/-- TCFG2 as a well-formed configuration. -/
def panel2 : WfPanel := ⟨tcfg2, by decide⟩

/-- TCFG-T3 as a well-formed configuration. -/
def panelT3 : WfPanel := ⟨tcfgT3, by decide⟩

/-- An idle block after a RESET of its panel: RST_N and CS_N are 1. -/
def idleAt (c : WfPanel) (ps : PState) : State :=
  { State.resetWith c with pstate := ps, csN := 1#1, rstN := 1#1 }

/-- A host word at the port. -/
def withWord (s : State) (w : Word) : State := { s with cmdQueue := [some w] }

/-- Transport answers, all at once. -/
def answersOf (oks : List Bool) : List Answer := oks.map fun ok => ⟨ok, 0x5A#8, 0⟩

/-- A state that will draw these answers and levels. -/
def withDraws (s : State) (oks : List Bool) (levels : List Bit) : State :=
  { s with env := ⟨answersOf oks, levels, [], 0⟩ }

/-- A block of configuration `c` at a position. -/
def runAt (c : WfPanel) (p : Pos) : State :=
  { State.resetWith c with pstate := .ready, busy := true, csN := 1#1, rstN := 1#1, pc := .run p }

/-- How the pseudocode of an operation ends from a state. -/
def haltOf (s : State) (op : RunOp) : Option Halt :=
  (pseudocode s.cfg s.canvas op ⟨s.env.answers.map (fun a => a.ok), s.env.levels, []⟩).2

/-- SLEEP's wait for power-off, at its first sample. -/
def sleepWait : Pos :=
  ⟨.sleep, .waitPowerOff, 0#8, .wait, 0#32, 0#32, .sample, [single .deepSleep]⟩

/-- SLEEP's power-off command byte, at its first pin write. -/
def sleepByte : Pos := ⟨.sleep, .powerOff, 0#8, .cmd, 0#32, 0#32, .setDc, sleepRest⟩

/-- The canvas whose black pixels are these. -/
def black (c : Panel) (ps : List (Nat × Nat)) : Memory :=
  ps.foldl (fun m p => psetCanvas c m p.1 p.2 0#1) []

/-- A configuration of another size. -/
def sized (w h : Nat) : Panel := { tcfg with width := w, height := h }

/-! ### Well-formedness: each check refuses an ill-formed term (R9, R79) -/

theorem test_wf_accepts : tcfg.wf = true ∧ tcfg2.wf = true ∧ tcfgT3.wf = true := by decide

theorem test_wf_width : (sized 0 2).wf = false ∧ (sized 4097 2).wf = false := by decide

theorem test_wf_height : (sized 16 0).wf = false ∧ (sized 16 4097).wf = false := by decide

theorem test_wf_limits : (sized 4096 4096).wf = true ∧ (sized 1 1).wf = true := by decide

theorem test_wf_powerOn : ({ tcfg with powerOn := ⟨0xA5#8, [0#8]⟩ } : Panel).wf = false := by decide

theorem test_wf_deepSleep : ({ tcfg with deepSleep := ⟨0xAC#8, []⟩ } : Panel).wf = false := by decide

theorem test_wf_startTransmission :
    ({ tcfg with startTransmission := ⟨0xA9#8, [1#8]⟩ } : Panel).wf = false := by decide

theorem test_wf_lut : ({ tcfg with lut := tcfg.lut.take 4 } : Panel).wf = false := by decide

theorem test_wf_powopt (l : List Entry) (h : l.length = 257) :
    ({ tcfg with powopt := l } : Panel).wf = false := by simp [Panel.wf, h]

theorem test_wf_timeout : ({ tcfg with busyTimeoutPolls := some 0 } : Panel).wf = false ∧
    ({ tcfg with busyTimeoutPolls := some (2 ^ 32) } : Panel).wf = false := by decide

theorem test_instantiate_refuses : instantiate (sized 0 2) = .error .illFormed := by decide

theorem test_instantiate_accepts : instantiate tcfg = .ok State.reset := by decide

theorem test_wf_line : (AsmLine.pset 4096 0 0).wf = false ∧ (AsmLine.pset 0 4096 0).wf = false ∧
    (AsmLine.pset 0 0 2).wf = false ∧ (AsmLine.pkrd (2 ^ 24)).wf = false ∧
    (AsmLine.pblack 4096 0).wf = false ∧ (AsmLine.pwhite 0 4096).wf = false ∧
    (AsmLine.word (2 ^ 32)).wf = false := by decide

/-- The length bound on a data list (R9): a list of `2^32` bytes is refused, whatever it holds. -/
theorem test_wf_data (e : Entry) (h : e.data.length = 2 ^ 32) : e.wf = false := by
  simp [Entry.wf, h]

/-! ### Decoding: words written out from R71, and 2.1 -/

theorem test_decode_nop : decode 0b00000000000000000000000000000000#32 = .ok .nop := by decide

theorem test_decode_sleep : decode 0b00000000000000000000000000000101#32 = .ok .sleep := by decide

theorem test_decode_cclr : decode 0b00000000000000000000000000000110#32 = .ok .cclr := by decide

/-- `{Y, X, Z, V, OP}` with `y = 1`, `x = 3`, `v = 0`. -/
theorem test_decode_pset :
    decode 0b00000000000100000000001100000111#32 = .ok (.pset 3 1 0) := by decide

/-- `{A, 0000, OP}` with `a = 0x800001`. -/
theorem test_decode_pkrd :
    decode 0b10000000000000000000000100001000#32 = .ok (.pkrd 0x800001) := by decide

theorem test_decode_illegal : decode 0x00000027#32 = .error .reservedBits ∧
    decode 0x00000118#32 = .error .reservedBits ∧
    decode 0x0000000F#32 = .error .reservedOpcode := by decide

theorem test_decodeTableWord : decodeTableWord 32 0x00100307 = some (.pset 3 1 0) ∧
    decodeTableWord 32 0x00000009 = none ∧ decodeTableWord 8 0x00000407 = some (.pset 0 0 0) := by
  decide

/-- Every row of the opcode table decodes to its operation. -/
theorem test_table : opcodeTable.all (fun r => match decode r.value with
    | .ok i => i.opcode == r.opcode
    | .error _ => false) = true := by decide

/-! ### Assembler text (R79, R80); words from section 3 -/

theorem test_asm_text : assembleText ["CCLR".toList, " pblack 9, 1 ; draw".toList, "".toList,
    "Pset 0x0a,1,0".toList, "PKRD 3".toList, ".word 0x9".toList]
    = .ok [0x00000006#32, 0x00100907#32, 0x00100A07#32, 0x00000308#32, 0x00000009#32] := by decide

theorem test_asm_refuses : assembleText ["PSET 4096, 0, 0".toList] = .error .outOfRange ∧
    assembleText ["NOP 1".toList] = .error .badOperands ∧
    assembleText ["WAIT".toList] = .error .unknownMnemonic := by decide

/-! ### Registers (R25, R30) -/

/-- T-HANG: SLEEP running after T-INIT-1 reads `0x00000205`. -/
theorem test_status_running :
    readReg 0#2 { runAt panel sleepWait with lastOp := 0x2#4 } = 0x00000205#32 := by decide

/-- T-ERR-1: data byte of POWER_SETTING. -/
theorem test_errStepWord :
    errStepWord Phase.data.dcLevel 0#8 StepId.powerSetting.code = 0x00010002#32 := by decide

/-! ### The packer: the table of 2.3 -/

theorem test_pack_8x1 :
    pack (sized 8 1) (black (sized 8 1) [(0, 0), (2, 0), (4, 0), (6, 0)]) = [0x55#8] ∧
    pack (sized 8 1) (black (sized 8 1) [(0, 0)]) = [0x7F#8] ∧
    pack (sized 8 1) (black (sized 8 1) [(7, 0)]) = [0xFE#8] := by decide

theorem test_pack_padding :
    pack (sized 10 1) (black (sized 10 1) ((List.range 10).map fun x => (x, 0))) = [0x00#8, 0x3F#8] ∧
    pack (sized 9 1) (black (sized 9 1) [(8, 0)]) = [0xFF#8, 0x7F#8] ∧
    pack (sized 1 3) (black (sized 1 3) [(0, 0), (0, 2)]) = [0x7F#8, 0xFF#8, 0x7F#8] := by decide

theorem test_pack_rows :
    pack (sized 12 2) (black (sized 12 2) [(0, 0), (11, 1)]) = [0x7F#8, 0xFF#8, 0xFF#8, 0xEF#8] ∧
    pack (sized 16 2) (black (sized 16 2) [(0, 0), (9, 1)]) = [0x7F#8, 0xFF#8, 0xFF#8, 0xBF#8] := by
  decide

/-- The accumulator form on a partial last byte (R198). -/
theorem test_packRow :
    packRowAcc (sized 10 1) (black (sized 10 1) [(9, 0)]) 0 = [0xFF#8, 0xBF#8] := by decide

/-! ### The producer: W-3 and W-5 (R103) -/

/-- A 4 x 4 black square at the origin. -/
def blackSquare : Layer := ⟨List.replicate 4 (List.replicate 4 ⟨0#1, false⟩), 0, 0, false⟩

/-- A pure white square. -/
def whiteSquare (transparent : Bool) : Layer :=
  ⟨List.replicate 4 (List.replicate 4 ⟨1#1, true⟩), 0, 0, transparent⟩

/-- The canvas after PSET operations. -/
def afterPsets (c : Panel) (is : List Instr) : Memory :=
  is.foldl (fun m i => match i with
    | .pset x y v => psetCanvas c m x.toNat y.toNat v
    | .nop | .reset | .init | .clear | .display | .sleep | .cclr | .pkrd _ => m) []

theorem test_producer_square : pack (sized 8 8) (afterPsets (sized 8 8) (layerInstrs (sized 8 8) blackSquare))
    = [0x0F#8, 0x0F#8, 0x0F#8, 0x0F#8, 0xFF#8, 0xFF#8, 0xFF#8, 0xFF#8] := by decide

theorem test_producer_transparent : layerInstrs (sized 8 8) (whiteSquare true) = [] ∧
    (layerInstrs (sized 8 8) (whiteSquare false)).length = 16 := by decide

/-! ### Single steps, 2.2 and 2.5 -/

theorem test_nop : nextIs (fun t => readReg 0#2 t = 0x00000001#32)
    (step { withWord (idleAt panel .ready) 0x00000000#32 with err := .state }) = true := by decide

theorem test_cclr : nextIs (fun t => packedByte tcfg t.canvas 0 = 0xFF#8 ∧ t.lastOp = 0x6#4)
    (step { withWord (idleAt panel .ready) 0x00000006#32 with canvas := black tcfg [(0, 0)] }) = true := by
  decide

theorem test_pset : nextIs (fun t => pack tcfg t.canvas = [0xFF#8, 0xFF#8, 0xEF#8, 0xFF#8])
    (step (withWord State.reset 0x00100307#32)) = true := by decide

theorem test_pset_clips : nextIs (fun t => t.canvas = [] ∧ t.err = .ok)
    (step (withWord State.reset 0x00001007#32)) = true := by decide

theorem test_pkrd : nextIs (fun t => t.result = 0xEF#32 ∧ t.err = .ok)
    (step { withWord State.reset 0x00000208#32 with canvas := black tcfg [(3, 1)] }) = true := by
  decide

/-- P2, line 8: STATUS `0x00000850`, RESULT kept. -/
theorem test_pkrd_range : nextIs (fun t => readReg 0#2 t = 0x00000850#32 ∧ t.result = 0x7F#32)
    (step { withWord (State.resetWith panel2) 0x00000408#32 with result := 0x7F#32 }) = true := by
  decide

/-- T-STATE, first row. -/
theorem test_clear_refused : nextIs (fun t => readReg 0#2 t = 0x00000320#32 ∧ t.wire = [])
    (step (withWord (idleAt panel .uninitialized) 0x00000003#32)) = true := by decide

/-- T-STATE, DISPLAY in Sleeping. -/
theorem test_display_refused : nextIs (fun t => readReg 0#2 t = 0x00000422#32 ∧ t.wire = [])
    (step (withWord (idleAt panel .sleeping) 0x00000004#32)) = true := by decide

/-- T-STATE, SLEEP in Sleeping. -/
theorem test_sleep_refused : nextIs (fun t => readReg 0#2 t = 0x00000522#32)
    (step (withWord (idleAt panel .sleeping) 0x00000005#32)) = true := by decide

/-- T-STATE, a reserved opcode in Ready. -/
theorem test_illegal : nextIs (fun t => readReg 0#2 t = 0x00000911#32)
    (step (withWord (idleAt panel .ready) 0x00000009#32)) = true := by decide

/-- INIT is accepted in every PSTATE and begins with the reset pulse (R153). -/
theorem test_init_begins :
    nextIs (fun t => t.busy ∧ t.pc = .run (enterStage .init (single .resetPulse) (initRest tcfg)))
      (step (withWord (idleAt panel .sleeping) 0x00000002#32)) = true := by decide

/-- RESET's first primitive raises RST_N (R122). -/
theorem test_reset_first_pin :
    nextIs (fun t => t.rstN = 1#1 ∧ t.wire = [.pin .rstN 1#1])
      (step { State.reset with
        busy := true
        pc := .run (enterStage .reset (single .resetPulse) []) }) = true := by decide

/-- Block reset while SLEEP waits (R251). -/
theorem test_rst : nextIs (fun t => t.busy = false ∧ t.done = false ∧ t.rstN = 0#1 ∧
    t.pstate = .uninitialized) (step { runAt panel sleepWait with rstIn := [true] }) = true := by decide

/-- `withFetchWord` makes the very next step run the word. -/
theorem test_withFetchWord : nextIs (fun t => t.lastOp = 0x8#4 ∧ t.result = 0xFF#32)
    (step (State.reset.withFetchWord 32 0x00000308)) = true := by decide

/-! ### Whole operations as pseudocode: 2.4 and 2.5 -/

/-- T-INIT-1. -/
theorem test_trace_init : initEvents tcfg 0 = resetPulseEvents tcfg
      ++ cmdFrame 0xA1#8 ++ dataFrame 0x11#8 ++ dataFrame 0x12#8 ++ cmdFrame 0xA2#8
      ++ dataFrame 0x21#8 ++ cmdFrame 0xA3#8 ++ dataFrame 0x31#8 ++ cmdFrame 0xA3#8
      ++ dataFrame 0x32#8 ++ cmdFrame 0xA4#8 ++ dataFrame 0x00#8 ++ cmdFrame 0xA5#8
      ++ [.sample 1#1] ++ cmdFrame 0xA6#8 ++ dataFrame 0x61#8 ++ cmdFrame 0xA7#8
      ++ dataFrame 0x71#8 ++ cmdFrame 0xA8#8 ++ dataFrame 0x81#8 ++ cmdFrame 0xB0#8
      ++ dataFrame 0xC0#8 ++ cmdFrame 0xB1#8 ++ dataFrame 0xC1#8 ++ cmdFrame 0xB2#8
      ++ dataFrame 0xC2#8 ++ cmdFrame 0xB3#8 ++ dataFrame 0xC3#8 ++ cmdFrame 0xB4#8
      ++ dataFrame 0xC4#8 := by rfl

/-- T-ERR-1: transport err on the third transfer. -/
theorem test_trace_init_err : pseudocode tcfg [] .init ⟨[true, true, false], [], []⟩ =
    (⟨[], [], [.pin .rstN 1#1, .delay .rstHigh 0, .pin .rstN 0#1, .delay .rstLow 0, .pin .rstN 1#1]
      ++ cmdFrame 0xA1#8 ++ dataFrame 0x11#8
      ++ [.pin .dc 1#1, .pin .csN 0#1, .xfer 0x12#8 false, .pin .csN 1#1]⟩,
      some (.error .transport .powerSetting 0#8 1#1 1#32)) := by decide

theorem test_trace_display :
    pseudocode tcfg (black tcfg ((List.range 8).map fun x => (x, 0))) .display
      ⟨List.replicate 6 true, [1#1], []⟩ =
    (⟨[], [], cmdFrame 0xA9#8 ++ dataFrame 0x00#8 ++ dataFrame 0xFF#8 ++ dataFrame 0xFF#8
      ++ dataFrame 0xFF#8 ++ cmdFrame 0xAA#8 ++ [.delay .refreshSettle 0, .sample 1#1]⟩, none) := by
  rfl

/-- T-ERR-3: transport err on frame byte 2. -/
theorem test_trace_err : (pseudocode tcfg [] .display ⟨[true, true, true, false], [], []⟩).2 =
    some (.error .transport .startTransmission 0#8 1#1 2#32) := by decide

/-- T-ERR-2: three busy samples under TCFG-T3. -/
theorem test_trace_timeout : pseudocode tcfgT3 [] .sleep ⟨[true], [0#1, 0#1, 0#1], []⟩ =
    (⟨[], [], cmdFrame 0xAB#8 ++ [.sample 0#1, .delay .poll 0, .sample 0#1, .delay .poll 0,
      .sample 0#1]⟩, some (.error .unresponsive .waitPowerOff 0#8 0#1 3#32)) := by decide

/-! ### Witnesses: a state and operands that meet the hypotheses of each statement -/

theorem coherent_idle_ready : Coherent (idleAt panel .ready) :=
  ⟨by decide, by decide, by decide, by decide, by decide, by decide, by decide, by decide,
    by decide, by decide⟩

theorem coherent_idle_sleeping : Coherent (idleAt panel .sleeping) :=
  ⟨by decide, by decide, by decide, by decide, by decide, by decide, by decide, by decide,
    by decide, by decide⟩

theorem coherent_wait : Coherent (withDraws (runAt panel sleepWait) [] [0#1, 1#1]) :=
  ⟨by decide, by decide, by decide, by decide, by decide, by decide, by decide, by decide,
    by decide, by decide⟩

theorem coherent_wait_timeout : Coherent (withDraws (runAt panelT3 sleepWait) [] [0#1, 0#1, 0#1]) :=
  ⟨by decide, by decide, by decide, by decide, by decide, by decide, by decide, by decide,
    by decide, by decide⟩

theorem coherent_byte (ok : Bool) : Coherent (withDraws (runAt panel sleepByte) [ok] []) := by
  cases ok <;>
  exact ⟨by decide, by decide, by decide, by decide, by decide, by decide, by decide,
    by decide, by decide, by decide⟩

/-- SLEEP's power-off byte, answered err, CS_N about to rise. -/
def failedByte : State := { runAt panel { sleepByte with next := .csHigh false } with csN := 0#1 }

theorem coherent_failedByte : Coherent failedByte :=
  ⟨by decide, by decide, by decide, by decide, by decide, by decide, by decide, by decide,
    by decide, by decide⟩

/-- SLEEP's last wait round under TCFG-T3: two busy samples taken, a busy one to come. -/
def lastPoll : State := withDraws (runAt panelT3 { sleepWait with polls := 2#32 }) [] [0#1]

theorem coherent_lastPoll : Coherent lastPoll :=
  ⟨by decide, by decide, by decide, by decide, by decide, by decide, by decide, by decide,
    by decide, by decide⟩

/-- RESET at its last pin write. -/
def resetEnd : State :=
  { runAt panel ⟨.reset, .resetPulse, 0#8, .pin, 0#32, 0#32, .rstHighAgain, []⟩ with rstN := 0#1 }

theorem coherent_resetEnd : Coherent resetEnd :=
  ⟨by decide, by decide, by decide, by decide, by decide, by decide, by decide, by decide,
    by decide, by decide⟩

/-- INIT at the CS_N rise after its last byte. -/
def initEnd : State :=
  { runAt panel ⟨.init, .lut, 4#8, .data, 0#32, 0#32, .csHigh true, []⟩ with
    pstate := .uninitialized
    csN := 0#1
    dc := 1#1 }

theorem witness_EncodeOfDecode : decode 0x00100307#32 = .ok (.pset 3 1 0) := by decide

/-- The boundary values of each clause, on either side. -/
theorem witness_AssemblerEmitsEncodings :
    (assembleLine (.pset 4095 4095 1) = some 0xFFFFFF17#32 ∧
      assembleLine (.pset 0 0 0) = some 0x00000007#32) ∧
    (assembleLine (.pblack 4095 0) = some 0x000FFF07#32 ∧
      assembleLine (.pwhite 0 4095) = some 0xFFF00017#32) ∧
    assembleLine (.pkrd (2 ^ 24 - 1)) = some 0xFFFFFF08#32 ∧
    (assembleLine (.pset 4096 0 0) = none ∧ assembleLine (.pset 0 4096 0) = none ∧
      assembleLine (.pset 0 0 2) = none) ∧
    (assembleLine (.pblack 4096 0) = none ∧ assembleLine (.pwhite 0 4096) = none) ∧
    assembleLine (.pkrd (2 ^ 24)) = none ∧ assembleLine (.word 0xFFFFFFFF) = some 0xFFFFFFFF#32 := by
  decide

theorem witness_BlockResetAtAnyPoint :
    rstAsserted { runAt panel sleepWait with rstIn := [true] } = true := by decide

theorem witness_StepRunsTheDecodedOperation :
    let s := withWord (idleAt panel .ready) 0x00000003#32
    rstAsserted s = false ∧ s.busy = false ∧ s.pc = .idle ∧ s.cmdQueue = [some 0x00000003#32] ∧
      decode 0x00000003#32 = .ok .clear := by decide

/-- Each way for a word to be illegal. -/
theorem witness_IllegalWordCompletesWithErrIllegal :
    let s := fun w => withWord (idleAt panel .ready) w
    (∀ w, rstAsserted (s w) = false ∧ (s w).busy = false ∧ (s w).pc = .idle ∧
      (s w).cmdQueue = [some w]) ∧
    illegalWord 0x80000003#32 = true ∧ illegalWord 0x00000027#32 = true ∧
    illegalWord 0x00000118#32 = true ∧ illegalWord 0x00000009#32 = true ∧
    illegalWord 0xFFFFFF17#32 = false := by
  refine ⟨fun w => ⟨rfl, rfl, rfl, rfl⟩, by decide, by decide, by decide, by decide, by decide⟩

theorem witness_IdleBlockWaitsForAWord :
    let s := idleAt panel .ready
    rstAsserted s = false ∧ s.busy = false ∧ s.pc = .idle ∧ s.cmdQueue = [] ∧
      ({ s with cmdQueue := [none] } : State).cmdQueue = none :: [] := by decide

theorem witness_BusyBlockHoldsTheHostWord :
    ∃ t, (runAt panel sleepByte).busy = true ∧ step (runAt panel sleepByte) = .next t := ⟨_, rfl, rfl⟩

/-- An operation that ends, in its last step. -/
theorem witness_DoneMarksTheEndOfAnOperation :
    ∃ t, rstAsserted resetEnd = false ∧ step resetEnd = .next t ∧ t.done = true ∧ t.busy = false ∧
      resetEnd.busy = true := ⟨_, rfl, rfl, rfl, rfl, rfl⟩

theorem witness_PortReadyAfterEveryEnd :
    ∃ t, Coherent resetEnd ∧ step resetEnd = .next t ∧ t.done = true :=
  ⟨_, coherent_resetEnd, rfl, rfl⟩

/-- A primitive in the middle of an operation. -/
theorem witness_RegistersChangeOnlyAtAnEnd :
    ∃ t, rstAsserted (runAt panel sleepByte) = false ∧ step (runAt panel sleepByte) = .next t ∧
      t.done = false ∧ t.busy = true := ⟨_, rfl, rfl, rfl, rfl⟩

/-- PSTATE changes by a completion and by an abort. -/
theorem witness_PstateChangesOnlyAtAProtocolEnd :
    (∃ t, rstAsserted resetEnd = false ∧ step resetEnd = .next t ∧ t.pstate ≠ resetEnd.pstate ∧
      t.err = .ok) ∧
    (∃ t, rstAsserted failedByte = false ∧ step failedByte = .next t ∧
      t.pstate ≠ failedByte.pstate ∧ t.err ≠ .ok) :=
  ⟨⟨_, rfl, rfl, by decide, rfl⟩, ⟨_, rfl, rfl, by decide, by decide⟩⟩

theorem witness_OnlyInitMakesReady :
    ∃ t, step initEnd = .next t ∧ initEnd.pstate ≠ .ready ∧ t.pstate = .ready :=
  ⟨_, rfl, by decide, rfl⟩

theorem witness_PanelConditionTracksPstate :
    (Coherent (idleAt panel .ready) ∧ (idleAt panel .ready).busy = false) ∧
    (Coherent (idleAt panel .sleeping) ∧ (idleAt panel .sleeping).busy = false) :=
  ⟨⟨coherent_idle_ready, rfl⟩, ⟨coherent_idle_sleeping, rfl⟩⟩

theorem witness_CclrIsThePixelLoop :
    let s : State := { State.reset with canvas := black tcfg [(15, 1)] }
    s.canvas.wf = true ∧ s.canvas.within (s.cfg.width * s.cfg.height) = true ∧
      ∃ t, exec .cclr s = .next t := ⟨by decide, by decide, _, rfl⟩

theorem witness_PsetWritesOnePixel : (black tcfg [(3, 1)]).wf = true := by decide

/-- The last legal address and the first refused one. -/
theorem witness_PkrdReadsOnePackedByte :
    (3#24).toNat < State.reset.cfg.nbytes ∧ State.reset.cfg.nbytes ≤ (4#24).toNat := by decide

theorem witness_NotReadyCompletesWithErrState :
    RunOp.clear.needsReady = true ∧ RunOp.display.needsReady = true ∧
      RunOp.sleep.needsReady = true ∧ (idleAt panel .sleeping).pstate ≠ .ready ∧
      State.reset.pstate ≠ .ready := by decide

theorem witness_OperationsBeginAtTheirFirstStep :
    (RunOp.init.needsReady = true → State.reset.pstate = .ready) ∧
    (RunOp.clear.needsReady = true → (idleAt panel .ready).pstate = .ready) := by decide

theorem witness_LineWidthAndBufferLength : (sized 1 1).wf = true ∧ (sized 4096 4096).wf = true := by
  decide

/-- A pixel of the last column and a padding bit. -/
theorem witness_PackedByteBits : (1 < tcfg2.nbytes ∧ 1 < 8 ∧ 8 * (1 % tcfg2.lineWidth) + 1 < tcfg2.width) ∧
    (1 < tcfg2.nbytes ∧ 2 < 8 ∧ ¬ 8 * (1 % tcfg2.lineWidth) + 2 < tcfg2.width) := by decide

/-- The highest padding bit. -/
theorem witness_PaddingIsWhite : 1 < tcfg2.height ∧ tcfg2.width % 8 ≠ 0 ∧ 5 < 8 - tcfg2.width % 8 := by
  decide

/-- Two canvases that differ in row 1 alone, and a byte of row 0. -/
theorem witness_RowsPackIndependently : ∀ x, x < tcfg.width →
    canvasRead tcfg (black tcfg [(0, 0), (0, 1)]) x (1 / tcfg.lineWidth)
      = canvasRead tcfg (black tcfg [(0, 0)]) x (1 / tcfg.lineWidth) := by decide

theorem witness_AccumulatorPacksTheSameBytes : 1 ≤ (sized 1 3).width := by decide

theorem witness_EveryStepKeepsCoherence :
    ∃ t, Coherent lastPoll ∧ step lastPoll = .next t := ⟨_, coherent_lastPoll, rfl⟩

theorem witness_CoherentStatesNeverStop : Coherent (idleAt panel .ready) := coherent_idle_ready

theorem witness_ConfigurationNeverChanges : Reaches State.reset State.reset := ⟨0, rfl⟩

theorem witness_OnlyCanvasOperationsWriteTheCanvas :
    ∃ t, step (withWord State.reset 0x00100307#32) = .next t ∧ t.canvas ≠ State.reset.canvas :=
  ⟨_, rfl, by decide⟩

theorem witness_PinsFollowTheWireTrace :
    ∃ t, rstAsserted resetEnd = false ∧ step resetEnd = .next t ∧ t.wire ≠ resetEnd.wire :=
  ⟨_, rfl, rfl, by decide⟩

theorem witness_BusySampledOnlyInWaits :
    ∃ t, Coherent lastPoll ∧ step lastPoll = .next t ∧ t.wire = lastPoll.wire ++ [.sample 0#1] :=
  ⟨_, coherent_lastPoll, rfl, rfl⟩

/-- Two states that differ in the byte the transport is about to return. -/
theorem witness_ReceivedBytesAreDiscarded :
    let s := fun rx => { runAt panel { sleepByte with next := .xfer } with
      env := ⟨[⟨true, rx, 0⟩], [], [], 0⟩ }
    eraseReceived (s 0x11#8) = eraseReceived (s 0x22#8) ∧ ∃ t, step (s 0x11#8) = .next t :=
  ⟨rfl, _, rfl⟩

/-- A byte that goes through and one that fails. -/
theorem witness_SendByteFramesOneByte (ok : Bool) :
    let s := withDraws (runAt panel sleepByte) [ok] []
    Coherent s ∧ s.pc = .run sleepByte ∧ sleepByte.next = .setDc ∧ s.rstIn = [] ∧
      s.env.answers = ⟨ok, 0x5A#8, 0⟩ :: [] := ⟨coherent_byte ok, rfl, rfl, rfl, rfl⟩

/-- The settle delay of CLEAR, at its start. -/
def settleStart : State :=
  runAt panel ⟨.clear, .refreshSettle, 0#8, .delay, 0#32, 0#32, .refreshSettle, [single .waitRefresh]⟩

theorem witness_DelayLastsAtLeastItsDuration :
    Coherent settleStart ∧ settleStart.pc = .run ⟨.clear, .refreshSettle, 0#8, .delay, 0#32, 0#32,
      .refreshSettle, [single .waitRefresh]⟩ ∧ Prim.refreshSettle.delayName = some .refreshSettle ∧
      settleStart.delay = none ∧ settleStart.rstIn = [] :=
  ⟨⟨by decide, by decide, by decide, by decide, by decide, by decide, by decide,
    by decide, by decide, by decide⟩, rfl, rfl, rfl, rfl⟩

theorem witness_WaitEndsAtTheFirstIdleSample :
    let s := withDraws (runAt panel sleepWait) [] [0#1, 1#1]
    Coherent s ∧ s.pc = .run sleepWait ∧ sleepWait.next = .sample ∧ sleepWait.polls = 0#32 ∧
      s.rstIn = [] ∧ goesThrough s 0 1 ∧ sleepWait.rest = single .deepSleep :: [] := by
  refine ⟨coherent_wait, rfl, rfl, rfl, rfl, ⟨by decide, by decide, by decide, by decide, ?_⟩, rfl⟩
  intro n h
  cases h

/-- CLEAR's wait for the refresh, its last step. -/
theorem witness_WaitEndsAtTheFirstIdleSample_last :
    let p : Pos := ⟨.clear, .waitRefresh, 0#8, .wait, 0#32, 0#32, .sample, []⟩
    let s := withDraws (runAt panel p) [] [1#1]
    Coherent s ∧ s.pc = .run p ∧ s.rstIn = [] ∧ goesThrough s 0 0 ∧ p.rest = [] := by
  refine ⟨⟨by decide, by decide, by decide, by decide, by decide, by decide, by decide,
    by decide, by decide, by decide⟩, rfl, rfl, ⟨by decide, by decide, by decide, by decide, ?_⟩, rfl⟩
  intro n h
  cases h

theorem witness_WaitTimesOutAfterNBusySamples :
    let s := withDraws (runAt panelT3 sleepWait) [] [0#1, 0#1, 0#1]
    Coherent s ∧ s.pc = .run sleepWait ∧ sleepWait.next = .sample ∧ sleepWait.polls = 0#32 ∧
      s.rstIn = [] ∧ s.cfg.busyTimeoutPolls = some 3 ∧ 3 ≤ s.env.levels.length ∧
      (∀ l ∈ s.env.levels.take 3, l ≠ s.cfg.busyIdleLevel) :=
  ⟨coherent_wait_timeout, rfl, rfl, rfl, rfl, rfl, by decide, by decide⟩

theorem witness_StuckBusyLineNeverEndsTheWait :
    let s := withDraws (runAt panel sleepWait) [] [0#1, 1#1]
    Coherent s ∧ s.pc = .run sleepWait ∧ sleepWait.next = .sample ∧ s.rstIn = [] ∧
      s.cfg.busyTimeoutPolls = none ∧ 1 ≤ s.env.levels.length ∧
      (∀ l ∈ s.env.levels.take 1, l ≠ s.cfg.busyIdleLevel) :=
  ⟨coherent_wait, rfl, rfl, rfl, rfl, by decide, by decide⟩

/-- Each of the two aborts. -/
theorem witness_AbortIsPrecise :
    (∃ t, Coherent failedByte ∧ rstAsserted failedByte = false ∧
      failedByte.pc = .run { sleepByte with next := .csHigh false } ∧ step failedByte = .next t ∧
      t.done = true ∧ t.err = .transport) ∧
    (∃ t, Coherent lastPoll ∧ rstAsserted lastPoll = false ∧
      lastPoll.pc = .run { sleepWait with polls := 2#32 } ∧ step lastPoll = .next t ∧
      t.done = true ∧ t.err = .unresponsive) :=
  ⟨⟨_, coherent_failedByte, rfl, rfl, rfl, rfl, rfl⟩, ⟨_, coherent_lastPoll, rfl, rfl, rfl, rfl, rfl⟩⟩

theorem witness_OperationInProgressFrame :
    (∃ t, rstAsserted (runAt panel sleepByte) = false ∧ (runAt panel sleepByte).busy = true ∧
      (runAt panel sleepByte).pc = .run sleepByte ∧ step (runAt panel sleepByte) = .next t ∧
      t.done = false) ∧
    (∃ t, step resetEnd = .next t ∧ t.done = true) :=
  ⟨⟨_, rfl, rfl, rfl, rfl, rfl⟩, ⟨_, rfl, rfl⟩⟩

/-- SLEEP that completes, one that the transport ends and one that the timeout ends. -/
theorem witness_MachineRunsThePseudocode :
    let s₁ := withDraws (idleAt panel .ready) [true, true, true] [1#1]
    let s₂ := withDraws (idleAt panel .ready) [false] []
    let s₃ := withDraws (idleAt panelT3 .ready) [true] [0#1, 0#1, 0#1]
    (idleQuiet s₁ = true ∧ s₁.pstate = .ready ∧ haltOf s₁ .sleep = none) ∧
    (idleQuiet s₂ = true ∧ s₂.pstate = .ready ∧
      haltOf s₂ .sleep = some (.error .transport .powerOff 0#8 0#1 0#32)) ∧
    (idleQuiet s₃ = true ∧ s₃.pstate = .ready ∧
      haltOf s₃ .sleep = some (.error .unresponsive .waitPowerOff 0#8 0#1 3#32)) := by decide

theorem witness_ResetCompletes : idleQuiet State.reset = true := by decide

/-- From block reset, one busy level and then the idle one. -/
theorem witness_InitCompletes :
    let s := withDraws State.reset (List.replicate 28 true) [0#1, 1#1]
    idleQuiet s = true ∧ goesThrough s (initBytes s.cfg) 1 := by
  refine ⟨by decide, by decide, by decide, by decide, by decide, ?_⟩
  intro n h
  cases h

theorem witness_ClearCompletes :
    let s := withDraws (idleAt panel .ready) (List.replicate 6 true) [1#1]
    idleQuiet s = true ∧ s.pstate = .ready ∧ goesThrough s (frameBytes s.cfg) 0 := by
  refine ⟨by decide, rfl, by decide, by decide, by decide, by decide, ?_⟩
  intro n h
  cases h

/-- Under TCFG-T3, two busy levels before the idle one. -/
theorem witness_DisplayCompletes :
    let s := withDraws (idleAt panelT3 .ready) (List.replicate 6 true) [0#1, 0#1, 1#1]
    idleQuiet s = true ∧ s.pstate = .ready ∧ goesThrough s (frameBytes s.cfg) 2 := by
  refine ⟨by decide, rfl, by decide, by decide, by decide, by decide, ?_⟩
  intro n h
  cases h
  decide

theorem witness_SleepCompletes :
    let s := withDraws (idleAt panel .ready) (List.replicate 3 true) [1#1]
    idleQuiet s = true ∧ s.pstate = .ready ∧ goesThrough s (sleepBytes s.cfg) 0 := by
  refine ⟨by decide, rfl, by decide, by decide, by decide, by decide, ?_⟩
  intro n h
  cases h

/-- An INIT that completes, and one that fails at the first LUT command byte, the 19th transfer. -/
theorem witness_InitPowersOnBeforeAnyLut :
    let s₁ := withDraws State.reset (List.replicate 28 true) [1#1]
    let s₂ := withDraws State.reset (List.replicate 18 true ++ [false]) [1#1]
    (idleQuiet s₁ = true ∧ haltOf s₁ .init = none) ∧
    (idleQuiet s₂ = true ∧
      haltOf s₂ .init = some (.error .transport .lut 0#8 0#1 0#32)) := by decide +kernel

theorem witness_RefreshFollowsEveryFrame :
    let s := withDraws (idleAt panel .ready) (List.replicate 6 true) [0#1, 1#1]
    idleQuiet s = true ∧ s.pstate = .ready ∧ haltOf s .clear = none ∧
      haltOf s .display = none := by decide

/-- The canvases differ and the waits read different levels. -/
theorem witness_ClearIsIdempotentOnTheWire :
    let s := withDraws (idleAt panel .ready) (List.replicate 6 true) [1#1]
    let s' := { withDraws (idleAt panel .ready) (List.replicate 6 true) [0#1, 1#1] with
      canvas := black tcfg [(0, 0)] }
    s'.cfg = s.cfg ∧ idleQuiet s = true ∧ idleQuiet s' = true ∧
      s.pstate = .ready ∧ s'.pstate = .ready ∧ goesThrough s (frameBytes s.cfg) 0 ∧
      goesThrough s' (frameBytes s.cfg) 1 := by
  refine ⟨rfl, by decide, by decide, rfl, rfl,
    ⟨by decide, by decide, by decide, by decide, fun n h => by cases h⟩,
    ⟨by decide, by decide, by decide, by decide, fun n h => by cases h⟩⟩

/-- The limits of R9 and one value beyond each. -/
theorem witness_OnlyWellFormedConfigurationsInstantiate :
    (configRules (sized 1 1) ∧ configRules (sized 4096 4096) ∧
      configRules { tcfg with busyTimeoutPolls := some (2 ^ 32 - 1) }) ∧
    ¬ configRules (sized 0 1) ∧ ¬ configRules (sized 1 4097) ∧
    ¬ configRules { tcfg with busyTimeoutPolls := some (2 ^ 32) } := by
  have h : ∀ w h' b, 1 ≤ w ∧ w ≤ 4096 → 1 ≤ h' ∧ h' ≤ 4096 →
      (∀ n, b = some n → 1 ≤ n ∧ n ≤ 2 ^ 32 - 1) →
      configRules { tcfg with width := w, height := h', busyTimeoutPolls := b } :=
    fun w h' b hw hh hb => ⟨hw, hh, rfl, rfl, rfl, rfl, by simp [tcfg],
      fun n => by cases n <;> simp [Panel.ent, tcfg], by simp [tcfg], hb⟩
  refine ⟨⟨h 1 1 none (by decide) (by decide) (fun n hn => by cases hn),
    h 4096 4096 none (by decide) (by decide) (fun n hn => by cases hn),
    h 16 2 _ (by decide) (by decide) (fun n hn => by cases hn; decide)⟩, ?_, ?_, ?_⟩
  · intro k; exact absurd k.1.1 (by decide)
  · intro k; exact absurd k.2.1.2 (by decide)
  · intro k; exact absurd (k.2.2.2.2.2.2.2.2.2 _ rfl).2 (by decide)

end Sys2Proof.Tests
end

section
/-! The two statements about configurations and the state after block reset (spec/00_scope.md R9, R250):
the reset state is coherent, and `Panel.wf`, which `instantiate` checks, is the clauses of R9. -/

namespace Sys2Proof.Machine

/-! ### The state after block reset -/

/-- The canvas is empty and the result registers are 0 after block reset (R250). -/
theorem base_resetWith (c : WfPanel) : Base (State.resetWith c) where
  canvas_wf := rfl
  canvas_within := rfl
  result_reserved := by simp [State.resetWith]
  errStep_reserved := by simp [State.resetWith]
  context := rfl

/-- After block reset the block is idle with nothing under way, and Uninitialized, so that no pin level is
asked for (R250). -/
theorem pcOk_resetWith (c : WfPanel) : PcOk (State.resetWith c) where
  busy_pc := rfl
  pc_legal := rfl
  waiting := rfl
  pins := rfl
  ready := rfl

/-- Block reset establishes the invariant, whatever the configuration. -/
theorem coherent_resetWith (c : WfPanel) : Coherent (State.resetWith c) :=
  (coherent_iff _).2 ⟨base_resetWith c, pcOk_resetWith c⟩

/-- Settles O8: the machine's reset state is the one of the configuration TCFG. -/
theorem resetStateIsCoherent : Obligations.ResetStateIsCoherent := by
  unfold Obligations.ResetStateIsCoherent
  exact ⟨coherent_resetWith, coherent_resetWith _⟩

/-! ### Instantiation -/

/-- `StepName.all` leaves out no step name (R8). -/
theorem mem_stepName_all (n : StepName) : n ∈ StepName.all := by cases n <;> decide

/-- A check over all step names is a check of each. -/
theorem stepName_all_iff (f : StepName → Bool) : StepName.all.all f = true ↔ ∀ n, f n = true := by
  simp [List.all_eq_true, mem_stepName_all]

/-- The check of a data list is the bound of R9. -/
theorem entry_wf_iff (e : Entry) : e.wf = true ↔ e.data.length < 2 ^ 32 := decide_eq_true_iff

/-- The check of `BUSY_TIMEOUT_POLLS` is the range of R9. -/
theorem timeoutWf_iff (b : Option Nat) :
    timeoutWf b = true ↔ ∀ n, b = some n → 1 ≤ n ∧ n ≤ 2 ^ 32 - 1 := by
  cases b with
  | none => simp [timeoutWf]
  | some n =>
    simp only [timeoutWf, Bool.and_eq_true, decide_eq_true_eq, Option.some.injEq, forall_eq']
    omega

/-- The check that `instantiate` makes is the conjunction of the clauses of R9. -/
theorem panel_wf_iff_configRules (p : Panel) : p.wf = true ↔ configRules p := by
  simp only [Panel.wf, configRules, Bool.and_eq_true, decide_eq_true_eq, beq_iff_eq, and_assoc,
    List.isEmpty_iff, List.all_eq_true (l := p.powopt), List.all_eq_true (l := p.lut),
    List.forall_mem_append, stepName_all_iff, entry_wf_iff, timeoutWf_iff]

/-- Settles O57: `instantiate` branches on `Panel.wf`, which is R9, and a state holds its configuration
with a proof of it. -/
theorem onlyWellFormedConfigurationsInstantiate :
    Obligations.OnlyWellFormedConfigurationsInstantiate := by
  unfold Obligations.OnlyWellFormedConfigurationsInstantiate
  refine ⟨fun p h => ?accepted, fun p h => ?refused, fun s => ?held⟩
  case accepted =>
    have hwf := (panel_wf_iff_configRules p).2 h
    exact ⟨⟨p, hwf⟩, rfl, instantiate_ok hwf⟩
  case refused =>
    have hwf := mt (panel_wf_iff_configRules p).1 h
    exact instantiate_error (Bool.eq_false_iff.2 hwf)
  case held => exact (panel_wf_iff_configRules s.cfg).1 s.cfg_wf

end Sys2Proof.Machine
end

section
/-! The statements about the state and the step (spec/10_state.md R21 to R36): the invariant, what
becomes of the operation in a step, what a step leaves alone, and the fields of STATUS. -/

namespace Sys2Proof.Machine

variable {s t : State} {i : Instr}

/-! ### The invariant is kept (R21, R28 to R31, R33, R120, R122, R158) -/

/-- Coherence does not see `done`, nor what lies outside the block: the wire record and the inputs. -/
theorem Coherent.withOutside (h : Coherent s) (d : Bool) (wi : List Event) (q : List (Option Word))
    (ri : List Bool) (en : Env) :
    Coherent { s with done := d, wire := wi, cmdQueue := q, rstIn := ri, env := en } :=
  ⟨h.busy_pc, h.pc_legal, h.canvas_wf, h.canvas_within, h.result_reserved, h.errStep_reserved,
    h.context, h.waiting, h.pins, h.ready⟩

/-- Block reset gives a coherent state, whatever was in progress (R250). -/
theorem coherent_blockReset (s : State) : Coherent (blockReset s) :=
  (coherent_resetWith s.config).withOutside ..

/-- The inputs moving on keep coherence. -/
theorem coherent_nextInputs (h : Coherent s) : Coherent (nextInputs s) := h.withOutside ..

/-- Every primitive keeps coherence (R21). -/
theorem coherent_seqStep {p : Pos} (h : Coherent s) (hp : s.pc = .run p) : Coherent (seqStep p s) :=
  have ⟨hbase, hpc⟩ := (coherent_iff s).1 h
  (coherent_iff _).2 ⟨seqStep_base hbase, seqStep_ok hp hpc⟩

/-- `Base` does not see BUSY and the port. -/
theorem base_acceptWord (h : Base s) : Base (acceptWord s) := base_regs h (by simp) (by simp)

/-- An operation that completes with nothing under way leaves a coherent state (R225). -/
theorem coherent_complete (code : ErrCode) (op : BitVec 4) (h : Base s) (hp : s.pc = .idle)
    (hw : waitingLegal s = true) (hpi : pinsLegal s = true) : Coherent (complete code op s) := by
  refine (coherent_iff _).2 ⟨base_regs h (by simp) (by simp), rfl, rfl, ?waiting, ?pins, rfl⟩
  case waiting => simpa [waitingLegal, hp] using hw
  case pins => simpa [pinsLegal, hp] using hpi

/-- Every step that answers a next state keeps coherence. -/
theorem coherent_step (h : Coherent s) (hs : step s = .next t) : Coherent t := by
  have hin := coherent_nextInputs h
  have hbase := base_acceptWord ((coherent_iff _).1 hin).1
  obtain ⟨-, rfl⟩ | ⟨-, -, p, hp, rfl⟩ | ⟨-, -, -, -, rfl⟩ | ⟨-, -, hp, w, q, e, -, -, rfl⟩ |
    ⟨-, -, hp, w, q, i, -, -, he⟩ := step_cases hs
  · exact coherent_blockReset _
  · exact coherent_seqStep hin hp
  · exact hin.withOutside ..
  · exact coherent_complete _ _ hbase hp hin.waiting hin.pins
  · exact exec_coherent hbase hp hin.waiting hin.pins he

/-- Settles O34: block reset, a primitive, waiting, a refused word and a meaning each leave a coherent
state. -/
theorem everyStepKeepsCoherence : Obligations.EveryStepKeepsCoherence := by
  unfold Obligations.EveryStepKeepsCoherence
  exact fun s t h hs => coherent_step h hs

/-! ### What becomes of the operation in a step -/

/-- What a step out of reset does to the operation in progress, or to the word at the port (R36). -/
inductive OperationStep (s t : State) : Prop
  /-- The operation in progress goes on. -/
  | goesOn (busy : s.busy = true) (done : t.done = false) (stays : t.busy = true)
      (regs : resultRegs t = resultRegs s)
  /-- The operation in progress completes or aborts. -/
  | ends (p : Pos) (busy : s.busy = true) (pos : s.pc = .run p) (ending : EndsOp p.op s t)
  /-- The block is idle and no word is at the port. -/
  | waits (busy : s.busy = false) (noWord : s.cmdQueue.head?.join = none) (done : t.done = false)
      (stays : t.busy = false) (regs : resultRegs t = resultRegs s)
  /-- A word is accepted and its operation begins a sequence. -/
  | begins (w : Word) (q : List (Option Word)) (word : s.cmdQueue = some w :: q)
      (done : t.done = false) (stays : t.busy = true) (regs : resultRegs t = resultRegs s)
  /-- A word is accepted and completes in the same step. -/
  | completes (w : Word) (q : List (Option Word)) (word : s.cmdQueue = some w :: q)
      (done : t.done = true) (free : t.busy = false) (pstate : t.pstate = s.pstate)

/-- Every step out of reset is one of these five. -/
theorem operationStep (hr : rstAsserted s = false) (hs : step s = .next t) : OperationStep s t := by
  obtain ⟨hr', -⟩ | ⟨-, hb, p, hp, rfl⟩ | ⟨-, hb, -, hq, rfl⟩ | ⟨-, -, -, w, q, e, hq, -, rfl⟩ |
    ⟨-, -, -, w, q, i, hq, -, he⟩ := step_cases hs
  · simp [hr] at hr'
  · obtain ⟨hdone, hbusy, hregs, -⟩ | hend := seqStep_out p (nextInputs s) hp
    · exact .goesOn hb hdone (hbusy.trans hb) hregs
    · exact .ends p hb hp hend
  · exact .waits hb hq rfl hb rfl
  · exact .completes w q hq rfl rfl rfl
  · obtain ⟨-, -, -, -, hdone, hbusy, -, hpstate, -⟩ | ⟨hdone, hbusy, hregs, -⟩ := exec_out he
    · exact .completes w q hq hdone hbusy hpstate
    · exact .begins w q hq hdone hbusy hregs

/-- PSTATE is one of the result registers. -/
theorem pstate_of_resultRegs (h : resultRegs t = resultRegs s) : t.pstate = s.pstate :=
  congrArg Prod.fst h

/-- A read of the register port sees BUSY and the result registers alone (R24). -/
theorem readReg_congr (h : resultRegs t = resultRegs s) (hb : t.busy = s.busy) (sel : BitVec 2) :
    readReg sel t = readReg sel s := by
  simp only [resultRegs, Prod.mk.injEq] at h
  simp [readReg, statusWord, h, hb]

/-- Settles O13: of the five kinds of step, `done` is asserted by the two that end an operation. -/
theorem doneMarksTheEndOfAnOperation : Obligations.DoneMarksTheEndOfAnOperation := by
  unfold Obligations.DoneMarksTheEndOfAnOperation
  intro s t hr hs
  cases operationStep hr hs with
  | goesOn _ hdone hbusy => simp [hdone, hbusy]
  | ends p hb _ hend =>
    obtain ⟨hdone, hbusy, -⟩ := hend
    simp [hdone, hbusy, hb]
  | waits hb hq hdone =>
    have hword : ¬ ∃ w q, s.cmdQueue = some w :: q := by
      rintro ⟨w, q, hw⟩
      simp [hw] at hq
    simp [hdone, hb, hword]
  | begins _ _ _ hdone hbusy => simp [hdone, hbusy]
  | completes _ _ hq hdone hbusy => simp [hdone, hbusy, hq]

/-- Settles O17: the kinds of step that leave `done` low leave the result registers as they are. -/
theorem registersChangeOnlyAtAnEnd : Obligations.RegistersChangeOnlyAtAnEnd := by
  unfold Obligations.RegistersChangeOnlyAtAnEnd
  intro s t hr hs hd
  have hregs : resultRegs t = resultRegs s := by
    cases operationStep hr hs with
    | goesOn _ _ _ hregs => exact hregs
    | ends _ _ _ hend => simp [hend.1] at hd
    | waits _ _ _ _ hregs => exact hregs
    | begins _ _ _ _ _ hregs => exact hregs
    | completes _ _ _ hdone => simp [hdone] at hd
  exact ⟨hregs, fun hb => readReg_congr hregs hb⟩

/-- Settles O18: of the five kinds of step, only the end of a sequence writes PSTATE. -/
theorem pstateChangesOnlyAtAProtocolEnd : Obligations.PstateChangesOnlyAtAProtocolEnd := by
  unfold Obligations.PstateChangesOnlyAtAProtocolEnd
  intro s t hr hs hne
  cases operationStep hr hs with
  | goesOn _ _ _ hregs => exact absurd (pstate_of_resultRegs hregs) hne
  | ends p _ hp hend =>
    obtain ⟨hdone, -, -, -, -, ⟨hok, hps, -⟩ | ⟨herr, hps⟩⟩ := hend
    · exact ⟨p, hp, hdone, fun _ => hps, fun herr => absurd hok herr⟩
    · exact ⟨p, hp, hdone, fun hok => absurd hok herr, fun _ => hps⟩
  | waits _ _ _ _ hregs => exact absurd (pstate_of_resultRegs hregs) hne
  | begins _ _ _ _ _ hregs => exact absurd (pstate_of_resultRegs hregs) hne
  | completes _ _ _ _ _ hps => exact absurd hps hne

/-! ### What a step leaves alone -/

/-- Acceptance performs no wire event and moves no pin (R27, R56). -/
theorem exec_wire (h : exec i s = .next t) :
    t.wire = s.wire ∧ t.dc = s.dc ∧ t.csN = s.csN ∧ t.rstN = s.rstN := by
  cases i <;> cases h
  case clear | display | sleep => split <;> simp
  case pkrd => unfold pkrd; split <;> simp
  all_goals simp

/-- Only CCLR and PSET write the canvas (R28, R59). -/
theorem exec_canvas (h : exec i s = .next t) :
    t.canvas = s.canvas ∨ i = .cclr ∨ ∃ x y v, i = .pset x y v := by
  cases i <;> cases h
  case cclr => exact .inr (.inl rfl)
  case pset x y v => exact .inr (.inr ⟨x, y, v, rfl⟩)
  case clear | display | sleep => left; split <;> simp
  case pkrd => left; unfold pkrd; split <;> simp
  all_goals exact .inl rfl

/-- Settles O12: a busy block is reset or performs a primitive, and neither touches the port. -/
theorem busyBlockHoldsTheHostWord : Obligations.BusyBlockHoldsTheHostWord := by
  unfold Obligations.BusyBlockHoldsTheHostWord
  intro s t hb hs
  obtain ⟨-, rfl⟩ | ⟨-, -, p, -, rfl⟩ | ⟨-, hb', -⟩ | ⟨-, hb', -⟩ | ⟨-, hb', -⟩ := step_cases hs
  · rfl
  · obtain ⟨-, -, -, hq, -⟩ := seqStep_frame p (nextInputs s)
    exact hq
  all_goals simp [hb] at hb'

/-- Settles O37: a primitive, waiting and a refused word keep the canvas; of the meanings only those of
CCLR and PSET do not. -/
theorem onlyCanvasOperationsWriteTheCanvas : Obligations.OnlyCanvasOperationsWriteTheCanvas := by
  unfold Obligations.OnlyCanvasOperationsWriteTheCanvas
  intro s t hs hne
  obtain ⟨hr, -⟩ | ⟨-, -, p, -, rfl⟩ | ⟨-, -, -, -, rfl⟩ | ⟨-, -, -, w, q, e, -, -, rfl⟩ |
    ⟨-, hb, -, w, q, i, hq, hd, he⟩ := step_cases hs
  · exact .inl hr
  · obtain ⟨-, hcanvas, -⟩ := seqStep_frame p (nextInputs s)
    exact absurd hcanvas hne
  · exact absurd rfl hne
  · exact absurd rfl hne
  · exact .inr ⟨w, q, i, hq, hb, hd, (exec_canvas he).resolve_left hne⟩

/-- Settles O38: a primitive performs its one event; waiting and acceptance perform none. -/
theorem pinsFollowTheWireTrace : Obligations.PinsFollowTheWireTrace := by
  unfold Obligations.PinsFollowTheWireTrace
  intro s t hr hs
  obtain ⟨hr', -⟩ | ⟨-, hb, p, -, rfl⟩ | ⟨-, -, -, -, rfl⟩ | ⟨-, -, -, w, q, e, -, -, rfl⟩ |
    ⟨-, -, -, w, q, i, -, -, he⟩ := step_cases hs
  · simp [hr] at hr'
  · obtain ⟨es, hwire, hlen, hdc, hcsN, hrstN, -⟩ := seqStep_wire p (nextInputs s)
    exact ⟨es, hwire, hlen, fun _ => hb, hdc, hcsN, hrstN⟩
  · exact ⟨[], by simp⟩
  · exact ⟨[], by simp [completeIllegal]⟩
  · have hquiet := exec_wire he
    exact ⟨[], by simpa using hquiet⟩

/-- Settles O47: the frame of a primitive, with the two ways it can leave the operation. -/
theorem operationInProgressFrame : Obligations.OperationInProgressFrame := by
  unfold Obligations.OperationInProgressFrame
  intro s t p hr hb hp hs
  obtain rfl : seqStep p (nextInputs s) = t := by simpa [step_busy hr hb hp] using hs
  obtain ⟨hcfg, hcanvas, hresult, hqueue, -⟩ := seqStep_frame p (nextInputs s)
  refine ⟨hcanvas, hresult, hqueue, hcfg, fun a => congrArg (·.read a) hcanvas, ?_⟩
  obtain ⟨hdone, hbusy, hregs, -⟩ | ⟨hdone, -, -, hop, -⟩ := seqStep_out p (nextInputs s) hp
  · exact ⟨fun _ => ⟨hregs, hbusy.trans hb⟩, fun hd => by simp [hdone] at hd⟩
  · exact ⟨fun hd => by simp [hdone] at hd, fun _ => hop⟩

/-! ### Acceptance and waiting -/

/-- Settles O9: acceptance is `exec` of the decoded operation, on the state in which the word has left
the port. -/
theorem stepRunsTheDecodedOperation : Obligations.StepRunsTheDecodedOperation := by
  unfold Obligations.StepRunsTheDecodedOperation
  intro s w q i hr hb hp hq hd
  have haccept : acceptWord (nextInputs s)
      = { s with cmdQueue := q, rstIn := s.rstIn.tail, busy := true, done := false } := by
    simp [acceptWord, nextInputs, hq]
  rw [step_accept hr hb hp hq, onAccept, hd, ← haccept]

/-- Settles O11: both ways for `cmd_valid` to be low move the inputs on and nothing else. -/
theorem idleBlockWaitsForAWord : Obligations.IdleBlockWaitsForAWord := by
  unfold Obligations.IdleBlockWaitsForAWord
  exact fun s hr hb hp => ⟨step_wait hr hb hp, fun q => step_none hr hb hp⟩

/-! ### STATUS (R25) -/

section
open BitVec

/-- PSTATE is STATUS[1:0]. -/
theorem statusWord_pstate (s : State) : (statusWord s).extractLsb' 0 2 = s.pstate.code :=
  extractLsb'_append_eq_right

/-- BUSY is STATUS[2]. -/
theorem statusWord_busy (s : State) : (statusWord s).extractLsb' 2 1 = flagBit s.busy := by
  unfold statusWord
  rw [extractLsb'_append_eq_of_le (by omega)]
  exact extractLsb'_append_eq_right

/-- STATUS[3] reads 0. -/
theorem statusWord_reserved_low (s : State) : (statusWord s).extractLsb' 3 1 = 0#1 := by
  unfold statusWord
  iterate 2 rw [extractLsb'_append_eq_of_le (by omega)]
  exact extractLsb'_append_eq_right

/-- ERR is STATUS[7:4]. -/
theorem statusWord_err (s : State) : (statusWord s).extractLsb' 4 4 = s.err.code := by
  unfold statusWord
  iterate 3 rw [extractLsb'_append_eq_of_le (by omega)]
  exact extractLsb'_append_eq_right

/-- LAST_OP is STATUS[11:8]. -/
theorem statusWord_lastOp (s : State) : (statusWord s).extractLsb' 8 4 = s.lastOp := by
  unfold statusWord
  iterate 4 rw [extractLsb'_append_eq_of_le (by omega)]
  exact extractLsb'_append_eq_right

/-- STATUS[31:12] read 0. -/
theorem statusWord_reserved_high (s : State) : (statusWord s).extractLsb' 12 20 = 0#20 := by
  unfold statusWord
  iterate 5 rw [extractLsb'_append_eq_of_le (by omega)]
  exact extractLsb'_eq_self

end

/-- The code 3 of PSTATE does not exist (R22). -/
theorem pstate_code_ne_three (ps : PState) : ps.code ≠ 3#2 := by cases ps <;> decide

/-- No result code is above 5 (R220). -/
theorem errCode_code_le (e : ErrCode) : e.code ≤ 5#4 := by cases e <;> decide

/-- A flag's bit is 1 exactly when the flag is set. -/
theorem flagBit_eq_one_iff (b : Bool) : flagBit b = 1#1 ↔ b = true := by cases b <;> decide

/-- Settles O15: selector 0 reads STATUS, and each field stands above the ones before it. -/
theorem statusFieldsAtTheirPlaces : Obligations.StatusFieldsAtTheirPlaces := by
  unfold Obligations.StatusFieldsAtTheirPlaces
  intro s
  exact ⟨statusWord_pstate s, statusWord_busy s, statusWord_reserved_low s, statusWord_err s,
    statusWord_lastOp s, statusWord_reserved_high s, pstate_code_ne_three s.pstate,
    errCode_code_le s.err, flagBit_eq_one_iff s.busy⟩

/-! ### Beginning a sequence (R21, R150) -/

/-- `exec` of an operation that may run begins it at the first step of its sequence, which is the reset
pulse or a command byte (R152 to R158). -/
theorem exec_begins (op : RunOp) (h : op.needsReady = true → s.pstate = .ready) :
    ∃ st rest, plan s.cfg op = st :: rest ∧ exec op.instr s = .next (startOp op st rest s) ∧
      (st.step = .resetPulse ∨ st.step.firstPhase = .cmd ∧ st.step.firstPrim = .setDc) := by
  cases op
  case reset => exact ⟨_, _, rfl, rfl, .inl rfl⟩
  case init => exact ⟨_, _, rfl, rfl, .inl rfl⟩
  case clear => exact ⟨_, _, rfl, congrArg _ (if_pos (h rfl)), .inr ⟨rfl, rfl⟩⟩
  case display => exact ⟨_, _, rfl, congrArg _ (if_pos (h rfl)), .inr ⟨rfl, rfl⟩⟩
  case sleep => exact ⟨_, _, rfl, congrArg _ (if_pos (h rfl)), .inr ⟨rfl, rfl⟩⟩

/-- Settles O28: the operation begins at `enterStage` of the first step of its sequence. -/
theorem operationsBeginAtTheirFirstStep : Obligations.OperationsBeginAtTheirFirstStep := by
  unfold Obligations.OperationsBeginAtTheirFirstStep
  intro s op h
  obtain ⟨st, rest, hplan, hexec, hfirst⟩ := exec_begins op h
  refine ⟨st, rest, enterStage op st rest, hplan, rfl, rfl, rfl, rfl, rfl, rfl, ?pulse, ?entry,
    hexec⟩
  case pulse =>
    intro hstep
    simp [enterStage, hstep, StepId.firstPhase, StepId.firstPrim]
  case entry => exact fun hstep => hfirst.resolve_left hstep

end Sys2Proof.Machine
end

section
/-! The statements about PSET, which writes one pixel, and about the configuration (spec/20_memory.md R51,
spec/40_canvas.md R102, spec/10_state.md R65). -/

namespace Sys2Proof.Machine

variable {s t : State}

/-! ### PSET (R102) -/

/-- A cell of PSET's canvas: the value at the addressed pixel, when that is on the canvas. -/
theorem psetCanvas_read {p : Panel} {m : Memory} (h : m.wf = true) (x y : Nat) (v : Bit) (a : Nat) :
    (psetCanvas p m x y v).read a =
      if x < p.width ∧ y < p.height ∧ a = pixelAddr p x y then v else m.read a := by
  by_cases hon : x < p.width ∧ y < p.height
  · simp [psetCanvas, onCanvas, canvasWrite, hon, Memory.read_write h]
  · have hclip : ¬ (x < p.width ∧ y < p.height ∧ a = pixelAddr p x y) :=
      fun hx => hon ⟨hx.1, hx.2.1⟩
    rw [if_neg hclip, psetCanvas, if_neg (by simpa [onCanvas] using hon)]

/-- A pixel of PSET's canvas. A column beyond the row's end would share its cell with a pixel of the next
row, so the pixel read is one of a column below `W`. -/
theorem canvasRead_psetCanvas {p : Panel} {m : Memory} (h : m.wf = true) (x y : Nat) (v : Bit)
    {x' : Nat} (hx' : x' < p.width) (y' : Nat) :
    canvasRead p (psetCanvas p m x y v) x' y' =
      if x' = x ∧ y' = y ∧ y < p.height then v else canvasRead p m x' y' := by
  have hcell : (x < p.width ∧ y < p.height ∧ pixelAddr p x' y' = pixelAddr p x y) ↔
      x' = x ∧ y' = y ∧ y < p.height := by
    constructor
    · rintro ⟨hx, hy, haddr⟩
      obtain ⟨rfl, rfl⟩ := (pixelAddr_inj hx' hx).1 haddr
      exact ⟨rfl, rfl, hy⟩
    · rintro ⟨rfl, rfl, hy⟩
      exact ⟨hx', hy, rfl⟩
  simp only [canvasRead, psetCanvas_read h, hcell]

/-- Settles O25: the canvas is `psetCanvas`, read cell by cell and pixel by pixel. -/
theorem psetWritesOnePixel : Obligations.PsetWritesOnePixel := by
  unfold Obligations.PsetWritesOnePixel
  intro s x y v hwf
  exact ⟨psetCanvas s.cfg s.canvas x.toNat y.toNat v, psetCanvas_read hwf _ _ v,
    fun x' y' hx' => canvasRead_psetCanvas hwf _ _ v hx' y', rfl⟩

/-! ### The configuration (R65) -/

/-- No meaning changes the configuration. -/
theorem exec_cfg {i : Instr} (h : exec i s = .next t) : t.cfg = s.cfg := by
  cases i <;> cases h
  case clear | display | sleep => split <;> rfl
  case pkrd => unfold pkrd; split <;> rfl
  all_goals rfl

/-- No step changes the configuration. -/
theorem step_cfg (h : step s = .next t) : t.cfg = s.cfg := by
  obtain ⟨-, rfl⟩ | ⟨-, -, p, -, rfl⟩ | ⟨-, -, -, -, rfl⟩ | ⟨-, -, -, w, q, e, -, -, rfl⟩ |
    ⟨-, -, -, w, q, i, -, -, he⟩ := step_cases h
  · rfl
  · obtain ⟨hcfg, -⟩ := seqStep_frame p (nextInputs s)
    exact hcfg
  · rfl
  · rfl
  · exact (exec_cfg he :)

/-- Settles O36: what every step keeps, every run keeps. -/
theorem configurationNeverChanges : Obligations.ConfigurationNeverChanges := by
  unfold Obligations.ConfigurationNeverChanges
  exact fun s t h => Reaches.keeps (P := fun u => u.cfg = s.cfg)
    (fun ha hstep => (step_cfg hstep).trans ha) rfl h

end Sys2Proof.Machine
end

section
/-! A whole operation as one run: the machine against the pseudocode from start to end, the frame load and
refresh that go through, and DISPLAY (spec/42_protocol_ops.md R156). -/

namespace Sys2Proof.Machine

variable {s u : State} {r : Script}

/-! ### Words of format N (R71, R75) -/

/-- An operation whose OP selects `decodeN` has format N. -/
theorem formatNOnly_of {op : BitVec 4} {i : Instr} (henc : encode i = 0#28 ++ op)
    (hdec : ∀ w, opField w = op → decode w = decodeN i w) : formatNOnly op i := by
  have hop : opField (encode i) = op := by rw [henc]; exact BitVec.extractLsb'_append_eq_right
  have hzero : (encode i).extractLsb' 4 28 = 0#28 := by
    rw [henc]; exact BitVec.extractLsb'_append_eq_left
  refine ⟨henc, ?_, fun w hw hbits => ⟨.reservedBits, ?_⟩⟩
  · rw [hdec _ hop, decodeN, if_pos hzero]
  · rw [hdec w hw, decodeN, if_neg hbits]

/-! ### From the start of an operation to its end -/

/-- What `idleQuiet` says. -/
theorem idleQuiet_iff : idleQuiet s = true ↔
    s.busy = false ∧ s.pc = .idle ∧ s.delay = none ∧ s.inFlight = none ∧ s.rstIn = [] := by
  simp [idleQuiet, and_assoc]

/-- An operation begins with nothing under way. -/
theorem clean_startOp (h : idleQuiet s = true) (op : RunOp) (st : Stage) (rest : List Stage) :
    Clean (startOp op st rest s) := by
  obtain ⟨-, -, hdelay, hflight, hrst⟩ := idleQuiet_iff.1 h
  exact ⟨rfl, hdelay, hflight, hrst⟩

/-- An operation begins with all the draws before it and no event behind it. -/
theorem sim_startOp (s : State) (op : RunOp) (st : Stage) (rest : List Stage) :
    Sim s (startOp op st rest s) ⟨s.env.answers.map (·.ok), s.env.levels, []⟩ :=
  ⟨⟨rfl, rfl, rfl, rfl, rfl, rfl, rfl, rfl, rfl⟩, rfl, rfl, by simp, rfl, rfl, rfl⟩

/-- The fields an operation in progress leaves alone, the configuration as the state holds it. -/
theorem Same.config {s t : State} (h : Same s t) : t.config = s.config := Subtype.ext h.cfg

/-- A state that has ended an operation, with the frame of `Sim`, is an `endState`. -/
theorem eq_endState {t : State} (hrst : s.rstIn = []) (hc : Clean u) (hs : Sim s u r)
    (ht : t = { u with
      pstate := t.pstate, busy := false, err := t.err, lastOp := t.lastOp, errStep := t.errStep,
      errByte := t.errByte, pc := .idle, done := true }) :
    t = endState s t.pstate t.err t.lastOp t.errStep t.errByte (pinAfter .dc s.dc r.trace)
      (pinAfter .csN s.csN r.trace) (pinAfter .rstN s.rstN r.trace) r.trace u.env := by
  rw [ht, endState, hs.same.config, hs.same.canvas, hs.same.result, hs.same.cmdQueue, hs.wire, hs.dc,
    hs.csN, hs.rstN, hc.delay, hc.inFlight, hc.rstIn, hrst]

/-- The end of an operation is the completion that the pseudocode's end stands for (R225). -/
theorem finishOp_eq_haltState (hrst : s.rstIn = []) (hc : Clean u) (hs : Sim s u r) (op : RunOp) :
    finishOp op u = haltState s op r.trace u.env none := by
  have hps : s.pstate = u.pstate := hs.same.pstate.symm
  rw [eq_endState hrst hc hs (t := finishOp op u) (by cases op <;> rfl), haltState, hps]
  cases op <;> rfl

/-- An abort is the one that the pseudocode's error stands for (R226). -/
theorem raiseError_eq_haltState (hrst : s.rstIn = []) (hc : Clean u) (hs : Sim s u r) (op : RunOp)
    (c : ErrCode) (st : StepId) (sub : Byte) (ph : Bit) (idx : Word) :
    raiseError c st sub ph idx op.code u
      = haltState s op r.trace u.env (some (.error c st sub ph idx)) :=
  eq_endState hrst hc hs (t := raiseError c st sub ph idx op.code u) rfl

/-- From idle, an operation whose pseudocode ends is begun by `exec` and runs to the state of that end; the
transport's answers it leaves are the last ones of those it found. -/
theorem run_pseudocode {op : RunOp} {h : Option Halt} (hq : idleQuiet s = true)
    (hready : op.needsReady = true → s.pstate = .ready)
    (hrun : pseudocode s.cfg s.canvas op ⟨s.env.answers.map (·.ok), s.env.levels, []⟩ = (r, h))
    (hends : h ≠ some .noMoreDraws) :
    ∃ u env, exec op.instr s = .next u ∧ env.answers.map (·.ok) = r.oks ∧ env.levels = r.levels ∧
      env.answers <:+ s.env.answers ∧ Reaches u (haltState s op r.trace env h) := by
  obtain ⟨-, -, -, -, hrst⟩ := idleQuiet_iff.1 hq
  obtain ⟨st, rest, hplan, hexec, -⟩ := exec_begins op hready
  have hsteps : ∀ x ∈ st :: rest, x.step ≠ .noStep := fun x hx => plan_noStep (hplan ▸ hx)
  have hfin := stages_run rest st _ _ hsteps (clean_startOp hq op st rest) rfl
    (sim_startOp s op st rest)
  rw [← hplan, plan_pseudocode _ _ _ s.cfg_wf, hrun] at hfin
  match h, hends with
  | none, _ =>
    obtain ⟨v, hc, hs, hreach⟩ := hfin
    rw [finishOp_eq_haltState hrst hc hs op] at hreach
    have hsuffix : v.env.answers <:+ s.env.answers := (reaches_answers hreach :)
    exact ⟨_, v.env, hexec, hs.oks, hs.levels, hsuffix, hreach⟩
  | some (.error c id sub ph idx), _ =>
    obtain ⟨v, hc, hs, hreach⟩ := hfin
    rw [raiseError_eq_haltState hrst hc hs op] at hreach
    have hsuffix : v.env.answers <:+ s.env.answers := (reaches_answers hreach :)
    exact ⟨_, v.env, hexec, hs.oks, hs.levels, hsuffix, hreach⟩

/-- The answers left over are known by their number. -/
theorem answers_eq_drop {as bs : List Answer} {n : Nat} (h : as <:+ bs)
    (hoks : as.map (·.ok) = (bs.map (·.ok)).drop n) : as = bs.drop n :=
  suffix_drop h (by simpa using congrArg List.length hoks)

/-! ### A frame and its refresh that go through (R125, R155, R156) -/

/-- A piece that goes through and then a wait that reads `k` busy levels and the idle one. -/
theorem thru_then_wait {cfg : Panel} {n k : Nat} {a : Piece} {es : List Event} {st : StepId}
    (ha : Thru n a es) (r : Script) (hlen : n ≤ r.oks.length) (hoks : ∀ o ∈ r.oks.take n, o = true)
    (hbusy : ∀ l ∈ r.levels.take k, l ≠ cfg.busyIdleLevel)
    (hidle : r.levels[k]? = some cfg.busyIdleLevel)
    (htime : ∀ n, cfg.busyTimeoutPolls = some n → k < n) :
    a.andThen (Piece.waitUntilIdle cfg st) r
      = (⟨r.oks.drop n, r.levels.drop (k + 1), r.trace ++ (es ++ waitEvents cfg k)⟩, none) := by
  rw [Piece.andThen, ha r hlen hoks, ← List.append_assoc]
  exact thru_wait ⟨r.oks.drop n, r.levels, r.trace ++ es⟩ hbusy hidle htime

/-- The start-transmission command and a frame that go through. -/
theorem thru_dataLoad (cfg : Panel) (frame : List Byte) :
    Thru (1 + frame.length) (Piece.dataLoad cfg frame)
      (cmdFrame cfg.startTransmission.op ++ frame.flatMap dataFrame) :=
  thru_andThen (thru_byte _ _ _ _ _) (thru_data _ _ _ _)

/-- The frame load, the refresh command and the settle delay, before the wait of TurnOnDisplay. -/
theorem thru_frame_settle (cfg : Panel) (frame : List Byte) :
    Thru (1 + frame.length + (1 + cfg.displayRefresh.data.length))
      ((Piece.dataLoad cfg frame).andThen
        ((Piece.sendEntry (cfg.ent .displayRefresh) .displayRefresh 0#8).andThen
          (Piece.events [.delay .refreshSettle cfg.tRefreshSettle])))
      (cmdFrame cfg.startTransmission.op ++ frame.flatMap dataFrame
        ++ (entryFrames cfg.displayRefresh ++ [.delay .refreshSettle cfg.tRefreshSettle])) :=
  thru_andThen (thru_dataLoad cfg frame) (thru_andThen (m := 0) (thru_entry _ _ _) (thru_events _))

/-- A frame load followed by TurnOnDisplay: all before the wait, and then the wait. -/
theorem frame_pieces (cfg : Panel) (frame : List Byte) :
    Piece.inOrder [Piece.dataLoad cfg frame, Piece.turnOnDisplay cfg]
      = ((Piece.dataLoad cfg frame).andThen
        ((Piece.sendEntry (cfg.ent .displayRefresh) .displayRefresh 0#8).andThen
          (Piece.events [.delay .refreshSettle cfg.tRefreshSettle]))).andThen
        (Piece.waitUntilIdle cfg .waitRefresh) := by
  simp only [Piece.inOrder, Piece.turnOnDisplay, andThen_skip, andThen_assoc]

/-- The pseudocode of CLEAR and DISPLAY, for any frame of NBYTES bytes, in an environment that lets it
through. -/
theorem frame_goesThrough {frame : List Byte} {k : Nat} (hlen : frame.length = s.cfg.nbytes)
    (h : goesThrough s (frameBytes s.cfg) k) :
    Piece.inOrder [Piece.dataLoad s.cfg frame, Piece.turnOnDisplay s.cfg]
        ⟨s.env.answers.map (·.ok), s.env.levels, []⟩
      = (⟨(s.env.answers.map (·.ok)).drop (frameBytes s.cfg), s.env.levels.drop (k + 1),
          frameEvents s.cfg frame k⟩, none) := by
  obtain ⟨hbytes, hok, hbusy, hidle, htime⟩ := h
  have hthru := thru_frame_settle s.cfg frame
  rw [hlen, ← frameBytes] at hthru
  rw [frame_pieces, thru_then_wait hthru _ (by simpa using hbytes)
    (by simpa [← List.map_take] using hok) hbusy hidle htime]
  simp [frameEvents]

/-! ### The pins after a frame and its refresh (R27, R120) -/

/-- A framed byte moves DC to its level, CS_N down and up, and not RST_N. -/
def pinAfterByte (p : Pin) (dc : Bit) (level : Bit) : Bit :=
  match p with
  | .dc => dc
  | .csN => 1#1
  | .rstN => level

/-- A command byte. -/
@[simp] theorem pinAfter_cmdFrame (p : Pin) (l : Bit) (b : Byte) :
    pinAfter p l (cmdFrame b) = pinAfterByte p 0#1 l := by cases p <;> rfl

/-- A data byte. -/
@[simp] theorem pinAfter_dataFrame (p : Pin) (l : Bit) (b : Byte) :
    pinAfter p l (dataFrame b) = pinAfterByte p 1#1 l := by cases p <;> rfl

/-- Several data bytes. -/
theorem pinAfter_dataFrames (p : Pin) (l : Bit) (bs : List Byte) :
    pinAfter p l (bs.flatMap dataFrame) = if bs.isEmpty then l else pinAfterByte p 1#1 l := by
  induction bs generalizing l with
  | nil => rfl
  | cons b bs ih =>
    rw [List.flatMap_cons, pinAfter_append, pinAfter_dataFrame, ih]
    cases p <;> cases bs <;> rfl

/-- An entry. -/
@[simp] theorem pinAfter_entryFrames (p : Pin) (l : Bit) (e : Entry) :
    pinAfter p l (entryFrames e) = pinAfterByte p (dcAfterEntry e) l := by
  rw [entryFrames, pinAfter_append, pinAfter_cmdFrame, pinAfter_dataFrames, dcAfterEntry]
  cases p <;> cases e.data.isEmpty <;> rfl

/-- A wait moves no pin (R124). -/
@[simp] theorem pinAfter_waitEvents (p : Pin) (l : Bit) (cfg : Panel) (k : Nat) :
    pinAfter p l (waitEvents cfg k) = l := by
  induction k with
  | zero => rfl
  | succ k ih => simpa [waitEvents, List.replicate_succ] using ih

/-- A frame and its refresh leave DC where the refresh command's entry puts it, CS_N at 1 and RST_N as it
was. -/
theorem pinAfter_frameEvents (p : Pin) (l : Bit) (cfg : Panel) (frame : List Byte) (k : Nat) :
    pinAfter p l (frameEvents cfg frame k) = pinAfterByte p (dcAfterEntry cfg.displayRefresh) l := by
  simp only [frameEvents, pinAfter_append, pinAfter_cmdFrame, pinAfter_dataFrames, pinAfter_entryFrames,
    pinAfter_waitEvents, pinAfter_delay, pinAfter_nil]
  cases p <;> cases frame.isEmpty <;> rfl

/-! ### DISPLAY -/

/-- The packed buffer has NBYTES bytes (R190). -/
@[simp] theorem pack_length (p : Panel) (m : Memory) : (pack p m).length = p.nbytes := by simp [pack]

/-- Settles O52: the pseudocode of DISPLAY goes through with the packed canvas as its frame, and the machine
runs it. -/
theorem displayCompletes : Obligations.DisplayCompletes := by
  unfold Obligations.DisplayCompletes
  refine ⟨formatNOnly_of rfl fun w hw => by simp [decode, hw], fun s k hq hready hthru => ?_⟩
  have hrun := frame_goesThrough (pack_length s.cfg s.canvas) hthru
  obtain ⟨u, env, hexec, hoks, hlevels, hsuffix, hreach⟩ :=
    run_pseudocode (op := .display) hq (fun _ => hready) hrun (by simp)
  refine ⟨u, env, hexec, answers_eq_drop hsuffix hoks, hlevels, ?_⟩
  simpa [haltState, pstateAfter, hready, pinAfter_frameEvents, pinAfterByte, RunOp.code] using hreach

end Sys2Proof.Machine
end

section
/-! The statements about words (spec/30_encoding.md R71 to R80): decoder and encoder are inverse to each other,
the illegal words, the opcode table's rows, and the words the assembler emits. -/

namespace Sys2Proof.Machine

open BitVec

variable {w : Word} {i : Instr}

/-! ### The fields of an encoded word (R71, R73, R74) -/

/-- The OP field of an encoded word is its operation's code, and its row is in the opcode table. -/
theorem opcodeField (i : Instr) : Laws.OpcodeField.Statement i := by
  cases i
  case pset x y v => exact Laws.OpcodeField.pset x y v
  case pkrd a => exact Laws.OpcodeField.pkrd a
  all_goals unfold Laws.OpcodeField.Statement; decide

/-- The encoded word of an operation of format N is its code alone. -/
theorem encode_formatN (hi : i.opcode ≤ 0x6#4) : encode i = 0#28 ++ i.opcode := by
  cases i
  case pset | pkrd => simp [Instr.opcode] at hi
  all_goals rfl

/-- `v` is `w[4]`. -/
theorem encode_pset_v (x y : BitVec 12) (v : Bit) : (encode (.pset x y v)).extractLsb' 4 1 = v := by
  unfold encode
  rw [extractLsb'_append_eq_of_le (by omega)]
  exact extractLsb'_append_eq_right

/-- `w[7:5]` of a PSET is 0. -/
theorem encode_pset_reserved (x y : BitVec 12) (v : Bit) :
    (encode (.pset x y v)).extractLsb' 5 3 = 0#3 := by
  unfold encode
  iterate 2 rw [extractLsb'_append_eq_of_le (by omega)]
  exact extractLsb'_append_eq_right

/-- `x` is `w[19:8]`. -/
theorem encode_pset_x (x y : BitVec 12) (v : Bit) : (encode (.pset x y v)).extractLsb' 8 12 = x := by
  unfold encode
  iterate 3 rw [extractLsb'_append_eq_of_le (by omega)]
  exact extractLsb'_append_eq_right

/-- `y` is `w[31:20]`. -/
theorem encode_pset_y (x y : BitVec 12) (v : Bit) : (encode (.pset x y v)).extractLsb' 20 12 = y := by
  unfold encode
  iterate 4 rw [extractLsb'_append_eq_of_le (by omega)]
  exact extractLsb'_eq_self

/-- `w[7:4]` of a PKRD is 0. -/
theorem encode_pkrd_reserved (a : BitVec 24) : (encode (.pkrd a)).extractLsb' 4 4 = 0#4 := by
  unfold encode
  rw [extractLsb'_append_eq_of_le (by omega)]
  exact extractLsb'_append_eq_right

/-- `a` is `w[31:8]`. -/
theorem encode_pkrd_a (a : BitVec 24) : (encode (.pkrd a)).extractLsb' 8 24 = a := by
  unfold encode
  iterate 2 rw [extractLsb'_append_eq_of_le (by omega)]
  exact extractLsb'_eq_self

/-- A word is its fields of format P. -/
theorem split_formatP (w : Word) : w = w.extractLsb' 20 12 ++ w.extractLsb' 8 12 ++ w.extractLsb' 5 3
    ++ w.extractLsb' 4 1 ++ w.extractLsb' 0 4 := by
  iterate 4 rw [extractLsb'_append_extractLsb'_eq_extractLsb' (by omega)]
  exact extractLsb'_eq_self.symm

/-- A word is its fields of format R. -/
theorem split_formatR (w : Word) :
    w = w.extractLsb' 8 24 ++ w.extractLsb' 4 4 ++ w.extractLsb' 0 4 := by
  iterate 2 rw [extractLsb'_append_extractLsb'_eq_extractLsb' (by omega)]
  exact extractLsb'_eq_self.symm

/-! ### The decoder by the OP field (R75, R76, R78) -/

/-- Every code up to 6 is that of an operation (R72). -/
theorem exists_opcode_eq {op : BitVec 4} (h : op ≤ 0x6#4) : ∃ i : Instr, i.opcode = op := by
  have hcodes : ∀ op ≤ 0x6#4,
      ∃ i ∈ [Instr.nop, .reset, .init, .clear, .display, .sleep, .cclr], i.opcode = op := by decide
  obtain ⟨i, -, hi⟩ := hcodes op h
  exact ⟨i, hi⟩

/-- The OP field is the code of an operation of format N, PSET's, PKRD's, or reserved (R72, R76). -/
theorem opField_cases (w : Word) :
    (∃ i : Instr, i.opcode ≤ 0x6#4 ∧ opField w = i.opcode) ∨ opField w = 0x7#4 ∨
      opField w = 0x8#4 ∨ 0x8#4 < opField w := by
  have hcases : ∀ op : BitVec 4, op ≤ 0x6#4 ∨ op = 0x7#4 ∨ op = 0x8#4 ∨ 0x8#4 < op := by decide
  obtain hop | hrest := hcases (opField w)
  · obtain ⟨i, hi⟩ := exists_opcode_eq hop
    exact .inl ⟨i, hi.symm ▸ hop, hi.symm⟩
  · exact .inr hrest

/-- A code of format N selects `decodeN`. -/
theorem decode_formatN (hi : i.opcode ≤ 0x6#4) (hw : opField w = i.opcode) :
    decode w = decodeN i w := by
  cases i
  case pset | pkrd => simp [Instr.opcode] at hi
  all_goals simp [decode, hw, Instr.opcode]

/-- PSET's code selects `decodeP`. -/
theorem decode_formatP (hw : opField w = 0x7#4) : decode w = decodeP w := by simp [decode, hw]

/-- PKRD's code selects `decodeR`. -/
theorem decode_formatR (hw : opField w = 0x8#4) : decode w = decodeR w := by simp [decode, hw]

/-- A reserved code selects no operation (R76). -/
theorem decode_reservedOpcode (hw : 0x8#4 < opField w) : decode w = .error .reservedOpcode := by
  have hne : ∀ op : BitVec 4, op ≤ 0x8#4 → opField w ≠ op := by
    rintro op hop rfl
    exact BitVec.not_lt.2 hop hw
  simp [decode, hne]

/-! ### Decoder and encoder -/

/-- The decoder gives an encoded operation back. -/
theorem decode_encode (i : Instr) : decode (encode i) = .ok i := by
  obtain ⟨hop, -⟩ := opcodeField i
  cases i
  case pset x y v =>
    rw [decode_formatP hop, decodeP, if_pos (encode_pset_reserved x y v), encode_pset_x,
      encode_pset_y, encode_pset_v]
  case pkrd a => rw [decode_formatR hop, decodeR, if_pos (encode_pkrd_reserved a), encode_pkrd_a]
  all_goals decide

/-- A word that decodes is the encoding of its operation. -/
theorem encode_of_decode (h : decode w = .ok i) : encode i = w := by
  obtain ⟨j, hj, hop⟩ | hop | hop | hop := opField_cases w
  · rw [decode_formatN hj hop, decodeN] at h
    split at h <;> cases h
    next hz => rw [encode_formatN hj, ← hop, ← hz]; exact (split_word w).symm
  · rw [decode_formatP hop, decodeP] at h
    split at h <;> cases h
    next hz => rw [encode, ← hop, ← hz]; exact (split_formatP w).symm
  · rw [decode_formatR hop, decodeR] at h
    split at h <;> cases h
    next hz => rw [encode, ← hop, ← hz]; exact (split_formatR w).symm
  · simp [decode_reservedOpcode hop] at h

/-- Settles O2: every field of the encoded word is where the decoder reads it. -/
theorem decodeOfEncode : Obligations.DecodeOfEncode := by
  unfold Obligations.DecodeOfEncode
  exact decode_encode

/-- Settles O3: a word is its fields, the reserved ones among them. -/
theorem encodeOfDecode : Obligations.EncodeOfDecode := by
  unfold Obligations.EncodeOfDecode
  exact fun w i h => encode_of_decode h

/-- Settles O1: the decoder evaluates on each of the written words. -/
theorem decodeWrittenWords : Obligations.DecodeWrittenWords := by
  unfold Obligations.DecodeWrittenWords
  decide

/-! ### Illegal words (R75 to R77) -/

/-- Settles O4: for each value of the OP field, decoder and rule ask for the same reserved bits. -/
theorem decodeRefusesExactlyIllegalWords : Obligations.DecodeRefusesExactlyIllegalWords := by
  unfold Obligations.DecodeRefusesExactlyIllegalWords
  intro w
  obtain ⟨i, hi, hop⟩ | hop | hop | hop := opField_cases w
  · have hle : opField w ≤ 0x6#4 := hop ▸ hi
    rw [decode_formatN hi hop, decodeN, illegalWord, if_pos hle]
    split <;> simp [*]
  · rw [decode_formatP hop, decodeP]
    split <;> simp [illegalWord, *]
  · rw [decode_formatR hop, decodeR]
    split <;> simp [illegalWord, *]
  · have hne : ∀ op : BitVec 4, 0x8#4 < op → ¬ op ≤ 0x6#4 ∧ op ≠ 0x7#4 ∧ op ≠ 0x8#4 := by decide
    simp [decode_reservedOpcode hop, illegalWord, hne _ hop]

/-- In a word of a row, a field that lies under the row's mask is the value's. -/
theorem field_of_matchesWord {r : OpcodeRow} {start len : Nat} (h : r.matchesWord w = true)
    (hmask : r.mask.extractLsb' start len = allOnes len) :
    w.extractLsb' start len = r.value.extractLsb' start len := by
  rw [← (beq_iff_eq.1 h : w &&& r.mask = r.value), extractLsb'_and, hmask, and_allOnes]

/-- A word of a row of the opcode table decodes to an operation of the row's code. -/
theorem decode_of_matchesWord {r : OpcodeRow} (hr : r ∈ opcodeTable) (h : r.matchesWord w = true) :
    ∃ i, decode w = .ok i ∧ i.opcode = r.opcode := by
  have hrows : ∀ r ∈ opcodeTable,
      (r.opcode ≤ 0x6#4 ∧ r.value = 0#28 ++ r.opcode ∧ r.mask = allOnes 32) ∨
        r = ⟨0x7#4, 0x00000007#32, 0x000000EF#32⟩ ∨ r = ⟨0x8#4, 0x00000008#32, 0x000000FF#32⟩ := by
    decide
  obtain ⟨hle, hvalue, hmask⟩ | rfl | rfl := hrows r hr
  · obtain ⟨i, hi⟩ := exists_opcode_eq hle
    have hw : w = encode i := by
      rw [encode_formatN (hi.symm ▸ hle), hi, ← hvalue, ← (beq_iff_eq.1 h : w &&& r.mask = r.value),
        hmask, and_allOnes]
    exact ⟨i, hw ▸ decode_encode i, hi⟩
  · have hop : opField w = 0x7#4 := field_of_matchesWord h (by decide)
    have hz : w.extractLsb' 5 3 = 0#3 := field_of_matchesWord h (by decide)
    exact ⟨_, by rw [decode_formatP hop, decodeP, if_pos hz], rfl⟩
  · have hop : opField w = 0x8#4 := field_of_matchesWord h (by decide)
    have hz : w.extractLsb' 4 4 = 0#4 := field_of_matchesWord h (by decide)
    exact ⟨_, by rw [decode_formatR hop, decodeR, if_pos hz], rfl⟩

/-- The codes of the opcode table's rows differ. -/
theorem opcodeTable_inj {r r' : OpcodeRow} (hr : r ∈ opcodeTable) (hr' : r' ∈ opcodeTable)
    (h : r.opcode = r'.opcode) : r = r' := by
  have hinj : ∀ r ∈ opcodeTable, ∀ r' ∈ opcodeTable, r.opcode = r'.opcode → r = r' := by decide
  exact hinj r hr r' hr' h

/-- A row of the opcode table has the words that decode to an operation of its code. -/
theorem matchesWord_iff {r : OpcodeRow} (hr : r ∈ opcodeTable) (hd : decode w = .ok i) :
    r.matchesWord w = true ↔ r.opcode = i.opcode := by
  constructor
  · intro h
    obtain ⟨j, hj, hop⟩ := decode_of_matchesWord hr h
    obtain rfl : i = j := Except.ok.inj (hd.symm.trans hj)
    exact hop.symm
  · intro h
    obtain ⟨-, r', hr', hop, hmatch⟩ := opcodeField i
    rwa [opcodeTable_inj hr hr' (h.trans hop.symm), ← encode_of_decode hd]

/-- One row of the opcode table has an operation's code. -/
theorem filter_opcode (i : Instr) :
    ∃ r, opcodeTable.filter (fun r => r.opcode = i.opcode) = [r] ∧ r.opcode = i.opcode := by
  cases i <;> exact ⟨_, rfl, rfl⟩

/-- Settles O5: the rows that a decoded word matches are those of its operation's code, which is one, and an
illegal word matches none. -/
theorem everyWordIsOneOperationOrIllegal : Obligations.EveryWordIsOneOperationOrIllegal := by
  unfold Obligations.EveryWordIsOneOperationOrIllegal
  intro w
  cases hd : decode w with
  | ok i =>
    have hrows : opcodeTable.filter (fun r => r.matchesWord w)
        = opcodeTable.filter (fun r => r.opcode = i.opcode) :=
      List.filter_congr fun r hr => Bool.eq_iff_iff.2 (by simpa using matchesWord_iff hr hd)
    obtain ⟨r, hone, hop⟩ := filter_opcode i
    exact .inl ⟨i, r, rfl, hrows.trans hone, hop⟩
  | error e =>
    have hnone : opcodeTable.filter (fun r => r.matchesWord w) = [] := by
      refine List.filter_eq_nil_iff.2 fun r hr h => ?_
      obtain ⟨i, hi, -⟩ := decode_of_matchesWord hr h
      simp [hd] at hi
    exact .inr ⟨⟨e, rfl⟩, hnone⟩

end Sys2Proof.Machine
end

section
/-! The words the assembler emits (spec/30_encoding.md R79, R80). -/

namespace Sys2Proof.Machine

open BitVec

/-- An encoded PSET by R79's shift-and-or formula. -/
theorem encode_pset_eq_ofNat (x y : BitVec 12) (v : Bit) : encode (.pset x y v)
    = BitVec.ofNat 32 (y.toNat <<< 20 ||| x.toNat <<< 8 ||| v.toNat <<< 4 ||| 0x7) := by
  have htoNat : (encode (.pset x y v)).toNat
      = y.toNat <<< 20 ||| x.toNat <<< 8 ||| v.toNat <<< 4 ||| 0x7 := by
    change @BitVec.toNat (12 + 12 + 3 + 1 + 4) (y ++ x ++ 0#3 ++ v ++ 0x7#4) = _
    iterate 4 rw [toNat_append]
    simp [Nat.shiftLeft_or_distrib, ← Nat.shiftLeft_add]
  rw [← htoNat, ofNat_toNat, setWidth_eq]

/-- An encoded PKRD by R79's shift-and-or formula. -/
theorem encode_pkrd_eq_ofNat (a : BitVec 24) :
    encode (.pkrd a) = BitVec.ofNat 32 (a.toNat <<< 8 ||| 0x8) := by
  have htoNat : (encode (.pkrd a)).toNat = a.toNat <<< 8 ||| 0x8 := by
    change @BitVec.toNat (24 + 4 + 4) (a ++ 0#4 ++ 0x8#4) = _
    iterate 2 rw [toNat_append]
    simp [← Nat.shiftLeft_add]
  rw [← htoNat, ofNat_toNat, setWidth_eq]

/-- A PSET line in range (R79). -/
theorem assembleLine_pset {x y v : Nat} (hx : x ≤ 4095) (hy : y ≤ 4095) (hv : v ≤ 1) :
    assembleLine (.pset x y v)
      = some (encode (.pset (BitVec.ofNat 12 x) (BitVec.ofNat 12 y) (BitVec.ofNat 1 v))) := by
  have hwf : (AsmLine.pset x y v).wf = true := by simp [AsmLine.wf, hx, hy, hv]
  rw [assembleLine, if_pos hwf, encode_pset_eq_ofNat, toNat_ofNat, toNat_ofNat, toNat_ofNat,
    Nat.mod_eq_of_lt (by omega), Nat.mod_eq_of_lt (by omega), Nat.mod_eq_of_lt (by omega)]

/-- A PKRD line in range (R79). -/
theorem assembleLine_pkrd {a : Nat} (ha : a ≤ 2 ^ 24 - 1) :
    assembleLine (.pkrd a) = some (encode (.pkrd (BitVec.ofNat 24 a))) := by
  have hwf : (AsmLine.pkrd a).wf = true := by simpa [AsmLine.wf] using ha
  rw [assembleLine, if_pos hwf, encode_pkrd_eq_ofNat, toNat_ofNat, Nat.mod_eq_of_lt (by omega)]

/-- PBLACK and PWHITE are PSET with `v` 0 and 1, in range or not (R80). -/
theorem assembleLine_pseudo (x y : Nat) :
    assembleLine (.pblack x y) = assembleLine (.pset x y 0) ∧
      assembleLine (.pwhite x y) = assembleLine (.pset x y 1) := by
  simp [assembleLine, AsmLine.wf]

/-- The assembler emits nothing for an ill-formed line. -/
theorem assembleLine_eq_none {l : AsmLine} (h : ¬ l.wf = true) : assembleLine l = none := if_neg h

/-- A PSET line out of range (R79). -/
theorem assembleLine_pset_refused {x y v : Nat} (h : x > 4095 ∨ y > 4095 ∨ v > 1) :
    assembleLine (.pset x y v) = none := by
  apply assembleLine_eq_none
  simp only [AsmLine.wf, Bool.and_eq_true, decide_eq_true_eq]
  omega

/-- A PKRD line out of range (R79). -/
theorem assembleLine_pkrd_refused {a : Nat} (h : a > 2 ^ 24 - 1) : assembleLine (.pkrd a) = none := by
  apply assembleLine_eq_none
  simp only [AsmLine.wf, decide_eq_true_eq]
  omega

/-- A literal word is emitted as it stands. -/
theorem assembleLine_word (w : Word) : assembleLine (.word w.toNat) = some w := by
  have hwf : (AsmLine.word w.toNat).wf = true := decide_eq_true w.isLt
  rw [assembleLine, if_pos hwf, ofNat_toNat, setWidth_eq]

/-- Settles O6: R79's formulas are the layouts of R71, and the pseudo-instructions stand for PSET lines. -/
theorem assemblerEmitsEncodings : Obligations.AssemblerEmitsEncodings := by
  unfold Obligations.AssemblerEmitsEncodings
  refine ⟨fun x y v => assembleLine_pset, fun x y _ _ => assembleLine_pseudo x y,
    fun a => assembleLine_pkrd, fun x y v => assembleLine_pset_refused, fun x y h => ?pseudo,
    fun a => assembleLine_pkrd_refused, rfl, rfl, rfl, rfl, rfl, rfl, rfl, assembleLine_word⟩
  case pseudo =>
    obtain ⟨hblack, hwhite⟩ := assembleLine_pseudo x y
    have hout : ∀ v, x > 4095 ∨ y > 4095 ∨ v > 1 := fun v => h.imp_right .inl
    exact ⟨hblack.trans (assembleLine_pset_refused (hout 0)),
      hwhite.trans (assembleLine_pset_refused (hout 1))⟩

end Sys2Proof.Machine
end

section
/-! Three statements about states: every run goes on, the frame of one byte, and the register port
(spec/30_encoding.md R77, R82, spec/41_wire_primitives.md R120). -/

namespace Sys2Proof.Machine

variable {s : State}

/-! ### Every run goes on (R77, R159) -/

/-- From a coherent state a run of any length answers a next state. -/
theorem coherent_run (h : Coherent s) (n : Nat) : ∃ t, Host.Core.run Sys2Proof.core n s = .next t := by
  induction n generalizing s with
  | zero => exact ⟨s, rfl⟩
  | succ n ih =>
    obtain ⟨u, hu⟩ := step_next h.busy_pc
    rw [run_succ hu]
    exact ih (coherent_step h hu)

/-- Settles O35: the one fault needs BUSY and `pc` to disagree, which no coherent state lets happen. -/
theorem coherentStatesNeverStop : Obligations.CoherentStatesNeverStop := by
  unfold Obligations.CoherentStatesNeverStop
  exact fun s h n => coherent_run h n

/-! ### One byte (R120) -/

/-- At the start of a byte nothing is under way, so that its run may begin. -/
theorem clean_of_coherent {p : Pos} (h : Coherent s) (hpc : s.pc = .run p) (hn : p.next = .setDc)
    (hrst : s.rstIn = []) : Clean s := by
  obtain ⟨hbusy, -, hdelay, hflight, -⟩ := pcok_elim hpc ((coherent_iff s).1 h).2
  exact ⟨hbusy, hdelay (by simp [hn, Prim.delayName]), hflight (by simp [hn]), hrst⟩

/-- A run begins with all its draws before it and no event behind it. -/
theorem sim_refl (s : State) : Sim s s ⟨s.env.answers.map (·.ok), s.env.levels, []⟩ :=
  ⟨same_refl s, rfl, rfl, (List.append_nil _).symm, rfl, rfl, rfl⟩

/-- The operation is under way without an error, or it has completed without one (R225). -/
def NoError (s t : State) : Prop :=
  (t.busy = s.busy ∧ t.err = s.err ∧ t.pstate = s.pstate) ∨
    (t.busy = false ∧ t.err = .ok ∧ t.done = true)

/-- Going to the next step of the sequence takes no error. -/
theorem nextStage_noError (p : Pos) (s : State) : NoError s (nextStage p s) := by
  unfold nextStage
  split
  · obtain ⟨herr, -, -, -, -, hbusy, hdone⟩ := finishOp_complete p.op s
    exact .inr ⟨hbusy, herr, hdone⟩
  · exact .inl ⟨rfl, rfl, rfl⟩

/-- Going to the next byte takes no error. -/
theorem nextByte_noError (p : Pos) (s : State) : NoError s (nextByte p s) := by
  unfold nextByte
  split <;> split
  · exact .inl ⟨rfl, rfl, rfl⟩
  · exact nextStage_noError p s
  · exact .inl ⟨rfl, rfl, rfl⟩
  · exact nextStage_noError p s

/-- Settles O41: `byte_run` performs the four events; what follows, the abort or the next byte, leaves wire,
pins and draws alone. -/
theorem sendByteFramesOneByte : Obligations.SendByteFramesOneByte := by
  unfold Obligations.SendByteFramesOneByte
  intro s p a as hcoh hpc hn hrst hans
  have hoks : s.env.answers.map (·.ok) = a.ok :: as.map (·.ok) := by simp [hans]
  obtain ⟨u, hc, hs, hreach⟩ :=
    byte_run (clean_of_coherent hcoh hpc hn hrst) hpc hn (sim_refl s) hoks
  have hdraws : ∀ t, Reaches s t → t.env = u.env → t.env.answers = as := by
    intro t ht henv
    have hdrop := answers_eq_drop (n := 1) (reaches_answers ht) (by simp [henv, hs.oks, hans])
    simpa [hans] using hdrop
  cases hok : a.ok with
  | false =>
    rw [hok] at hreach hs
    exact ⟨_, hreach, hs.wire, hs.dc, hs.csN, hs.rstN, hdraws _ hreach rfl, hs.same.canvas,
      hs.same.result, fun _ => ⟨rfl, rfl, rfl, rfl, rfl, rfl, rfl, rfl⟩, nofun⟩
  | true =>
    rw [hok] at hreach hs
    obtain ⟨-, hcanvas, hresult, -, -, henv, hwire, hdc, hcsN, hrstN, -⟩ :=
      nextByte_frame { p with next := .csHigh true } u
    refine ⟨_, hreach, hwire.trans hs.wire, hdc.trans hs.dc, hcsN.trans hs.csN,
      hrstN.trans hs.rstN, hdraws _ hreach henv, hcanvas.trans hs.same.canvas,
      hresult.trans hs.same.result, nofun, fun _ => ?_⟩
    obtain ⟨hbusy, herr, hpstate⟩ | hdone := nextByte_noError { p with next := .csHigh true } u
    · exact .inl ⟨hbusy.trans hc.busy, herr.trans hs.same.err, hpstate.trans hs.same.pstate⟩
    · exact .inr hdone

/-! ### The register port (R24, R82) -/

/-- Settles O16: `readReg` evaluates on each of the four selectors, and there are no others. -/
theorem registerMap : Obligations.RegisterMap := by
  unfold Obligations.RegisterMap
  exact fun s => ⟨rfl, rfl, rfl, rfl, by decide⟩

end Sys2Proof.Machine
end

section
/-! The statements about CCLR: its loop writes white to the cells in the order of their addresses, and the
canvas it leaves is the empty list (spec/40_canvas.md R101). -/

namespace Sys2Proof.Machine

variable {p : Panel} {m : Memory}

/-! ### The white canvas (R28) -/

/-- The white canvas reads white everywhere. -/
@[simp] theorem whiteCanvas_read (a : Nat) : whiteCanvas.read a = whitePixel := rfl

/-- The white canvas is in canonical form. -/
@[simp] theorem whiteCanvas_wf : whiteCanvas.wf = true := rfl

/-- A cell beyond the canvas is not listed: it reads white. -/
theorem Memory.read_beyond {n a : Nat} (h : m.within n = true) (ha : n ≤ a) :
    m.read a = whitePixel := by
  rw [Memory.within_iff] at h
  induction m with
  | nil => rfl
  | cons c m ih =>
    obtain ⟨hc, hm⟩ := List.forall_mem_cons.1 h
    rw [Memory.read_cons_ne (by omega), ih hm]

/-! ### CCLR's loop (R101) -/

/-- The loop over one row keeps the canonical form. -/
theorem clearRow_wf (h : m.wf = true) (y n : Nat) : (clearRow p y n m).wf = true := by
  induction n with
  | zero => exact h
  | succ n ih => exact Memory.write_wf _ _ ih

/-- The loop over rows keeps the canonical form. -/
theorem clearRows_wf (h : m.wf = true) (n : Nat) : (clearRows p n m).wf = true := by
  induction n with
  | zero => exact h
  | succ n ih => exact clearRow_wf ih n p.width

/-- The first `n` columns of row `y` are the `n` cells from `y * W` on: they read white, every other cell
as before. -/
theorem clearRow_read (h : m.wf = true) (y n a : Nat) :
    (clearRow p y n m).read a =
      if y * p.width ≤ a ∧ a < y * p.width + n then whitePixel else m.read a := by
  induction n with
  | zero => exact (if_neg (by omega)).symm
  | succ n ih =>
    have hcell : (clearRow p y (n + 1) m).read a =
        if a = y * p.width + n then whitePixel else (clearRow p y n m).read a :=
      Memory.read_write (clearRow_wf h y n)
    rw [hcell, ih, ← ite_or]
    exact if_congr (by omega) rfl rfl

/-- The first `n` rows are the cells below `n * W`: they read white, every other cell as before. -/
theorem clearRows_read (h : m.wf = true) (n a : Nat) :
    (clearRows p n m).read a = if a < n * p.width then whitePixel else m.read a := by
  induction n with
  | zero => exact (if_neg (by omega)).symm
  | succ n ih =>
    rw [clearRows, clearRow_read (clearRows_wf h n), ih, ← ite_or, Nat.succ_mul]
    exact if_congr (by omega) rfl rfl

/-- The loop over all rows of a canvas of `W × H` cells leaves the white canvas. -/
theorem clearRows_eq_whiteCanvas (h : m.wf = true) (hin : m.within (p.width * p.height) = true) :
    clearRows p p.height m = whiteCanvas := by
  refine Memory.ext_read (clearRows_wf h p.height) whiteCanvas_wf fun a => ?_
  rw [clearRows_read h, whiteCanvas_read]
  split
  · rfl
  · exact Memory.read_beyond hin (by rw [Nat.mul_comm]; omega)

/-- Settles O24: the loop and CCLR leave the same canvas, the white one. -/
theorem cclrIsThePixelLoop : Obligations.CclrIsThePixelLoop := by
  unfold Obligations.CclrIsThePixelLoop
  intro s t hwf hin he
  have hcanvas : t.canvas = whiteCanvas := by cases he; rfl
  rw [hcanvas, clearRows_eq_whiteCanvas hwf hin]

/-- Settles O23: the canvas is `whiteCanvas`, and 6 is an OP of format N. -/
theorem cclrWhitensTheCanvas : Obligations.CclrWhitensTheCanvas := by
  unfold Obligations.CclrWhitensTheCanvas
  exact ⟨formatNOnly_of rfl fun w hw => by simp [decode, hw],
    fun s => ⟨whiteCanvas, whiteCanvas_read, whiteCanvas_wf, rfl⟩⟩

end Sys2Proof.Machine
end

section
/-! What the sequencer sees of the panel and of the transport (spec/41_wire_primitives.md R124, R127, R128):
the poll counter, the place of BUSY samples, and the received bytes, which it discards. -/

namespace Sys2Proof.Machine

variable {s t : State} {p : Pos}

/-! ### The poll counter (R124, R234) -/

/-- Settles O20: the counter as a number is `countPoll_toNat`. -/
theorem pollCounterSaturates : Obligations.PollCounterSaturates := by
  unfold Obligations.PollCounterSaturates
  exact countPoll_toNat

/-! ### BUSY is sampled in waits (R128) -/

/-- There are three wait steps (R26). -/
theorem wait_of_kind {st : StepId} (h : st.kind = some .wait) :
    st = .waitPowerOn ∨ st = .waitRefresh ∨ st = .waitPowerOff := by
  cases st <;> simp [StepId.kind] at h ⊢

/-- A step with no operation in progress performs no event. -/
theorem wire_of_not_running (hs : step s = .next t) (h : ∀ p, s.pc ≠ .run p) : t.wire = s.wire := by
  obtain ⟨-, rfl⟩ | ⟨-, -, p, hp, -⟩ | ⟨-, -, -, -, rfl⟩ | ⟨-, -, -, w, q, e, -, -, rfl⟩ |
    ⟨-, -, -, w, q, i, -, -, he⟩ := step_cases hs
  · rfl
  · exact absurd hp (h p)
  · rfl
  · rfl
  · obtain ⟨hwire, -⟩ := exec_wire he
    exact hwire

/-- Settles O39: a sample event is that of the primitive `sample`, which at a legal position belongs to a
wait step. -/
theorem busySampledOnlyInWaits : Obligations.BusySampledOnlyInWaits := by
  unfold Obligations.BusySampledOnlyInWaits
  intro s t l hcoh hs hwire
  obtain ⟨-, rfl⟩ | ⟨-, -, p, hp, rfl⟩ | ⟨-, -, hp, -⟩ | ⟨-, -, hp, -⟩ | ⟨-, -, hp, -⟩ :=
    step_cases hs
  · simp at hwire
  · obtain ⟨es, hes, -, -, -, -, hsample⟩ := seqStep_wire p (nextInputs s)
    have hnext : p.next = .sample := hsample l (List.append_cancel_left (hes.symm.trans hwire))
    obtain ⟨-, hlegal, -⟩ := pcok_elim hp ((coherent_iff s).1 hcoh).2
    exact ⟨p, hp, wait_of_kind (by rw [legal_kind hlegal, hnext]; rfl)⟩
  all_goals
    have hquiet := wire_of_not_running hs (by simp [hp])
    simp [hquiet] at hwire

/-! ### The received bytes are discarded (R127) -/

/-- An operation on states that commutes with erasing the received bytes. -/
def IgnoresReceived (f : State → State) : Prop := ∀ s, f (eraseReceived s) = eraseReceived (f s)

/-- Erasing the received bytes twice is erasing them once. -/
@[simp] theorem eraseReceived_idem (s : State) :
    eraseReceived (eraseReceived s) = eraseReceived s := by
  simp [eraseReceived, Function.comp_def]

/-- The lateness of a delay does not depend on received bytes. -/
theorem drawLate_eraseReceived (s : State) :
    (eraseReceived s).env.drawLate = (s.env.drawLate.1,
      { s.env.drawLate.2 with answers := (eraseReceived s).env.answers }) := by
  simp only [eraseReceived, Env.drawLate]
  split <;> rfl

/-- Nor does the BUSY level at a sample. -/
theorem drawLevel_eraseReceived (s : State) :
    (eraseReceived s).env.drawLevel = (s.env.drawLevel.1,
      { s.env.drawLevel.2 with answers := (eraseReceived s).env.answers }) := by
  simp only [eraseReceived, Env.drawLevel]
  split <;> rfl

/-- A delay draws no answer of the transport. -/
theorem drawLate_answers (e : Env) : e.drawLate.2.answers = e.answers := by
  unfold Env.drawLate
  split <;> rfl

/-- A sample draws no answer of the transport. -/
theorem drawLevel_answers (e : Env) : e.drawLevel.2.answers = e.answers := by
  unfold Env.drawLevel
  split <;> rfl

/-- A pin write. -/
theorem setPin_ignoresReceived (q : Pin) (v : Bit) : IgnoresReceived (setPin q v) :=
  fun s => by cases q <;> rfl

/-- The end of an operation. -/
theorem finishOp_ignoresReceived (op : RunOp) : IgnoresReceived (finishOp op) :=
  fun s => by cases op <;> rfl

/-- Going to the next step of the sequence. -/
theorem nextStage_ignoresReceived (p : Pos) : IgnoresReceived (nextStage p) := by
  intro s
  unfold nextStage
  split
  · exact finishOp_ignoresReceived p.op s
  · rfl

/-- Going to the next byte. -/
theorem nextByte_ignoresReceived (p : Pos) : IgnoresReceived (nextByte p) := by
  intro s
  have hcfg : (eraseReceived s).cfg = s.cfg := rfl
  unfold nextByte
  rw [hcfg]
  split <;> split
  · rfl
  · exact nextStage_ignoresReceived p s
  · rfl
  · exact nextStage_ignoresReceived p s

/-- A delay, when what follows it ignores the received bytes. -/
theorem delayStep_ignoresReceived (n : DelayName) {after : State → State}
    (ha : IgnoresReceived after) : IgnoresReceived (delayStep n after) := by
  intro s
  have hdelay : (eraseReceived s).delay = s.delay := rfl
  have hcfg : (eraseReceived s).cfg = s.cfg := rfl
  unfold delayStep
  rw [hdelay, hcfg, drawLate_eraseReceived]
  split
  · simp [eraseReceived, emit, drawLate_answers]
  · split
    · rfl
    · exact ha { s with delay := none }

/-- A byte's end: CS_N rises, and the answer decides what follows. -/
theorem sendCsHigh_ignoresReceived (ok : Bool) (p : Pos) : IgnoresReceived (sendCsHigh ok p) := by
  intro s
  unfold sendCsHigh
  rw [setPin_ignoresReceived]
  split
  · exact nextByte_ignoresReceived p _
  · rfl

/-- A sample of BUSY. -/
theorem pollBusy_ignoresReceived (p : Pos) : IgnoresReceived (pollBusy p) := by
  intro s
  have hcfg : (eraseReceived s).cfg = s.cfg := rfl
  have hsample : emit (.sample s.env.drawLevel.1) { eraseReceived s with
        env := { s.env.drawLevel.2 with answers := (eraseReceived s).env.answers } }
      = eraseReceived (emit (.sample s.env.drawLevel.1) { s with env := s.env.drawLevel.2 }) := by
    simp [eraseReceived, emit, drawLevel_answers]
  unfold pollBusy
  simp only [drawLevel_eraseReceived, hcfg, hsample]
  split
  · exact nextStage_ignoresReceived _ _
  · split <;> rfl

/-- A transfer stores the received byte in flight, and nothing else of it: the free draw of a received byte
is erased after the step, not before it. -/
theorem sendXfer_eraseReceived (p : Pos) (s : State) :
    eraseReceived (sendXfer p (eraseReceived s)) = eraseReceived (sendXfer p s) := by
  cases hf : s.inFlight with
  | none =>
    cases ha : s.env.answers <;>
      simp [sendXfer, eraseReceived, hf, Env.drawAnswer, ha, Function.comp_def]
  | some f =>
    by_cases hw : f.wait = 0
    · simp [sendXfer, eraseReceived, hf, hw, goTo, emit, Function.comp_def]
    · simp [sendXfer, eraseReceived, hf, hw, Function.comp_def]

/-- A primitive gives states that differ only in received bytes from states that do. -/
theorem seqStep_eraseReceived (p : Pos) (s : State) :
    eraseReceived (seqStep p (eraseReceived s)) = eraseReceived (seqStep p s) := by
  have hignores : ∀ {f : State → State}, IgnoresReceived f →
      eraseReceived (f (eraseReceived s)) = eraseReceived (f s) :=
    fun hf => by rw [hf, eraseReceived_idem]
  cases hn : p.next <;> simp only [seqStep, hn]
  case rstHigh | rstLow => exact hignores (f := pulsePin _ _ _ p) fun _ => rfl
  case rstHighSettle | rstLowSettle | pollDelay =>
    exact hignores (delayStep_ignoresReceived _ fun _ => rfl)
  case rstHighAgain =>
    exact hignores (f := fun s => nextStage p (setPin .rstN 1#1 s)) fun s =>
      nextStage_ignoresReceived p (setPin .rstN 1#1 s)
  case setDc => exact hignores (f := sendDc p) fun _ => rfl
  case csLow => exact hignores (f := sendCsLow p) fun _ => rfl
  case xfer => exact sendXfer_eraseReceived p s
  case csHigh ok => exact hignores (sendCsHigh_ignoresReceived ok p)
  case refreshSettle => exact hignores (delayStep_ignoresReceived _ (nextStage_ignoresReceived p))
  case sample => exact hignores (pollBusy_ignoresReceived p)

/-- The outcome of a step, every received byte in it replaced by 0. -/
def eraseOutcome : Host.Outcome State Fault Refusal → Host.Outcome State Fault Refusal
  | .next s => .next (eraseReceived s)
  | .fault r => .fault r
  | .refused r => .refused r

/-- Erasing an outcome twice is erasing it once. -/
@[simp] theorem eraseOutcome_idem (o : Host.Outcome State Fault Refusal) :
    eraseOutcome (eraseOutcome o) = eraseOutcome o := by
  cases o <;> simp [eraseOutcome]

/-- A meaning reads no received byte. -/
theorem exec_eraseReceived (i : Instr) (s : State) :
    exec i (eraseReceived s) = eraseOutcome (exec i s) := by
  have hpstate : (eraseReceived s).pstate = s.pstate := rfl
  have hcfg : (eraseReceived s).cfg = s.cfg := rfl
  cases i
  case clear | display | sleep =>
    simp only [exec, execClear, execDisplay, execSleep, hpstate]
    split <;> rfl
  case pkrd =>
    simp only [exec, execPkrd, pkrd, hcfg]
    split <;> rfl
  all_goals rfl

/-- Acceptance reads no received byte. -/
theorem onAccept_eraseReceived (w : Word) (s : State) :
    onAccept w (eraseReceived s) = eraseOutcome (onAccept w s) := by
  unfold onAccept
  split
  · rfl
  · exact exec_eraseReceived _ (acceptWord s)

/-- Out of reset: a primitive, waiting, or acceptance. -/
theorem runStep_eraseReceived (s : State) :
    eraseOutcome (runStep (eraseReceived s)) = eraseOutcome (runStep s) := by
  have hwait : ∀ q, eraseOutcome (.next { eraseReceived s with cmdQueue := q })
      = eraseOutcome (.next { s with cmdQueue := q }) :=
    fun q => congrArg Host.Outcome.next (eraseReceived_idem { s with cmdQueue := q })
  unfold runStep
  simp only [show (eraseReceived s).busy = s.busy from rfl, show (eraseReceived s).pc = s.pc from rfl,
    show (eraseReceived s).cmdQueue = s.cmdQueue from rfl]
  split
  · exact congrArg Host.Outcome.next (seqStep_eraseReceived _ s)
  · split
    · exact congrArg Host.Outcome.next (eraseReceived_idem s)
    · exact hwait _
    · rw [onAccept_eraseReceived, eraseOutcome_idem]
  · rfl
  · rfl

/-- A step erases to the same outcome whether or not the received bytes are erased before it. -/
theorem step_eraseReceived (s : State) :
    eraseOutcome (step (eraseReceived s)) = eraseOutcome (step s) := by
  unfold step
  rw [show rstAsserted (eraseReceived s) = rstAsserted s from rfl]
  split
  · exact congrArg Host.Outcome.next (eraseReceived_idem (blockReset (nextInputs s)))
  · exact runStep_eraseReceived (nextInputs s)

/-- Settles O40: both steps have the outcome of the step from their common erasure. -/
theorem receivedBytesAreDiscarded : Obligations.ReceivedBytesAreDiscarded := by
  unfold Obligations.ReceivedBytesAreDiscarded
  intro s s' t heq hs
  have hout : eraseOutcome (step s') = .next (eraseReceived t) := by
    rw [← step_eraseReceived, ← heq, step_eraseReceived, hs]
    rfl
  cases hs' : step s' with
  | next t' =>
    rw [hs'] at hout
    exact ⟨t', rfl, (Host.Outcome.next.inj hout).symm⟩
  | fault r => simp [hs', eraseOutcome] at hout
  | refused r => simp [hs', eraseOutcome] at hout

end Sys2Proof.Machine
end

section
/-! Delays and waits (spec/41_wire_primitives.md R123, R124): how many steps a delay takes, and the two ways
a wait ends. -/

namespace Sys2Proof.Machine

variable {s : State} {p : Pos} {n : DelayName} {cfg : Panel}

/-! ### A delay, step by step (R123) -/

/-- `s` with the delay `n` under way for `k` ticks: its event has been performed and its lateness drawn. -/
def inDelay (s : State) (n : DelayName) (k : Nat) : State :=
  { emit (.delay n (delayTicks s.cfg n)) (nextInputs s) with
    env := s.env.drawLate.2
    delay := some ⟨n, k, s.env.drawLate.1⟩ }

/-- Out of reset the inputs moving on change nothing of a delay under way. -/
theorem nextInputs_inDelay (hrst : s.rstIn = []) (n : DelayName) (k : Nat) :
    nextInputs (inDelay s n k) = inDelay s n k := by
  simp [inDelay, nextInputs, emit, hrst]

/-- Going to the next step of the sequence leaves the position. -/
theorem nextStage_pc_ne (p : Pos) (s : State) : (nextStage p s).pc ≠ .run p := by
  unfold nextStage
  split
  · obtain ⟨-, -, -, -, hidle, -⟩ := finishOp_complete p.op s
    simp [hidle]
  · next st rest hrest =>
    intro hpc
    have hsame : rest = p.rest := congrArg Pos.rest (Pc.run.inj hpc)
    simp [← hsame] at hrest

/-- A primitive with a delay's name is that delay; what follows it leaves the position, and neither performs
an event nor starts a delay. -/
theorem seqStep_delay (hn : p.next.delayName = some n) :
    ∃ after, seqStep p = delayStep n after ∧
      ∀ t : State, (after t).pc ≠ .run p ∧ (after t).wire = t.wire ∧ (after t).delay = t.delay := by
  have hgo : ∀ q : Pos, q.next ≠ p.next → ∀ t : State,
      (goTo q t).pc ≠ .run p ∧ (goTo q t).wire = t.wire ∧ (goTo q t).delay = t.delay :=
    fun q hq t => ⟨fun hpc => hq (congrArg Pos.next (Pc.run.inj hpc)), rfl, rfl⟩
  cases hnext : p.next <;> rw [hnext] at hn hgo <;> cases hn
  case rstHighSettle =>
    exact ⟨afterPulseDelay .rstLow p, by funext t; simp [seqStep, hnext], hgo _ (by simp)⟩
  case rstLowSettle =>
    exact ⟨afterPulseDelay .rstHighAgain p, by funext t; simp [seqStep, hnext], hgo _ (by simp)⟩
  case refreshSettle =>
    refine ⟨nextStage p, by funext t; simp [seqStep, hnext], fun t => ?_⟩
    obtain ⟨-, -, -, -, -, -, hwire, -, -, -, hdelay, -⟩ := nextStage_frame p t
    exact ⟨nextStage_pc_ne p t, hwire, hdelay⟩
  case pollDelay =>
    exact ⟨goTo { p with next := .sample }, by funext t; simp [seqStep, hnext], hgo _ (by simp)⟩

section
variable {after : State → State} (hb : s.busy = true) (hpc : s.pc = .run p) (hrst : s.rstIn = [])
  (hseq : seqStep p = delayStep n after)
include hb hpc hrst hseq

/-- The first step of a delay performs its event. -/
theorem step_delay_starts (hd : s.delay = none) : step s = .next (inDelay s n 0) := by
  rw [step_seq hb hrst hpc, hseq, delayStep, nextInputs_delay, hd]
  rfl

/-- A step of a running delay is one tick. -/
theorem step_delay_ticks {k : Nat} (hk : k < delayTicks s.cfg n + s.env.drawLate.1) :
    step (inDelay s n k) = .next (inDelay s n (k + 1)) := by
  rw [step_seq (s := inDelay s n k) hb (by simp [inDelay, hrst]) hpc, nextInputs_inDelay hrst, hseq]
  exact congrArg Host.Outcome.next (if_pos hk)

/-- After its duration and its lateness the delay ends, and what follows it is done. -/
theorem step_delay_ends :
    step (inDelay s n (delayTicks s.cfg n + s.env.drawLate.1)) = .next
      (after { inDelay s n (delayTicks s.cfg n + s.env.drawLate.1) with delay := none }) := by
  rw [step_seq (s := inDelay s n _) hb (by simp [inDelay, hrst]) hpc, nextInputs_inDelay hrst, hseq]
  exact congrArg Host.Outcome.next (if_neg (Nat.lt_irrefl _))

/-- After `k + 1` steps the delay has run for `k` ticks. -/
theorem run_inDelay (hd : s.delay = none) {k : Nat}
    (hk : k ≤ delayTicks s.cfg n + s.env.drawLate.1) :
    Host.Core.run Sys2Proof.core (k + 1) s = .next (inDelay s n k) := by
  induction k with
  | zero => exact run_succ (step_delay_starts hb hpc hrst hseq hd)
  | succ k ih =>
    rw [run_add (ih (by omega))]
    exact run_succ (step_delay_ticks hb hpc hrst hseq (by omega))

end

/-- Settles O42: the lateness is the one drawn at the start, and the states in between are `inDelay`. -/
theorem delayLastsAtLeastItsDuration : Obligations.DelayLastsAtLeastItsDuration := by
  unfold Obligations.DelayLastsAtLeastItsDuration
  intro s p n hcoh hpc hn hd hrst
  obtain ⟨hb, -⟩ := pcok_elim hpc ((coherent_iff s).1 hcoh).2
  obtain ⟨after, hseq, hafter⟩ := seqStep_delay hn
  refine ⟨s.env.drawLate.1, fun k hk => ?ticking, ?ended⟩
  case ticking =>
    exact ⟨inDelay s n k, run_inDelay hb hpc hrst hseq hd hk, hpc, hb, rfl, rfl, rfl, rfl⟩
  case ended =>
    obtain ⟨hmoved, hwire, hdelay⟩ := hafter
      { inDelay s n (delayTicks s.cfg n + s.env.drawLate.1) with delay := none }
    have hend := run_succ (n := 0) (step_delay_ends hb hpc hrst hseq)
    exact ⟨_, (run_add (run_inDelay hb hpc hrst hseq hd le_rfl)).trans hend, hmoved, hwire, hdelay⟩

/-! ### The two ends of a wait (R124, R224) -/

/-- Before a sample nothing is under way. -/
theorem clean_of_sample (h : Coherent s) (hpc : s.pc = .run p) (hn : p.next = .sample)
    (hrst : s.rstIn = []) : Clean s := by
  obtain ⟨hbusy, -, hdelay, hflight, -⟩ := pcok_elim hpc ((coherent_iff s).1 h).2
  exact ⟨hbusy, hdelay (by simp [hn, Prim.delayName]), hflight (by simp [hn]), hrst⟩

/-- A wait from its first sample on runs as the pseudocode's poll loop over the coming levels. -/
theorem wait_ends (h : Coherent s) (hpc : s.pc = .run p) (hn : p.next = .sample)
    (hpolls : p.polls = 0#32) (hrst : s.rstIn = []) {ls : List Bit} {es : List Event}
    {halt : Option Halt} (hloop : pollLoop s.cfg p.step 0#32 s.env.levels = (ls, es, halt)) :
    Ends s s p.op p.rest (⟨s.env.answers.map (·.ok), ls, es⟩, halt) := by
  have hends := wait_run s.env.levels p s _ (clean_of_sample h hpc hn hrst) hpc hn (sim_refl s) rfl
  rwa [hpolls, hloop] at hends

/-- A wait moves no pin, whatever it reads. -/
theorem pinAfter_busyPolls (q : Pin) (l : Bit) (k : Nat) :
    pinAfter q l (List.replicate k
      [Event.sample (~~~cfg.busyIdleLevel), Event.delay .poll cfg.tPoll]).flatten = l := by
  induction k with
  | zero => rfl
  | succ k ih => simpa [List.replicate_succ] using ih

/-- Settles O43: the poll loop ends without an error, and what follows it is `nextStage`. -/
theorem waitEndsAtTheFirstIdleSample : Obligations.WaitEndsAtTheFirstIdleSample := by
  unfold Obligations.WaitEndsAtTheFirstIdleSample
  intro s p k hcoh hpc hn hpolls hrst hthru
  obtain ⟨-, -, hbusy, hidle, htime⟩ := hthru
  have hloop := pollLoop_idle s.cfg p.step k 0#32 s.env.levels hbusy hidle (by simpa using htime)
  obtain ⟨u, p', hc, hs, hop, hrest, hreach⟩ := wait_ends hcoh hpc hn hpolls hrst hloop
  obtain ⟨-, hcanvas, -, -, -, henv, hwire, hdc, hcsN, hrstN, -⟩ := nextStage_frame p' u
  refine ⟨_, hreach, hwire.trans hs.wire, ?_, ?_, ?_, ?_, hcanvas.trans hs.same.canvas, ?last, ?more⟩
  · rw [hdc, hs.dc, pinAfter_waitEvents]
  · rw [hcsN, hs.csN, pinAfter_waitEvents]
  · rw [hrstN, hs.rstN, pinAfter_waitEvents]
  · rw [henv, hs.levels]
  case last =>
    intro hnil
    obtain ⟨herr, -, -, -, hidle, hfree, hdone⟩ := finishOp_complete p'.op u
    simp [nextStage, hrest, hnil, herr, hidle, hfree, hdone]
  case more =>
    intro st rest hcons
    simp [nextStage, hrest, hcons, hop, hc.busy, resultRegs, hs.same.pstate, hs.same.err,
      hs.same.lastOp, hs.same.result, hs.same.errStep, hs.same.errByte]

/-- The poll loop over the busy levels that bring the count to the timeout `n`: no delay follows the last
sample. -/
theorem pollLoop_timeout {n : Nat} (ht : cfg.busyTimeoutPolls = some n) (hn : n < 2 ^ 32)
    (st : StepId) : ∀ (k : Nat) (polls : Word) (ls : List Bit), polls.toNat + (k + 1) = n →
      k + 1 ≤ ls.length → (∀ l ∈ ls.take (k + 1), l ≠ cfg.busyIdleLevel) →
      pollLoop cfg st polls ls = (ls.drop (k + 1),
        (List.replicate k [Event.sample (~~~cfg.busyIdleLevel), .delay .poll cfg.tPoll]).flatten
          ++ [.sample (~~~cfg.busyIdleLevel)],
        some (.error .unresponsive st 0#8 0#1 (BitVec.ofNat 32 n))) := by
  intro k
  induction k with
  | zero =>
    intro polls ls hk hlen hbusy
    obtain _ | ⟨l, ls⟩ := ls
    · simp at hlen
    have hl : l ≠ cfg.busyIdleLevel := hbusy l (by simp)
    have hcount : countPoll polls = BitVec.ofNat 32 n := by
      apply BitVec.eq_of_toNat_eq
      rw [countPoll_toNat, BitVec.toNat_ofNat]
      omega
    have hout : timedOut cfg (BitVec.ofNat 32 n) = true := by
      simp only [timedOut, ht, ← hcount, countPoll_toNat, decide_eq_true_eq]
      omega
    simp [pollLoop, hl, hout, hcount, ← not_idle hl]
  | succ k ih =>
    intro polls ls hk hlen hbusy
    obtain _ | ⟨l, ls⟩ := ls
    · simp at hlen
    have hl : l ≠ cfg.busyIdleLevel := hbusy l (by simp)
    have hgoes : timedOut cfg (countPoll polls) = false := by
      simp only [timedOut, ht, countPoll_toNat, decide_eq_false_iff_not]
      omega
    have hrest := ih (countPoll polls) ls (by rw [countPoll_toNat]; omega) (by simpa using hlen)
      fun x hx => hbusy x (by simp [hx])
    simp [pollLoop, hl, hgoes, hrest, List.replicate_succ, ← not_idle hl]

/-- Settles O44: the poll loop ends with the error after `n` samples, R9 having `n` from 1 and below
`2^32`. -/
theorem waitTimesOutAfterNBusySamples : Obligations.WaitTimesOutAfterNBusySamples := by
  unfold Obligations.WaitTimesOutAfterNBusySamples
  intro s p n hcoh hpc hn hpolls hrst ht hlen hbusy
  obtain ⟨-, -, -, -, -, -, -, -, -, hrange⟩ := (panel_wf_iff_configRules s.cfg).1 s.cfg_wf
  obtain ⟨hpos, hle⟩ := hrange n ht
  have hn1 : n - 1 + 1 = n := by omega
  have hloop := pollLoop_timeout ht (by omega) p.step (n - 1) 0#32 s.env.levels (by simpa using hn1)
    (by rwa [hn1]) (by rwa [hn1])
  obtain ⟨u, hc, hs, hreach⟩ := wait_ends hcoh hpc hn hpolls hrst hloop
  refine ⟨_, hreach, rfl, rfl, rfl, rfl, rfl, rfl, rfl, rfl, ?_, ?_, ?_, hs.same.result,
    hs.same.canvas, ?_⟩
  · simp [hs.dc, pinAfter_busyPolls]
  · simp [hs.csN, pinAfter_busyPolls]
  · simp [hs.rstN, pinAfter_busyPolls]
  · simp [hs.wire]

end Sys2Proof.Machine
end

section
/-! Whole operations: the machine runs the pseudocode, and INIT and CLEAR go through
(spec/42_protocol_ops.md R152 to R157). -/

namespace Sys2Proof.Machine

variable {s : State}

/-! ### The machine against the pseudocode -/

/-- Settles O48: `run_pseudocode`, which says of the answers left over more than is asked here. -/
theorem machineRunsThePseudocode : Obligations.MachineRunsThePseudocode := by
  unfold Obligations.MachineRunsThePseudocode
  intro s op r h hq hready hrun hends
  obtain ⟨u, env, hexec, hoks, hlevels, -, hreach⟩ := run_pseudocode hq hready hrun hends
  exact ⟨u, env, hexec, hoks, hlevels, hreach⟩

/-! ### CLEAR (R155) -/

/-- Settles O51: the pseudocode of CLEAR goes through with the white frame, and the machine runs it. -/
theorem clearCompletes : Obligations.ClearCompletes := by
  unfold Obligations.ClearCompletes
  refine ⟨formatNOnly_of rfl fun w hw => by simp [decode, hw], fun s k hq hready hthru => ?_⟩
  have hrun := frame_goesThrough (frame := List.replicate s.cfg.nbytes 0xFF#8)
    List.length_replicate hthru
  obtain ⟨u, env, hexec, hoks, hlevels, hsuffix, hreach⟩ :=
    run_pseudocode (op := .clear) hq (fun _ => hready) hrun (by simp)
  refine ⟨u, env, hexec, answers_eq_drop hsuffix hoks, hlevels, ?_⟩
  simpa [haltState, pstateAfter, hready, pinAfter_frameEvents, pinAfterByte, RunOp.code] using hreach

/-! ### INIT (R153) -/

/-- A piece that goes through, a wait that reads `k` busy levels and the idle one, and another piece that
goes through. -/
theorem thru_around_wait {cfg : Panel} {n m k : Nat} {a b : Piece} {es fs : List Event} {st : StepId}
    (ha : Thru n a es) (hb : Thru m b fs) (r : Script) (hlen : n + m ≤ r.oks.length)
    (hoks : ∀ o ∈ r.oks.take (n + m), o = true)
    (hbusy : ∀ l ∈ r.levels.take k, l ≠ cfg.busyIdleLevel)
    (hidle : r.levels[k]? = some cfg.busyIdleLevel)
    (htime : ∀ n, cfg.busyTimeoutPolls = some n → k < n) :
    (a.andThen (Piece.waitUntilIdle cfg st)).andThen b r = (⟨r.oks.drop (n + m),
      r.levels.drop (k + 1), r.trace ++ (es ++ waitEvents cfg k ++ fs)⟩, none) := by
  rw [List.take_add, List.forall_mem_append] at hoks
  have hwait := thru_then_wait (st := st) ha r (by omega) hoks.1 hbusy hidle htime
  have hlast := hb ⟨r.oks.drop n, r.levels.drop (k + 1), r.trace ++ (es ++ waitEvents cfg k)⟩
    (by rw [List.length_drop]; omega) hoks.2
  rw [Piece.andThen, hwait]
  simpa [List.drop_drop] using hlast

/-- INIT up to its wait. -/
def initBeforeWait (cfg : Panel) : List Piece :=
  [Piece.resetPulse cfg,
    Piece.sendEntry (cfg.ent .powerSetting) .powerSetting 0#8,
    Piece.sendEntry (cfg.ent .boosterSoftStart) .boosterSoftStart 0#8,
    Piece.sendEntries .powerOptimization 0 cfg.powopt,
    Piece.sendEntry (cfg.ent .partialRefreshDisable) .partialRefreshDisable 0#8,
    Piece.sendEntry (cfg.ent .powerOn) .powerOn 0#8]

/-- INIT from its wait on. -/
def initAfterWait (cfg : Panel) : List Piece :=
  [Piece.sendEntry (cfg.ent .panelSetting) .panelSetting 0#8,
    Piece.sendEntry (cfg.ent .pllControl) .pllControl 0#8,
    Piece.sendEntry (cfg.ent .vcomDcSetting) .vcomDcSetting 0#8,
    Piece.sendEntries .lut 0 cfg.lut]

/-- INIT's pseudocode around its wait. -/
theorem init_pieces (cfg : Panel) :
    Piece.init cfg = ((Piece.inOrder (initBeforeWait cfg)).andThen
      (Piece.waitUntilIdle cfg .waitPowerOn)).andThen (Piece.inOrder (initAfterWait cfg)) := by
  rw [andThen_assoc]
  exact inOrder_append (initBeforeWait cfg)
    (Piece.waitUntilIdle cfg .waitPowerOn :: initAfterWait cfg)

/-- How many framed bytes some entries have (R121). -/
def entryBytes (es : List Entry) : Nat := (es.map fun e => 1 + e.data.length).sum

/-- INIT up to its wait goes through. -/
theorem thru_initBeforeWait (cfg : Panel) :
    Thru (entryBytes ([cfg.powerSetting, cfg.boosterSoftStart] ++ cfg.powopt
        ++ [cfg.partialRefreshDisable, cfg.powerOn]))
      (Piece.inOrder (initBeforeWait cfg))
      (resetPulseEvents cfg ++ entryFrames cfg.powerSetting ++ entryFrames cfg.boosterSoftStart
        ++ cfg.powopt.flatMap entryFrames ++ entryFrames cfg.partialRefreshDisable
        ++ entryFrames cfg.powerOn) := by
  have hthru : Thru _ (Piece.inOrder (initBeforeWait cfg)) _ :=
    thru_andThen (thru_events (resetPulseEvents cfg)) <|
    thru_andThen (thru_entry cfg.powerSetting .powerSetting 0#8) <|
    thru_andThen (thru_entry cfg.boosterSoftStart .boosterSoftStart 0#8) <|
    thru_andThen (thru_entries .powerOptimization cfg.powopt 0) <|
    thru_andThen (thru_entry cfg.partialRefreshDisable .partialRefreshDisable 0#8) <|
    thru_andThen (thru_entry cfg.powerOn .powerOn 0#8) thru_skip
  simpa [entryBytes, Nat.add_assoc] using hthru

/-- INIT from its wait on goes through. -/
theorem thru_initAfterWait (cfg : Panel) :
    Thru (entryBytes ([cfg.panelSetting, cfg.pllControl, cfg.vcomDcSetting] ++ cfg.lut))
      (Piece.inOrder (initAfterWait cfg))
      (entryFrames cfg.panelSetting ++ entryFrames cfg.pllControl ++ entryFrames cfg.vcomDcSetting
        ++ cfg.lut.flatMap entryFrames) := by
  have hthru : Thru _ (Piece.inOrder (initAfterWait cfg)) _ :=
    thru_andThen (thru_entry cfg.panelSetting .panelSetting 0#8) <|
    thru_andThen (thru_entry cfg.pllControl .pllControl 0#8) <|
    thru_andThen (thru_entry cfg.vcomDcSetting .vcomDcSetting 0#8) <|
    thru_andThen (thru_entries .lut cfg.lut 0) thru_skip
  simpa [entryBytes, Nat.add_assoc] using hthru

/-- INIT's framed bytes are those before its wait and those after it. -/
theorem initBytes_eq (cfg : Panel) :
    initBytes cfg = entryBytes ([cfg.powerSetting, cfg.boosterSoftStart] ++ cfg.powopt
        ++ [cfg.partialRefreshDisable, cfg.powerOn])
      + entryBytes ([cfg.panelSetting, cfg.pllControl, cfg.vcomDcSetting] ++ cfg.lut) := by
  simp [initBytes, entryBytes]
  omega

/-- INIT's pseudocode in an environment that lets it through; POWER_ON has no data bytes (R9). -/
theorem init_goesThrough {k : Nat} (h : goesThrough s (initBytes s.cfg) k) :
    Piece.init s.cfg ⟨s.env.answers.map (·.ok), s.env.levels, []⟩
      = (⟨(s.env.answers.map (·.ok)).drop (initBytes s.cfg), s.env.levels.drop (k + 1),
          initEvents s.cfg k⟩, none) := by
  obtain ⟨hbytes, hok, hbusy, hidle, htime⟩ := h
  obtain ⟨-, -, hpowerOn, -⟩ := (panel_wf_iff_configRules s.cfg).1 s.cfg_wf
  have hcommand : entryFrames s.cfg.powerOn = cmdFrame s.cfg.powerOn.op := by
    simp [entryFrames, hpowerOn]
  rw [initBytes_eq] at hbytes hok
  rw [init_pieces, thru_around_wait (thru_initBeforeWait s.cfg) (thru_initAfterWait s.cfg) _
    (by simpa using hbytes) (by simpa [← List.map_take] using hok) hbusy hidle htime, ← initBytes_eq]
  simp [initEvents, hcommand]

/-- Of two framed bytes the later one decides DC. -/
@[simp] theorem pinAfterByte_pinAfterByte (p : Pin) (a b l : Bit) :
    pinAfterByte p a (pinAfterByte p b l) = pinAfterByte p a l := by cases p <;> rfl

/-- Entries leave the pins where the last one puts them. -/
theorem pinAfter_entries_concat (p : Pin) (l : Bit) (es : List Entry) (e : Entry) :
    pinAfter p l ((es ++ [e]).flatMap entryFrames) = pinAfterByte p (dcAfterEntry e) l := by
  induction es generalizing l with
  | nil => simp
  | cons d es ih =>
    rw [List.cons_append, List.flatMap_cons, pinAfter_append, pinAfter_entryFrames, ih,
      pinAfterByte_pinAfterByte]

/-- Entries do not move RST_N. -/
@[simp] theorem pinAfter_rstN_entries (l : Bit) (es : List Entry) :
    pinAfter .rstN l (es.flatMap entryFrames) = l := by
  induction es generalizing l with
  | nil => rfl
  | cons e es ih => simpa [pinAfterByte] using ih l

/-- The reset pulse leaves RST_N at 1 (R122). -/
@[simp] theorem pinAfter_rstN_resetPulse (l : Bit) (cfg : Panel) :
    pinAfter .rstN l (resetPulseEvents cfg) = 1#1 := rfl

/-- INIT leaves DC where the last LUT entry puts it, and CS_N and RST_N at 1. -/
theorem pinAfter_initEvents {cfg : Panel} {es : List Entry} {e : Entry} (hlut : cfg.lut = es ++ [e])
    (p : Pin) (l : Bit) (k : Nat) :
    pinAfter p l (initEvents cfg k) = pinAfterByte p (dcAfterEntry e) 1#1 := by
  rw [initEvents, pinAfter_append, hlut, pinAfter_entries_concat]
  cases p
  case rstN => simp [pinAfterByte]
  all_goals rfl

/-- The LUT has five entries, the last of them `lut[4]` (R9). -/
theorem lut_eq_concat {cfg : Panel} (h : cfg.wf = true) :
    ∃ es e, cfg.lut = es ++ [e] ∧ cfg.lut[4]? = some e := by
  obtain ⟨-, -, -, -, -, hfive, -⟩ := (panel_wf_iff_configRules cfg).1 h
  have hlast := List.take_concat_get' cfg.lut 4 (by omega)
  rw [List.take_of_length_le (i := 4 + 1) (by omega)] at hlast
  exact ⟨_, _, hlast.symm, List.getElem?_eq_getElem (by omega)⟩

/-- Settles O50: the pseudocode of INIT goes through, and the machine runs it. -/
theorem initCompletes : Obligations.InitCompletes := by
  unfold Obligations.InitCompletes
  refine ⟨formatNOnly_of rfl fun w hw => by simp [decode, hw], fun s k hq hthru => ?_⟩
  obtain ⟨es, e, hlut, hlast⟩ := lut_eq_concat s.cfg_wf
  obtain ⟨u, env, hexec, hoks, hlevels, hsuffix, hreach⟩ :=
    run_pseudocode (op := .init) hq nofun (init_goesThrough hthru) (by simp)
  refine ⟨u, env, e, hexec, hlast, answers_eq_drop hsuffix hoks, hlevels, ?_⟩
  simpa [haltState, pstateAfter, pinAfter_initEvents hlut, pinAfterByte, RunOp.code] using hreach

end Sys2Proof.Machine
end

section
/-! The protocol operations (spec/42_protocol_ops.md R151 to R160): NOP, RESET and SLEEP, and the way to
Ready. -/

namespace Sys2Proof.Machine

variable {s t : State}

/-! ### NOP (R151) -/

/-- Settles O22: NOP's word is OP alone, and its meaning is the completion of R225. -/
theorem nopCompletes : Obligations.NopCompletes := by
  unfold Obligations.NopCompletes
  exact ⟨formatNOnly_of rfl fun w hw => by simp [decode, hw], fun s => rfl⟩

/-! ### The way to Ready (R158, R160) -/

/-- Out of reset, a step at a position is a step of a busy block. -/
theorem busy_of_step_at {p : Pos} (hr : rstAsserted s = false) (hp : s.pc = .run p)
    (hs : step s = .next t) : s.busy = true := by
  obtain ⟨hr', -⟩ | ⟨-, hb, -⟩ | ⟨-, -, hidle, -⟩ | ⟨-, -, hidle, -⟩ | ⟨-, -, hidle, -⟩ :=
    step_cases hs
  · simp [hr] at hr'
  · exact hb
  all_goals simp [hp] at hidle

/-- INIT is the one operation whose success makes PSTATE Ready. -/
theorem init_of_pstateAfter {was : PState} {op : RunOp} (hwas : was ≠ .ready)
    (h : pstateAfter was op = .ready) : op = .init := by
  cases op
  case init => rfl
  case clear | display => exact absurd h hwas
  case reset | sleep => cases h

/-- Settles O19: PSTATE changes only in block reset, in an abort and in a completion, and of these only the
completion of INIT writes Ready. -/
theorem onlyInitMakesReady : Obligations.OnlyInitMakesReady := by
  unfold Obligations.OnlyInitMakesReady
  intro s t hs hwas hready
  cases hr : rstAsserted s with
  | true =>
    obtain rfl : blockReset (nextInputs s) = t := by simpa [step_rst hr] using hs
    cases hready
  | false =>
    have hne : t.pstate ≠ s.pstate := fun he => hwas (he.symm.trans hready)
    obtain ⟨p, hp, hdone, hok, herr⟩ := pstateChangesOnlyAtAProtocolEnd s t hr hs hne
    have hterr : t.err = .ok := by
      by_contra hterr
      cases hready.symm.trans (herr hterr)
    have hop : p.op = .init := init_of_pstateAfter hwas ((hok hterr).symm.trans hready)
    obtain ⟨-, -, -, -, -, -, hlastOp⟩ :=
      operationInProgressFrame s t p hr (busy_of_step_at hr hp hs) hp hs
    exact ⟨p, hp, hop, hdone, hterr, by rw [hlastOp hdone, hop]; rfl⟩

/-! ### RESET (R152) -/

/-- Settles O49: the pseudocode of RESET is the reset pulse, which draws nothing, and the machine runs it. -/
theorem resetCompletes : Obligations.ResetCompletes := by
  unfold Obligations.ResetCompletes
  refine ⟨formatNOnly_of rfl fun w hw => by simp [decode, hw], fun s hq => ?_⟩
  obtain ⟨u, env, hexec, hoks, hlevels, hsuffix, hreach⟩ :=
    run_pseudocode (op := .reset) hq nofun rfl (by simp)
  exact ⟨u, env, hexec, answers_eq_drop (n := 0) hsuffix hoks, hlevels, hreach⟩

/-! ### SLEEP (R157) -/

/-- The pseudocode of SLEEP in an environment that lets it through. -/
theorem sleep_goesThrough {k : Nat} (h : goesThrough s (sleepBytes s.cfg) k) :
    Piece.sleep s.cfg ⟨s.env.answers.map (·.ok), s.env.levels, []⟩
      = (⟨(s.env.answers.map (·.ok)).drop (sleepBytes s.cfg), s.env.levels.drop (k + 1),
          sleepEvents s.cfg k⟩, none) := by
  obtain ⟨hbytes, hok, hbusy, hidle, htime⟩ := h
  have hrun := thru_around_wait (st := .waitPowerOff) (thru_entry s.cfg.powerOff .powerOff 0#8)
    (thru_entry s.cfg.deepSleep .deepSleep 0#8) ⟨s.env.answers.map (·.ok), s.env.levels, []⟩
    (by simpa [sleepBytes] using hbytes) (by simpa [sleepBytes, ← List.map_take] using hok)
    hbusy hidle htime
  rw [andThen_assoc] at hrun
  simpa [Piece.sleep, Piece.inOrder, andThen_skip, Panel.ent, sleepBytes, sleepEvents] using hrun

/-- SLEEP leaves DC where the deep-sleep entry puts it, CS_N at 1 and RST_N as it was. -/
theorem pinAfter_sleepEvents (p : Pin) (l : Bit) (cfg : Panel) (k : Nat) :
    pinAfter p l (sleepEvents cfg k) = pinAfterByte p (dcAfterEntry cfg.deepSleep) l := by
  simp [sleepEvents]

/-- Deep sleep has a payload byte (R9), so that DC is 1 after it. -/
theorem dcAfterEntry_deepSleep {cfg : Panel} (h : cfg.wf = true) : dcAfterEntry cfg.deepSleep = 1#1 := by
  obtain ⟨-, -, -, hone, -⟩ := (panel_wf_iff_configRules cfg).1 h
  exact if_neg fun hempty => by simp [List.isEmpty_iff.1 hempty] at hone

/-- Settles O53: the pseudocode of SLEEP goes through, and the machine runs it. -/
theorem sleepCompletes : Obligations.SleepCompletes := by
  unfold Obligations.SleepCompletes
  refine ⟨formatNOnly_of rfl fun w hw => by simp [decode, hw], fun s k hq hready hthru => ?_⟩
  obtain ⟨u, env, hexec, hoks, hlevels, hsuffix, hreach⟩ :=
    run_pseudocode (op := .sleep) hq (fun _ => hready) (sleep_goesThrough hthru) (by simp)
  refine ⟨u, env, hexec, answers_eq_drop hsuffix hoks, hlevels, ?_⟩
  simpa [haltState, pstateAfter, pinAfter_sleepEvents, pinAfterByte, dcAfterEntry_deepSleep s.cfg_wf,
    RunOp.code] using hreach

end Sys2Proof.Machine
end

section
/-! The order of the wire events in every run of INIT, CLEAR and DISPLAY that comes to its end
(spec/42_protocol_ops.md R154, R161, R162), over draws that need not let the operation through. -/

namespace Sys2Proof.Machine

variable {s : State} {cfg : Panel} {S : StepId → Prop} {a b : Piece} {E F : Set (List Event)}

/-! ### What a piece of pseudocode performs, over any draws -/

/-- Over any draws the piece adds a list of events to the trace, one in `E` when it goes on, and an error it
raises is of a step in `S`. -/
def Performs (S : StepId → Prop) (a : Piece) (E : Set (List Event)) : Prop :=
  ∀ r, ∃ es, (a r).1.trace = r.trace ++ es ∧ ((a r).2 = none → es ∈ E) ∧
    ∀ c st sub ph idx, (a r).2 = some (.error c st sub ph idx) → S st

/-- Nothing performs no event. -/
theorem performs_skip : Performs S Piece.skip {[]} := fun r => ⟨[], by simp [Piece.skip]⟩

/-- Events that draw nothing. -/
theorem performs_events (es : List Event) : Performs S (Piece.events es) {es} :=
  fun r => ⟨es, by simp [Piece.events]⟩

/-- Of two pieces the second begins where the first goes on, and the events of both stand in order. -/
theorem performs_andThen (ha : Performs S a E) (hb : Performs S b F) :
    Performs S (a.andThen b) (Set.image2 (· ++ ·) E F) := by
  intro r
  obtain ⟨es, htrace, hgoesOn, hstep⟩ := ha r
  rw [Piece.andThen]
  rcases hr : a r with ⟨r', _ | h⟩ <;> rw [hr] at htrace hgoesOn hstep
  · obtain ⟨fs, htrace', hgoesOn', hstep'⟩ := hb r'
    refine ⟨es ++ fs, ?_, fun h => Set.mem_image2_of_mem (hgoesOn rfl) (hgoesOn' h), hstep'⟩
    rw [htrace', htrace, List.append_assoc]
  · exact ⟨es, htrace, nofun, hstep⟩

/-- Two pieces that each perform one list of events. -/
theorem performs_andThen_singleton {es fs : List Event} (ha : Performs S a {es})
    (hb : Performs S b {fs}) : Performs S (a.andThen b) {es ++ fs} := by
  simpa using performs_andThen ha hb

/-- A byte (R120). -/
theorem performs_byte {st : StepId} (hst : S st) (dc : Bit) (b : Byte) (sub : Byte) (idx : Word) :
    Performs S (Piece.sendByte dc b st sub idx)
      {[.pin .dc dc, .pin .csN 0#1, .xfer b true, .pin .csN 1#1]} := by
  intro r
  rw [Piece.sendByte]
  rcases r.oks with _ | ⟨_ | _, oks⟩
  · exact ⟨[], by simp⟩
  · refine ⟨_, rfl, nofun, ?_⟩
    rintro _ _ _ _ _ ⟨⟩
    exact hst
  · exact ⟨_, rfl, fun _ => rfl, nofun⟩

/-- Data bytes (R121). -/
theorem performs_data {st : StepId} (hst : S st) (sub : Byte) (bs : List Byte) (i : Nat) :
    Performs S (Piece.sendData st sub i bs) {bs.flatMap dataFrame} := by
  induction bs generalizing i with
  | nil => exact performs_skip
  | cons b bs ih => exact performs_andThen_singleton (performs_byte hst _ _ _ _) (ih _)

/-- An entry (R121). -/
theorem performs_entry {st : StepId} (hst : S st) (e : Entry) (sub : Byte) :
    Performs S (Piece.sendEntry e st sub) {entryFrames e} :=
  performs_andThen_singleton (performs_byte hst _ _ _ _) (performs_data hst _ _ _)

/-- Entries (R153). -/
theorem performs_entries {st : StepId} (hst : S st) (es : List Entry) (k : Nat) :
    Performs S (Piece.sendEntries st k es) {es.flatMap entryFrames} := by
  induction es generalizing k with
  | nil => exact performs_skip
  | cons e es ih => exact performs_andThen_singleton (performs_entry hst _ _) (ih _)

/-- Samples of the busy level with the poll delay after each, and then a sample of the idle level. -/
def pollsToIdle (cfg : Panel) : Set (List Event) :=
  {es | ∃ w, onlyBusyPolls cfg w ∧ es = w ++ [.sample cfg.busyIdleLevel]}

/-- A busy sample and its poll delay may come before the polls of a wait. -/
theorem busyPoll_mem_pollsToIdle {l : Bit} {es : List Event} (hl : l ≠ cfg.busyIdleLevel)
    (hes : es ∈ pollsToIdle cfg) :
    .sample l :: .delay .poll cfg.tPoll :: es ∈ pollsToIdle cfg := by
  obtain ⟨w, hw, rfl⟩ := hes
  have hsample : Event.sample l = .sample (~~~cfg.busyIdleLevel) := by rw [not_idle hl]
  exact ⟨.sample l :: .delay .poll cfg.tPoll :: w,
    List.forall_mem_cons.2 ⟨.inl hsample, List.forall_mem_cons.2 ⟨.inr rfl, hw⟩⟩, rfl⟩

/-- The poll loop goes on at an idle sample alone, and an error is of its own step (R124). -/
theorem pollLoop_outcome (cfg : Panel) (st : StepId) (polls : Word) (ls : List Bit) :
    ((pollLoop cfg st polls ls).2.2 = none → (pollLoop cfg st polls ls).2.1 ∈ pollsToIdle cfg) ∧
    ∀ c st' sub ph idx, (pollLoop cfg st polls ls).2.2 = some (.error c st' sub ph idx) → st' = st := by
  induction ls generalizing polls with
  | nil => simp [pollLoop]
  | cons l ls ih =>
    obtain ⟨hidle, herr⟩ := ih (countPoll polls)
    rw [pollLoop]
    split
    · next hl => exact ⟨fun _ => ⟨[], by simp [onlyBusyPolls], by simp [hl]⟩, nofun⟩
    · next hl =>
      split
      · exact ⟨nofun, by simp +contextual⟩
      · exact ⟨fun h => busyPoll_mem_pollsToIdle hl (hidle h), herr⟩

/-- A wait (R124). -/
theorem performs_wait {st : StepId} (hst : S st) (cfg : Panel) :
    Performs S (Piece.waitUntilIdle cfg st) (pollsToIdle cfg) := by
  intro r
  obtain ⟨hidle, herr⟩ := pollLoop_outcome cfg st 0#32 r.levels
  exact ⟨_, rfl, hidle, fun c st' sub ph idx h => herr c st' sub ph idx h ▸ hst⟩

/-- A state in which an operation has ended carries `done` and the operation's events (R36, R56). -/
theorem haltState_done_wire {h : Option Halt} (hends : h ≠ some .noMoreDraws) (s : State) (op : RunOp)
    (es : List Event) (env : Env) :
    (haltState s op es env h).done = true ∧ (haltState s op es env h).wire = s.wire ++ es := by
  match h, hends with
  | none, _ => exact ⟨rfl, rfl⟩
  | some (.error ..), _ => exact ⟨rfl, rfl⟩

/-! ### INIT (R154) -/

/-- INIT's entries between its wait and the LUT. -/
def initBeforeLut (cfg : Panel) : List Piece :=
  [Piece.sendEntry (cfg.ent .panelSetting) .panelSetting 0#8,
    Piece.sendEntry (cfg.ent .pllControl) .pllControl 0#8,
    Piece.sendEntry (cfg.ent .vcomDcSetting) .vcomDcSetting 0#8]

/-- INIT up to the LUT. -/
def initToLut (cfg : Panel) : Piece :=
  ((Piece.inOrder (initBeforeWait cfg)).andThen (Piece.waitUntilIdle cfg .waitPowerOn)).andThen
    (Piece.inOrder (initBeforeLut cfg))

/-- INIT's pseudocode around the point before the LUT. -/
theorem init_eq_toLut_andThen (cfg : Panel) :
    Piece.init cfg = (initToLut cfg).andThen (Piece.sendEntries .lut 0 cfg.lut) := by
  rw [init_pieces, initToLut, andThen_assoc _ (Piece.inOrder (initBeforeLut cfg))]
  congr 1
  simp only [initAfterWait, initBeforeLut, Piece.inOrder, andThen_assoc, andThen_skip]

/-- POWER_ON has no data bytes (R9). -/
theorem entryFrames_powerOn (h : cfg.wf = true) : entryFrames cfg.powerOn = cmdFrame cfg.powerOn.op := by
  obtain ⟨-, -, hpowerOn, -⟩ := (panel_wf_iff_configRules cfg).1 h
  simp [entryFrames, hpowerOn]

/-- INIT's events up to its POWER_ON command (R153). -/
def powerOnEvents (cfg : Panel) : List Event :=
  resetPulseEvents cfg
    ++ entryFrames cfg.powerSetting ++ entryFrames cfg.boosterSoftStart
    ++ cfg.powopt.flatMap entryFrames
    ++ entryFrames cfg.partialRefreshDisable ++ cmdFrame cfg.powerOn.op

/-- INIT up to its wait raises no error at the LUT. -/
theorem performs_initBeforeWait (h : cfg.wf = true) :
    Performs (· ≠ .lut) (Piece.inOrder (initBeforeWait cfg)) {powerOnEvents cfg} := by
  have hperf : Performs (· ≠ .lut) (Piece.inOrder (initBeforeWait cfg)) _ :=
    performs_andThen_singleton (performs_events (resetPulseEvents cfg)) <|
    performs_andThen_singleton (performs_entry nofun cfg.powerSetting 0#8) <|
    performs_andThen_singleton (performs_entry nofun cfg.boosterSoftStart 0#8) <|
    performs_andThen_singleton (performs_entries nofun cfg.powopt 0) <|
    performs_andThen_singleton (performs_entry nofun cfg.partialRefreshDisable 0#8) <|
    performs_andThen_singleton (performs_entry nofun cfg.powerOn 0#8) performs_skip
  simpa [powerOnEvents, entryFrames_powerOn h] using hperf

/-- INIT's entries before the LUT raise no error at the LUT. -/
theorem performs_initBeforeLut (cfg : Panel) :
    Performs (· ≠ .lut) (Piece.inOrder (initBeforeLut cfg)) {entryFrames cfg.panelSetting
      ++ entryFrames cfg.pllControl ++ entryFrames cfg.vcomDcSetting} := by
  have hperf : Performs (· ≠ .lut) (Piece.inOrder (initBeforeLut cfg)) _ :=
    performs_andThen_singleton (performs_entry nofun cfg.panelSetting 0#8) <|
    performs_andThen_singleton (performs_entry nofun cfg.pllControl 0#8) <|
    performs_andThen_singleton (performs_entry nofun cfg.vcomDcSetting 0#8) performs_skip
  simpa using hperf

/-- INIT up to the LUT performs the POWER_ON command, waits to the idle sample, and sends the three
entries; it raises no error at the LUT. -/
theorem performs_initToLut (h : cfg.wf = true) :
    Performs (· ≠ .lut) (initToLut cfg) (Set.image2 (· ++ ·)
      (Set.image2 (· ++ ·) {powerOnEvents cfg} (pollsToIdle cfg))
      {entryFrames cfg.panelSetting ++ entryFrames cfg.pllControl ++ entryFrames cfg.vcomDcSetting}) :=
  performs_andThen (performs_andThen (performs_initBeforeWait h) (performs_wait nofun cfg))
    (performs_initBeforeLut cfg)

/-- The trace of an INIT that completes or aborts at a LUT byte has gone through all that comes before the
LUT. -/
theorem init_trace (h : cfg.wf = true) {r r' : Script} {x : Option Halt}
    (hrun : Piece.init cfg r = (r', x))
    (hend : x = none ∨ ∃ sub ph idx, x = some (.error .transport .lut sub ph idx)) :
    ∃ w rest, onlyBusyPolls cfg w ∧ r'.trace = r.trace ++ (powerOnEvents cfg
      ++ (w ++ [.sample cfg.busyIdleLevel]) ++ (entryFrames cfg.panelSetting
        ++ entryFrames cfg.pllControl ++ entryFrames cfg.vcomDcSetting)) ++ rest := by
  obtain ⟨es, htrace, hgoesOn, hstep⟩ := performs_initToLut h r
  rw [init_eq_toLut_andThen, Piece.andThen] at hrun
  rcases hr : initToLut cfg r with ⟨m, _ | e⟩ <;> rw [hr] at hrun htrace hgoesOn hstep
  · obtain ⟨-, ⟨-, rfl, -, ⟨w, hw, rfl⟩, rfl⟩, -, rfl, rfl⟩ := hgoesOn rfl
    obtain ⟨rest, hrest, -⟩ := performs_entries (S := (· = .lut)) rfl cfg.lut 0 m
    dsimp only at hrun
    rw [hrun, htrace] at hrest
    exact ⟨w, rest, hw, hrest⟩
  · cases hrun
    obtain hnone | ⟨sub, ph, idx, herr⟩ := hend
    · cases hnone
    · exact absurd rfl (hstep _ _ _ _ _ herr)

/-- Settles O54: the run has gone through all that comes before the LUT (`init_trace`), and the machine
performs the pseudocode's events. -/
theorem initPowersOnBeforeAnyLut : Obligations.InitPowersOnBeforeAnyLut := by
  unfold Obligations.InitPowersOnBeforeAnyLut
  intro s r h hq hrun hend
  have hdraws : h ≠ some .noMoreDraws := by
    obtain rfl | ⟨sub, ph, idx, rfl⟩ := hend <;> simp
  obtain ⟨u, env, hexec, -, -, -, hreach⟩ := run_pseudocode (op := .init) hq nofun hrun hdraws
  obtain ⟨w, rest, hw, htrace⟩ := init_trace s.cfg_wf hrun hend
  obtain ⟨hdone, hwire⟩ := haltState_done_wire hdraws s .init r.trace env
  refine ⟨u, _, w, rest, hexec, hreach, hdone, hw, ?_⟩
  rw [hwire, htrace]
  simp [powerOnEvents]

/-! ### CLEAR and DISPLAY (R162) -/

/-- The bytes CLEAR and DISPLAY send as their frame (R155, R156). -/
def frameOf (s : State) (op : RunOp) : List Byte :=
  if op = .clear then List.replicate s.cfg.nbytes 0xFF#8 else pack s.cfg s.canvas

/-- CLEAR and DISPLAY load their frame and turn the display on. -/
theorem pseudocode_frameOf {op : RunOp} (hop : op = .clear ∨ op = .display) :
    pseudocode s.cfg s.canvas op
      = Piece.inOrder [Piece.dataLoad s.cfg (frameOf s op), Piece.turnOnDisplay s.cfg] := by
  obtain rfl | rfl := hop <;> rfl

/-- A frame load and its refresh: the frame, the refresh command, the settle delay, and a wait to the idle
sample. -/
theorem performs_frame (cfg : Panel) (frame : List Byte) :
    Performs (fun _ => True)
      (Piece.inOrder [Piece.dataLoad cfg frame, Piece.turnOnDisplay cfg])
      (Set.image2 (· ++ ·) {cmdFrame cfg.startTransmission.op ++ frame.flatMap dataFrame
        ++ (entryFrames cfg.displayRefresh ++ [.delay .refreshSettle cfg.tRefreshSettle])}
        (pollsToIdle cfg)) := by
  rw [frame_pieces]
  refine performs_andThen (performs_andThen_singleton ?load ?refresh) (performs_wait trivial cfg)
  case load =>
    exact performs_andThen_singleton (performs_byte trivial _ _ _ _) (performs_data trivial _ _ _)
  case refresh =>
    exact performs_andThen_singleton (performs_entry trivial _ _) (performs_events _)

/-- Settles O55: a frame load that goes on has waited to the idle sample (`performs_frame`), and the machine
performs the pseudocode's events. -/
theorem refreshFollowsEveryFrame : Obligations.RefreshFollowsEveryFrame := by
  unfold Obligations.RefreshFollowsEveryFrame
  intro s op r hq hready hop hrun
  obtain ⟨u, env, hexec, -, -, -, hreach⟩ := run_pseudocode hq (fun _ => hready) hrun (by simp)
  obtain ⟨es, htrace, hgoesOn, -⟩ := performs_frame s.cfg (frameOf s op)
    ⟨s.env.answers.map (·.ok), s.env.levels, []⟩
  rw [← pseudocode_frameOf hop, hrun] at htrace hgoesOn
  obtain ⟨-, rfl, -, ⟨w, hw, rfl⟩, rfl⟩ := hgoesOn rfl
  refine ⟨u, _, w, frameOf s op, hexec, hreach, rfl, rfl, hw, rfl, ?_⟩
  obtain ⟨-, hwire⟩ := haltState_done_wire (h := none) nofun s op r.trace env
  rw [hwire, htrace]
  simp

/-! ### Two CLEARs (R161) -/

/-- The bytes of two lists of events. -/
@[simp] theorem xfersOf_append (es fs : List Event) : xfersOf (es ++ fs) = xfersOf es ++ xfersOf fs :=
  List.filterMap_append

/-- A delay hands no byte to the transport. -/
@[simp] theorem xfersOf_delay (n : DelayName) (ticks : Nat) (es : List Event) :
    xfersOf (.delay n ticks :: es) = xfersOf es := rfl

/-- A sample hands no byte to the transport. -/
@[simp] theorem xfersOf_sample (l : Bit) (es : List Event) : xfersOf (.sample l :: es) = xfersOf es := rfl

/-- A wait hands no byte to the transport (R124). -/
@[simp] theorem xfersOf_waitEvents (cfg : Panel) (k : Nat) : xfersOf (waitEvents cfg k) = [] := by
  induction k with
  | zero => rfl
  | succ k ih => simpa only [waitEvents, List.replicate_succ, List.flatten_cons, List.cons_append,
      List.nil_append, xfersOf_sample, xfersOf_delay] using ih

/-- The bytes of a frame and its refresh do not depend on what the wait reads. -/
theorem xfersOf_frameEvents (cfg : Panel) (frame : List Byte) (k k' : Nat) :
    xfersOf (frameEvents cfg frame k) = xfersOf (frameEvents cfg frame k') := by
  simp [frameEvents]

/-- Settles O56: each CLEAR performs the events `ClearCompletes` gives it, in which the canvas does not
occur. -/
theorem clearIsIdempotentOnTheWire : Obligations.ClearIsIdempotentOnTheWire := by
  unfold Obligations.ClearIsIdempotentOnTheWire
  intro s s' k k' hcfg hq hq' hready hready' hthru hthru'
  rw [← hcfg] at hthru'
  obtain ⟨u, env, hexec, -, -, hreach⟩ := clearCompletes.2 s k hq hready hthru
  obtain ⟨u', env', hexec', -, -, hreach'⟩ := clearCompletes.2 s' k' hq' hready' hthru'
  rw [hcfg] at hreach'
  exact ⟨u, _, _, u', _, _, hexec, hreach, rfl, rfl, hexec', hreach', rfl, rfl,
    xfersOf_frameEvents .., fun hk => by rw [hk]⟩

end Sys2Proof.Machine
end

section
/-! The bitpacker (spec/43_bitpacker.md R190 to R195, R198). A packed byte is one row's byte at one byte
column (`rowByte`); the accumulator writes these bytes row by row. -/

namespace Sys2Proof.Machine

open BitVec

variable {p : Panel}

/-! ### Line width (R190) -/

/-- The line width when whole bytes fill the row. -/
theorem lineWidth_eq_div (h : p.width % 8 = 0) : p.lineWidth = p.width / 8 := by
  unfold Panel.lineWidth; omega

/-- The line width when the row's last byte is partial. -/
theorem lineWidth_eq_div_succ (h : p.width % 8 ≠ 0) : p.lineWidth = p.width / 8 + 1 := by
  unfold Panel.lineWidth; omega

/-- The ceiling lies less than one byte above the width. -/
theorem lineWidth_bounds (p : Panel) : p.width ≤ 8 * p.lineWidth ∧ 8 * p.lineWidth < p.width + 8 := by
  unfold Panel.lineWidth; omega

/-- Settles O29: the ceiling's two bounds and the ranges of R9 (`panel_wf_iff_configRules`). -/
theorem lineWidthAndBufferLength : Obligations.LineWidthAndBufferLength := by
  unfold Obligations.LineWidthAndBufferLength
  intro p m
  obtain ⟨hlow, hhigh⟩ := lineWidth_bounds p
  refine ⟨hlow, hhigh, pack_length p m, ?ranges⟩
  case ranges =>
    intro hwf
    obtain ⟨⟨hw, hw'⟩, ⟨-, hh⟩, -⟩ := (panel_wf_iff_configRules p).1 hwf
    have hmax : p.lineWidth ≤ 512 := by omega
    have hbytes : p.nbytes ≤ 512 * 4096 := Nat.mul_le_mul hmax hh
    exact ⟨by omega, hmax, hbytes⟩

/-! ### The byte of a row (R192, R193) -/

/-- The byte of byte column `b` of row `r`. -/
def rowByte (p : Panel) (m : Memory) (r b : Nat) : Byte := byteOfBits fun k => rowBit p m r (8 * b + k)

/-- `PackedByte` splits its address into a row and a byte column (R192). -/
theorem packedByte_eq_rowByte (p : Panel) (m : Memory) (a : Nat) :
    packedByte p m a = rowByte p m (a / p.lineWidth) (a % p.lineWidth) := rfl

/-- Byte column `b` of row `r` has the address `LW * r + b`. -/
theorem packedByte_at (m : Memory) (r : Nat) {b : Nat} (hb : b < p.lineWidth) :
    packedByte p m (p.lineWidth * r + b) = rowByte p m r b := by
  rw [packedByte_eq_rowByte, Nat.mul_add_div (by omega), Nat.mul_add_mod, Nat.div_eq_of_lt hb,
    Nat.mod_eq_of_lt hb, Nat.add_zero]

/-- Bit `7 - k` of a row's byte is its `k`-th pixel from the left (R193). -/
theorem rowByte_bit (m : Memory) (r b : Nat) {k : Nat} (hk : k < 8) :
    (rowByte p m r b).extractLsb' (7 - k) 1 = rowBit p m r (8 * b + k) :=
  byteOfBits_bit (fun k => rowBit p m r (8 * b + k)) hk

/-- The same bit as a Boolean, counted from the low end. -/
theorem rowByte_getLsbD (m : Memory) (r b : Nat) {i : Nat} (hi : i < 8) :
    (rowByte p m r b).getLsbD i = (rowBit p m r (8 * b + (7 - i))).getLsbD 0 := by
  rw [← rowByte_bit m r b (by omega : 7 - i < 8), getLsbD_extractLsb']
  simp [show 7 - (7 - i) = i by omega]

/-- On the canvas a row's bit is the pixel (R191). -/
theorem rowBit_pixel (m : Memory) (r : Nat) {x : Nat} (hx : x < p.width) :
    rowBit p m r x = canvasRead p m x r := if_pos hx

/-- Beyond the row's end it is white (R194). -/
theorem rowBit_padding (m : Memory) (r : Nat) {x : Nat} (hx : p.width ≤ x) :
    rowBit p m r x = 1#1 := if_neg (by omega)

/-- Settles O30: the packed byte is its row's byte, and `rowBit` is the statement's `if`. -/
theorem packedByteBits : Obligations.PackedByteBits := by
  unfold Obligations.PackedByteBits
  intro p m a k _ hk
  exact rowByte_bit m _ _ hk

/-- Settles O31: bit `j` of the last byte is column `8 * (LW - 1) + (7 - j)`, which is past the row's end. -/
theorem paddingIsWhite : Obligations.PaddingIsWhite := by
  unfold Obligations.PaddingIsWhite
  intro p m r j _ hn hj
  have hlw := lineWidth_eq_div_succ hn
  refine ⟨?white, by omega⟩
  case white =>
    have hbit := rowByte_bit (p := p) m r (p.lineWidth - 1) (by omega : 7 - j < 8)
    rw [show 7 - (7 - j) = j by omega, rowBit_padding m r (by omega)] at hbit
    rwa [Nat.mul_comm r, packedByte_at m r (by omega)]

/-- Settles O32: `rowBit` reads the canvas in its own row below `W` alone. -/
theorem rowsPackIndependently : Obligations.RowsPackIndependently := by
  unfold Obligations.RowsPackIndependently
  intro p m m' a hrow
  refine congrArg byteOfBits (funext fun k => ?_)
  rcases Nat.lt_or_ge (8 * (a % p.lineWidth) + k) p.width with hx | hx
  · rw [rowBit_pixel m _ hx, rowBit_pixel m' _ hx, hrow _ hx]
  · rw [rowBit_padding m _ hx, rowBit_padding m' _ hx]

/-! ### The accumulator (R198) -/

/-- `0xFF >> n` has ones in its low `8 - n` bits. -/
theorem onesShifted_getLsbD (n i : Nat) : (0xFF#8 >>> n).getLsbD i = decide (n + i < 8) := by
  rw [show 0xFF#8 = allOnes 8 from rfl, getLsbD_ushiftRight, getLsbD_allOnes]

/-- The accumulator holds the last eight pixels, the newest in bit 0, with the initial ones above. -/
theorem rowAcc_getLsbD (p : Panel) (m : Memory) (r x : Nat) {i : Nat} (hi : i < 8) :
    (rowAcc p m r x).getLsbD i =
      if i < x then (canvasRead p m (x - 1 - i) r).getLsbD 0 else true := by
  induction x generalizing i with
  | zero =>
    rw [rowAcc, if_neg (Nat.not_lt_zero i), show 0xFF#8 = allOnes 8 from rfl, getLsbD_allOnes,
      decide_eq_true hi]
  | succ x ih =>
    cases i with
    | zero => simp [rowAcc]
    | succ i =>
      have hshift : (rowAcc p m r (x + 1)).getLsbD (i + 1) = (rowAcc p m r x).getLsbD i := by
        simp [rowAcc, hi, getLsbD_eq_getElem (by omega : i < 8)]
      rw [hshift, ih (by omega), show x + 1 - 1 - (i + 1) = x - 1 - i by omega]
      simp only [Nat.add_lt_add_iff_right]

/-- After a row's pixels up to the end of byte column `b` the accumulator is that byte. -/
theorem rowAcc_fullByte (m : Memory) (r : Nat) {b : Nat} (hb : 8 * b + 8 ≤ p.width) :
    rowAcc p m r (8 * b + 8) = rowByte p m r b := by
  refine eq_of_getLsbD_eq fun i hi => ?_
  rw [rowAcc_getLsbD p m r _ hi, if_pos (by omega), rowByte_getLsbD m r b hi,
    rowBit_pixel m r (by omega), show 8 * b + 8 - 1 - i = 8 * b + (7 - i) by omega]

/-- The flush of the partial last byte: its pixels move to the top and ones fill the rest (R194). -/
theorem rowAcc_flush (m : Memory) (r : Nat) :
    (rowAcc p m r p.width <<< (8 - p.width % 8)) ||| (0xFF#8 >>> (p.width % 8)) =
      rowByte p m r (p.width / 8) := by
  refine eq_of_getLsbD_eq fun i hi => ?_
  rw [getLsbD_or, getLsbD_shiftLeft, onesShifted_getLsbD, rowByte_getLsbD m r _ hi]
  rcases Nat.lt_or_ge i (8 - p.width % 8) with hpad | hpix
  · rw [rowBit_padding m r (by omega)]
    simp [show p.width % 8 + i < 8 by omega]
  · rw [rowAcc_getLsbD p m r _ (by omega), if_pos (by omega), rowBit_pixel m r (by omega),
      show p.width - 1 - (i - (8 - p.width % 8)) = 8 * (p.width / 8) + (7 - i) by omega]
    simp [hi, show ¬ i < 8 - p.width % 8 by omega, show ¬ p.width % 8 + i < 8 by omega]

/-- The loop has written a byte for each eight pixels. -/
theorem rowFullBytes_eq (m : Memory) (r : Nat) {x : Nat} (hx : x ≤ p.width) :
    rowFullBytes p m r x = (List.range (x / 8)).map (rowByte p m r) := by
  induction x with
  | zero => rfl
  | succ x ih =>
    rw [rowFullBytes, ih (by omega)]
    split
    case isTrue hlast =>
      have hbyte : rowAcc p m r (x + 1) = rowByte p m r (x / 8) := by
        rw [← rowAcc_fullByte m r (by omega), show 8 * (x / 8) + 8 = x + 1 by omega]
      rw [hbyte, show (x + 1) / 8 = x / 8 + 1 by omega, List.range_succ, List.map_append,
        List.map_singleton]
    case isFalse hmid => rw [show (x + 1) / 8 = x / 8 by omega]

/-- `PackRow(r)` writes the bytes of row `r` from left to right. -/
theorem packRowAcc_eq (p : Panel) (m : Memory) (r : Nat) :
    packRowAcc p m r = (List.range p.lineWidth).map (rowByte p m r) := by
  rw [packRowAcc, rowFullBytes_eq m r le_rfl]
  split
  case isTrue hn => rw [lineWidth_eq_div hn]
  case isFalse hn =>
    rw [rowAcc_flush m r, lineWidth_eq_div_succ hn, List.range_succ, List.map_append,
      List.map_singleton]

/-- The packed bytes of the first `h` rows are these rows one after another. -/
theorem map_packedByte_rows (p : Panel) (m : Memory) (h : Nat) :
    (List.range (p.lineWidth * h)).map (packedByte p m) =
      ((List.range h).map fun r => (List.range p.lineWidth).map (rowByte p m r)).flatten := by
  induction h with
  | zero => rfl
  | succ h ih =>
    have hrow : ((List.range p.lineWidth).map (p.lineWidth * h + ·)).map (packedByte p m) =
        (List.range p.lineWidth).map (rowByte p m h) := by
      rw [List.map_map]
      exact List.map_congr_left fun b hb => packedByte_at m h (List.mem_range.1 hb)
    rw [Nat.mul_succ, List.range_add, List.map_append, ih, hrow, List.range_succ, List.map_append,
      List.flatten_append, List.map_singleton, List.flatten_singleton]

/-- Settles O33: both forms are the rows' bytes, row after row. -/
theorem accumulatorPacksTheSameBytes : Obligations.AccumulatorPacksTheSameBytes := by
  unfold Obligations.AccumulatorPacksTheSameBytes
  intro p m _
  rw [funext (packRowAcc_eq p m), pack, Panel.nbytes, map_packedByte_rows]

end Sys2Proof.Machine
end

section
/-! The exceptions (spec/60_exceptions.md R220 to R236): completions with an error, what stands after
every end, the abort, and the wait that never ends. -/

namespace Sys2Proof.Machine

variable {s t u v : State} {p : Pos}

/-! ### Completions with an error (R221, R222, R227) -/

/-- Settles O10: an illegal word is one that does not decode, and BUSY and `pc` already are what the
completion writes. -/
theorem illegalWordCompletesWithErrIllegal : Obligations.IllegalWordCompletesWithErrIllegal := by
  unfold Obligations.IllegalWordCompletesWithErrIllegal
  intro s w q hr hb hp hq hill
  obtain ⟨e, hdec⟩ := (decodeRefusesExactlyIllegalWords w).2 hill
  rw [step_accept hr hb hp hq, onAccept, hdec]
  simp [completeIllegal, complete, acceptWord, nextInputs, opField, hb, hp, hq]

/-- Settles O27: each of the three meanings takes its ERR_STATE branch. -/
theorem notReadyCompletesWithErrState : Obligations.NotReadyCompletesWithErrState := by
  unfold Obligations.NotReadyCompletesWithErrState
  intro s op hneeds hnot
  cases op
  case reset | init => cases hneeds
  case clear | display | sleep => exact congrArg Host.Outcome.next (if_neg hnot)

/-- A byte widened to a word has 0 in bits 31:8 (R29). -/
theorem byte_setWidth_word (b : Byte) : b.setWidth 32 = 0#24 ++ b :=
  BitVec.setWidth_eq_append (by decide)

/-- Settles O26: the two branches of `pkrd`. -/
theorem pkrdReadsOnePackedByte : Obligations.PkrdReadsOnePackedByte := by
  unfold Obligations.PkrdReadsOnePackedByte
  refine fun s a => ⟨fun hlt => ?inRange, fun hge => ?outOfRange⟩
  case inRange =>
    rw [← byte_setWidth_word]
    exact congrArg Host.Outcome.next (if_pos hlt)
  case outOfRange => exact congrArg Host.Outcome.next (if_neg (Nat.not_lt.2 hge))

/-! ### Idle coherent states (R230, R236) -/

/-- In a coherent state BUSY = 0 means that `pc` is IDLE (R21). -/
theorem pc_idle_of_coherent (h : Coherent s) (hb : s.busy = false) : s.pc = .idle := by
  cases hp : s.pc with
  | idle => rfl
  | run p => simpa [hb, hp, Pc.isRun] using h.busy_pc

/-- In a coherent idle state no delay and no transfer is under way (R33). -/
theorem nothingUnderWay_of_idle (h : Coherent s) (hp : s.pc = .idle) :
    s.delay = none ∧ s.inFlight = none := by
  simpa [waitingLegal, hp] using h.waiting

/-- In a coherent idle state that is Ready or Sleeping the panel is out of reset (R122). -/
theorem rstN_of_idle (h : Coherent s) (hp : s.pc = .idle) (hps : s.pstate ≠ .uninitialized) :
    s.rstN = 1#1 := by
  have hpins : s.rstN = 1#1 ∧ s.csN = 1#1 := by simpa [pinsLegal, hp, hps] using h.pins
  exact hpins.1

/-- A step that asserts `done` leaves the block not busy. -/
theorem not_busy_of_done (hs : step s = .next t) (hd : t.done = true) : t.busy = false := by
  cases hr : rstAsserted s with
  | true =>
    obtain rfl : blockReset (nextInputs s) = t := by simpa [step_rst hr] using hs
    rfl
  | false => exact ((doneMarksTheEndOfAnOperation s t hr hs).1 hd).1

/-- Settles O14: the state after the end is coherent and not busy, so it is idle with nothing under
way. -/
theorem portReadyAfterEveryEnd : Obligations.PortReadyAfterEveryEnd := by
  unfold Obligations.PortReadyAfterEveryEnd
  intro s t hcoh hs hd
  have hcoh' := coherent_step hcoh hs
  have hb := not_busy_of_done hs hd
  have hidle := pc_idle_of_coherent hcoh' hb
  exact ⟨by simp [cmdReady, hb], hidle, nothingUnderWay_of_idle hcoh' hidle⟩

/-- Settles O21: idle in Ready or Sleeping RST_N is 1, so PSTATE alone tells the condition. -/
theorem panelConditionTracksPstate : Obligations.PanelConditionTracksPstate := by
  unfold Obligations.PanelConditionTracksPstate
  refine ⟨fun c => rfl, fun s hcoh hb hps => ?ready, fun s hcoh hb hps => ?sleeping⟩
  case ready | sleeping =>
    have hrst := rstN_of_idle hcoh (pc_idle_of_coherent hcoh hb) (by simp [hps])
    simp [panelCondition, hrst, hps]

/-! ### The abort (R226) -/

/-- Outside the reset pulse's primitives RST_N is 1 (R122). -/
theorem rstN_of_primKind (h : Coherent s) (hp : s.pc = .run p) (hk : primKind p.next ≠ .pulse) :
    s.rstN = 1#1 := by
  obtain ⟨-, hlegal, -, -, hrst, -⟩ := pcok_elim hp ((coherent_iff s).1 h).2
  refine hrst fun hstep => hk ?_
  have hkind := legal_kind hlegal
  rw [hstep] at hkind
  exact (Option.some.inj hkind).symm

/-- Settles O46: the abort is one of the two of `seqStep_err`, and neither writes a pin but the CS_N
rise of the failed transfer. -/
theorem abortIsPrecise : Obligations.AbortIsPrecise := by
  unfold Obligations.AbortIsPrecise
  intro s t p hcoh hr hp hs hd herr
  obtain ⟨hb, -, -, -, -, -, -, -, -, hcsN, -⟩ := pcok_elim hp ((coherent_iff s).1 hcoh).2
  obtain rfl : seqStep p (nextInputs s) = t := by simpa [step_busy hr hb hp] using hs
  obtain ⟨hn, ht⟩ | ⟨hn, hbusy, ht⟩ := seqStep_err p (nextInputs s) hd rfl herr
  case inl =>
    have hrst := rstN_of_primKind hcoh hp (by simp [hn, primKind])
    simp [ht, hn, hrst]
  case inr =>
    have hrst := rstN_of_primKind hcoh hp (by simp [hn, primKind])
    have hlevel : s.env.drawLevel.1 = ~~~s.cfg.busyIdleLevel := not_idle hbusy
    simp [ht, hn, hrst, hcsN, hlevel]

/-! ### A wait that reads busy levels alone (R124, R235) -/

/-- Drawing a delay's lateness leaves the coming BUSY levels. -/
theorem drawLate_levels (e : Env) : e.drawLate.2.levels = e.levels := by
  unfold Env.drawLate
  split <;> rfl

/-- The operation of position `p` in `s` is still in the same step, and the port holds what it
held. -/
structure StillIn (s : State) (p : Pos) (v : State) : Prop where
  busy : v.busy = true
  pos : ∃ q, v.pc = .run q ∧ q.op = p.op ∧ q.step = p.step
  cmdQueue : v.cmdQueue = s.cmdQueue

/-- `n` steps lead from `s` to `u`, each into a state of which `P` holds with `done` low. -/
def StepsWithin (P : State → Prop) (n : Nat) (s u : State) : Prop :=
  Host.Core.run Sys2Proof.core n s = .next u ∧
    ∀ j, 1 ≤ j → j ≤ n → ∃ v, Host.Core.run Sys2Proof.core j s = .next v ∧ P v ∧ v.done = false

section
variable {P : State → Prop} {n m : Nat}

/-- No step. -/
theorem StepsWithin.refl (s : State) : StepsWithin P 0 s s :=
  ⟨rfl, fun j hj hj' => by omega⟩

/-- One step. -/
theorem StepsWithin.one (h : step s = .next u) (hu : P u) (hd : u.done = false) :
    StepsWithin P 1 s u := by
  refine ⟨run_succ h, fun j hj hj' => ?_⟩
  obtain rfl : j = 1 := by omega
  exact ⟨u, run_succ h, hu, hd⟩

/-- Steps and then more steps. -/
theorem StepsWithin.trans (h : StepsWithin P n s t) (h' : StepsWithin P m t u) :
    StepsWithin P (n + m) s u := by
  refine ⟨(run_add h.1).trans h'.1, fun j hj hjm => ?_⟩
  rcases Nat.lt_or_ge n j with hlt | hle
  · obtain ⟨v, hrun, hv⟩ := h'.2 (j - n) (by omega) (by omega)
    exact ⟨v, by rw [show j = n + (j - n) by omega, run_add h.1, hrun], hv⟩
  · exact h.2 j hj hle

end

/-- The wait of position `p` in `s` is at the primitive `nx`, with nothing under way. -/
structure WaitAt (nx : Prim) (s : State) (p : Pos) (v : State) : Prop where
  clean : Clean v
  pos : ∃ q, v.pc = .run q ∧ q.next = nx ∧ q.op = p.op ∧ q.step = p.step
  cfg : v.cfg = s.cfg
  cmdQueue : v.cmdQueue = s.cmdQueue

/-- A wait at one of its primitives is still in its step. -/
theorem WaitAt.stillIn {nx : Prim} (h : WaitAt nx s p v) : StillIn s p v := by
  obtain ⟨q, hpc, -, hop, hstep⟩ := h.pos
  exact ⟨h.clean.busy, ⟨q, hpc, hop, hstep⟩, h.cmdQueue⟩

/-- With no timeout configured a busy sample goes on to the poll delay. -/
theorem WaitAt.busySample {l : Bit} {ls : List Bit} (h : WaitAt .sample s p v)
    (ht : s.cfg.busyTimeoutPolls = none) (hls : v.env.levels = l :: ls)
    (hl : l ≠ s.cfg.busyIdleLevel) :
    ∃ u, step v = .next u ∧ WaitAt .pollDelay s p u ∧ u.done = false ∧ u.env.levels = ls := by
  obtain ⟨⟨hb, hdelay, hflight, hrst⟩, ⟨q, hpc, hn, hop, hstep⟩, hcfg, hqueue⟩ := h
  have hdraw : (nextInputs v).env.drawLevel = (l, { v.env with levels := ls }) := by
    simp [Env.drawLevel, hls]
  have hgoes : timedOut s.cfg (countPoll q.polls) = false := by simp [timedOut, ht]
  refine ⟨_, step_seq hb hrst hpc, ?_⟩
  simp only [seqStep, hn, pollBusy, hdraw, nextInputs_cfg, hcfg, hl, hgoes]
  exact ⟨⟨⟨by simp [hb], by simp [hdelay], by simp [hflight], by simp [hrst]⟩,
    ⟨_, rfl, rfl, hop, hstep⟩, by simp [hcfg], by simp [hqueue]⟩, rfl, rfl⟩

/-- The poll delay leads to the next sample and draws no BUSY level. -/
theorem WaitAt.pollDelay (h : WaitAt .pollDelay s p v) :
    ∃ n u, StepsWithin (StillIn s p) n v u ∧ WaitAt .sample s p u ∧
      u.env.levels = v.env.levels := by
  obtain ⟨⟨hb, hdelay, hflight, hrst⟩, ⟨q, hpc, hn, hop, hstep⟩, hcfg, hqueue⟩ := h
  have hseq : seqStep q = delayStep .poll (goTo { q with next := .sample }) := by
    funext t; simp [seqStep, hn]
  have hticks : StepsWithin (StillIn s p) (delayTicks v.cfg .poll + v.env.drawLate.1 + 1) v
      (inDelay v .poll (delayTicks v.cfg .poll + v.env.drawLate.1)) := by
    refine ⟨run_inDelay hb hpc hrst hseq hdelay le_rfl, fun j hj hj' => ?_⟩
    obtain ⟨k, rfl⟩ : ∃ k, j = k + 1 := ⟨j - 1, by omega⟩
    exact ⟨_, run_inDelay hb hpc hrst hseq hdelay (by omega),
      ⟨by simp [inDelay, hb], ⟨q, hpc, hop, hstep⟩, by simp [inDelay, hqueue]⟩, rfl⟩
  have hend := step_delay_ends hb hpc hrst hseq
  have hback : WaitAt .sample s p (goTo { q with next := .sample }
      { inDelay v .poll (delayTicks v.cfg .poll + v.env.drawLate.1) with delay := none }) :=
    ⟨⟨by simp [inDelay, hb], rfl, by simp [inDelay, hflight], by simp [inDelay, hrst]⟩,
      ⟨_, rfl, rfl, hop, hstep⟩, by simp [inDelay, hcfg], by simp [inDelay, hqueue]⟩
  exact ⟨_, _, hticks.trans (.one hend hback.stillIn rfl), hback, drawLate_levels v.env⟩

/-- However many busy levels come, a wait with no timeout configured reads them all and stays. -/
theorem WaitAt.busyLevels (ht : s.cfg.busyTimeoutPolls = none) {k : Nat}
    (h : WaitAt .sample s p v) (hk : k ≤ v.env.levels.length)
    (hbusy : ∀ l ∈ v.env.levels.take k, l ≠ s.cfg.busyIdleLevel) :
    ∃ m u, k ≤ m ∧ StepsWithin (StillIn s p) m v u ∧ u.env.levels = v.env.levels.drop k := by
  induction k generalizing v with
  | zero => exact ⟨0, v, le_rfl, .refl v, rfl⟩
  | succ k ih =>
    obtain ⟨l, ls, hls⟩ := List.exists_cons_of_length_pos (by omega : 0 < v.env.levels.length)
    rw [hls] at hk hbusy ⊢
    obtain ⟨w, hsample, hw, hdone, hlw⟩ := h.busySample ht hls (hbusy l (by simp))
    obtain ⟨n, x, hdelay, hx, hlx⟩ := hw.pollDelay
    have hrest : x.env.levels = ls := hlx.trans hlw
    obtain ⟨m, u, hkm, hwithin, hlu⟩ := ih hx (by simpa [hrest] using hk)
      fun y hy => hbusy y (by simp [← hrest, hy])
    exact ⟨1 + n + m, u, by omega, ((StepsWithin.one hsample hw.stillIn hdone).trans hdelay).trans
      hwithin, by simp [hlu, hrest]⟩

/-- Settles O45: each busy level takes the wait through a sample and a poll delay, and in no state of
these is it over. -/
theorem stuckBusyLineNeverEndsTheWait : Obligations.StuckBusyLineNeverEndsTheWait := by
  unfold Obligations.StuckBusyLineNeverEndsTheWait
  intro s p k hcoh hpc hn hrst ht hk hbusy
  have hstart : WaitAt .sample s p s :=
    ⟨clean_of_sample hcoh hpc hn hrst, ⟨p, hpc, hn, rfl, rfl⟩, rfl, rfl⟩
  obtain ⟨m, u, hkm, ⟨hrun, hwithin⟩, hlevels⟩ := WaitAt.busyLevels ht hstart hk hbusy
  refine ⟨m, u, hkm, hrun, hlevels, fun j hj => ?_⟩
  obtain rfl | hpos := Nat.eq_zero_or_pos j
  · exact ⟨s, p, rfl, hstart.clean.busy, hpc, rfl, rfl, rfl, nofun⟩
  · obtain ⟨v, hv, ⟨hb, ⟨q, hq, hop, hstep⟩, hqueue⟩, hdone⟩ := hwithin j hpos hj
    exact ⟨v, q, hv, hb, hq, hop, hstep, hqueue, fun _ => hdone⟩

end Sys2Proof.Machine
end

section
/-! The statement about block reset (spec/70_reset_and_hazards.md R250, R251): a step with `rst` asserted
is `blockReset`, whose fields, register reads and canvas are the reset values. -/

namespace Sys2Proof.Machine

variable {s : State}

/-- After block reset every register reads 0: PSTATE is Uninitialized, ERR is OK, BUSY is low and the
other result registers are 0 (R25, R250). -/
@[simp] theorem readReg_blockReset (sel : BitVec 2) : readReg sel (blockReset s) = 0#32 := by
  have hstatus : statusWord (blockReset s) = 0#32 := by
    simp [statusWord, ErrCode.code, flagBit, PState.code]
  simp [readReg, hstatus]

/-- The port is ready after block reset, BUSY being low (R23, R250). -/
@[simp] theorem cmdReady_blockReset : cmdReady (blockReset s) = true := rfl

/-- Where no pixel is listed, as after block reset, every pixel reads white (R28, R250). -/
@[simp] theorem canvasRead_nil (p : Panel) (x y : Nat) : canvasRead p [] x y = 1#1 :=
  whiteCanvas_read _

/-- Settles O7: `rst` wins over everything else a step does, and block reset keeps only the wire record,
the inputs and the configuration. -/
theorem blockResetAtAnyPoint : Obligations.BlockResetAtAnyPoint := by
  unfold Obligations.BlockResetAtAnyPoint
  intro s hr
  exact ⟨blockReset (nextInputs s), step_rst hr,
    by simp [cmdReady_blockReset, readReg_blockReset, canvasRead_nil]⟩

end Sys2Proof.Machine
end
